-- ==== Sys2Proof/Word.lean ====
section
/-! DEFINITION. The word types of the block: register byte, command and response words, index field, bus
address, channel (00_scope.md rules R6 and R8, 30_encoding.md rules R80 and R86). -/

namespace Sys2Proof

/-- The device register and every transaction's data: `REGW = 8` bits (R6). Bit `i` is pin `i` (R8). -/
abbrev Byte := BitVec 8

/-- The command word `CMD16` (R80). -/
abbrev CmdWord := BitVec 16

/-- The response word `RSP32` (R86). -/
abbrev RspWord := BitVec 32

/-- The `IDX` field: 4 bits, so that the out-of-range values 8 to 15 can be presented (R82). -/
abbrev Idx := BitVec 4

/-- A bus address: `ADDRW = 7` bits (R6). -/
abbrev BusAddr := BitVec 7

/-- A channel, bit or pin index once checked: 0 to 7 (R6, R10). -/
abbrev Chan := Fin 8

end Sys2Proof
end

