-- ==== Sys2Proof/Config.lean ====
section
/-! DEFINITION. What an implementation fixes (00_scope.md rule R7), and the free values of a run. -/

namespace Sys2Proof

/-- The three failures the transport may report (20_memory.md rule R52, 30_encoding.md rule R89). -/
inductive Cause
  | nack
  | timeout
  | ioFault
  deriving DecidableEq, Repr, Inhabited

/-- `PRIM_PORT` (R7): whether the primitive opcode group is reachable from the command port. -/
inductive PrimPort
  | exposed
  | sealed
  deriving DecidableEq, Repr, Inhabited

/-- `NAME_T` (R7), the type of a channel's display name, carried and never read (R33).
DESIGN CHOICE, safe: byte strings (log 12). -/
abbrev NameT := List Byte

/-- The parameters of R7, fixed for a machine: no step changes them. They stand in the state so that a
statement about every state holds for every implementation (log 1). -/
structure Params where
  /-- `PRIM_PORT`. -/
  primPort : PrimPort
  /-- `EXT_AGENTS`: whether another agent may change a device register between transactions. -/
  extAgents : Bool
  /-- `VALID_ADDRS`: the chip family's addresses. -/
  validAddrs : List BusAddr
  /-- `DEVID_W`: the width of the device identity. -/
  devIdW : Nat
  /-- `DEVREG_INIT`: what a device register that no transaction has changed holds. -/
  devRegInit : Byte
  deriving DecidableEq, Repr

/-- One draw of the bus oracle (20_memory.md rule R52): everything that the transport, the device and
the other agents decide about one transaction. -/
structure BusDraw where
  /-- The environment step just before the transaction (R66): another agent's byte for the device
  register, if one replaced it. It counts only when `EXT_AGENTS` is true. -/
  foreign : Option Byte
  /-- The transport's answer: `none` for Ok, else the cause (R52). -/
  fail : Option Cause
  /-- For a write answered Err: whether the byte reached the device all the same (R53 c). -/
  landed : Bool
  deriving DecidableEq, Repr, Inhabited

/-- FREE VALUE: the oracle's draw for the `n`-th transaction when the run's script does not give it
(R52: "it is a free input of a run"; log 6). -/
opaque Config.freeDraw : Nat → BusDraw

/-- FREE VALUE: `DEVREG_INIT` of the run that starts at `State.reset` (R7: "free input of a run"; log 4). -/
opaque Config.devRegInit : Byte

/-- The default of `VALID_ADDRS` (92_eei_decisions.md D8): PRESUMED, the spec's own general-knowledge
default for its test vectors (log 3). -/
def Config.defaultAddrs : List BusAddr :=
  [0x20, 0x21, 0x22, 0x23, 0x24, 0x25, 0x26, 0x27, 0x38, 0x39, 0x3A, 0x3B, 0x3C, 0x3D, 0x3E, 0x3F]

/-- The parameters of `State.reset` (DESIGN CHOICE: `PRIM_PORT` exposed, log 2; the other values log 2,
3, 4 and 11). -/
def Config.params : Params :=
  { primPort := .exposed, extAgents := true, validAddrs := Config.defaultAddrs, devIdW := 32,
    devRegInit := Config.devRegInit }

end Sys2Proof
end

