-- ==== Sys2Proof/Syntax.lean ====
section
/-! DEFINITION. The twelve commands (30_encoding.md rule R84) and the textual form of a command with its
pseudo-instructions (R96, R97). -/

namespace Sys2Proof

/-- The commands, one constructor per row of the opcode table (R84). A channel or bit index is the 4-bit
`IDX` field: 8 to 15 are legal words, answered `InvalidChannel` (R82). -/
inductive Instr
  /-- IS_READY (R192). -/
  | isReady
  /-- ATTACH (R181). -/
  | attach
  /-- STOP (R188). -/
  | stop
  /-- SWITCH: `desired` is true for on (R158). -/
  | switch (channel : Idx) (desired : Bool)
  /-- READ (R160). -/
  | read (channel : Idx)
  /-- READ_ALL (R162). -/
  | readAll
  /-- IS_ON (R164). -/
  | isOn (channel : Idx)
  /-- PORT_READ (R122). -/
  | portRead
  /-- PORT_WRITE (R124). -/
  | portWrite (value : Byte)
  /-- GET_BIT (R131). -/
  | getBit (index : Idx)
  /-- SET_BIT: `value` is a physical bit (R134). -/
  | setBit (index : Idx) (value : Bool)
  /-- SET_ALL: element `j` of the ordered sequence of 8 booleans is bit `j` (R136, R137). -/
  | setAll (values : Byte)
  deriving DecidableEq, Repr

/-- A command's operation name in assembler text (R96), the pseudo-instructions of R97 among them. -/
inductive AsmOp
  | isReady | attach | stop | switch | read | readAll | isOn
  | portRead | portWrite | getBit | setBit | setAll
  | on | off | setup | detach
  deriving DecidableEq, Repr

/-- An operand of assembler text (R96): a number, or one of the words `on` and `off`. `hex` says that the
number was written in hex or binary, the forms of a byte, and not in decimal. -/
inductive AsmOperand
  | num (hex : Bool) (n : Nat)
  | level (on : Bool)
  deriving DecidableEq, Repr

/-- A line of assembler text: an operation and its operands, ranges not yet checked. -/
structure AsmLine where
  op : AsmOp
  operands : List AsmOperand
  deriving DecidableEq, Repr

end Sys2Proof
end

