-- ==== Sys2Proof/Machine/State.lean ====
section
/-! DEFINITION. The state: the block exactly as 10_state.md rule R20 lists it, and beside it what rule R39
puts outside the block (device registers, inputs, oracle, output trace), all plain data. -/

namespace Sys2Proof.Machine

/-- `SEQ`: "State machine with states `Uninitialized → Ready → Stopped` (terminal)" (R21). -/
inductive Seq
  | uninitialized
  | ready
  | stopped
  deriving DecidableEq, Repr

/-- A configured startup or shutdown state: "a tagged enum {On, Off, Unset}" (R30, R31). -/
inductive TriCfg
  | off
  | on
  | unset
  deriving DecidableEq, Repr

/-- What `cache_get` returns: "logical on/off or undefined" (R145). -/
inductive CacheLevel
  | off
  | on
  | undefined
  deriving DecidableEq, Repr

/-- The error kinds a command can end in (R200). -/
inductive ErrKind
  | invalidChannel
  | busError (cause : Cause)
  | notReady
  | illegalCommand
  deriving DecidableEq, Repr

/-- How a command ends: Ok with the response's `DATA` field, or one of the error kinds (R86, R200). -/
inductive Result
  | ok (data : BitVec 16)
  | err (kind : ErrKind)
  deriving DecidableEq, Repr

/-- `PHASE` of a report event (R92). -/
inductive Phase
  | probe
  | startup
  | shutdown
  deriving DecidableEq, Repr

/-- One bus transaction with the transport's answer (R51, R52): direction, address, data. For a write,
`fail` is `none` when the answer was Ok. -/
inductive BusTx
  | read (addr : BusAddr) (answer : Except Cause Byte)
  | write (addr : BusAddr) (value : Byte) (fail : Option Cause)
  deriving DecidableEq, Repr

/-- What leaves the block, in order (R39 e; log 15). -/
inductive Obs
  /-- A bus transaction, once answered. -/
  | bus (tx : BusTx)
  /-- A trigger event (`DEV_ID`, `CH`) (R91). -/
  | trig (devId : Nat) (ch : Chan)
  /-- A report event (`PHASE`, `CH`, `KIND`, `CAUSE`) (R92); `err` carries `KIND` and `CAUSE`. -/
  | report (phase : Phase) (ch : Chan) (err : ErrKind)
  /-- The response word of a command (R86). -/
  | response (w : RspWord)
  deriving DecidableEq, Repr

/-- The four fields of a report event at its port, in the widths of R92; the spec packs them in no word. -/
structure ReportFields where
  phase : BitVec 2
  ch : BitVec 3
  kind : BitVec 3
  cause : BitVec 2
  deriving DecidableEq, Repr

/-- The configuration input `cfg_in` (R90): the 64-bit `CFGWORD`, `DEV_ID`, `NAME[0..7]`. -/
structure CfgIn where
  cfgWord : BitVec 64
  devId : Nat
  name : Vector NameT 8
  deriving DecidableEq, Repr

/-- What the outside does to the block between commands (R12, D1), in arrival order (R57; log 13). -/
inductive HostEvent
  /-- A command word presented at the command port. -/
  | command (w : CmdWord)
  /-- The configuration provider changes `cfg_in`. -/
  | config (c : CfgIn)
  /-- `rst` is asserted, between commands only (R241). -/
  | rst
  /-- Another agent writes the device at an address, when `EXT_AGENTS` is true (R66). -/
  | foreign (addr : BusAddr) (value : Byte)
  deriving DecidableEq, Repr

/-- The block's state is exactly the following (R20). -/
structure Block where
  /-- `SEQ` (R21). -/
  seq : Seq
  /-- `CV[0..7]`: the cell's valid bits (R22). -/
  cv : BitVec 8
  /-- `CL[0..7]`: the cell's cached logical levels, 1 for on (R22). -/
  cl : BitVec 8
  /-- `LASTRD_VALID`: 0 is "never read" (R25). -/
  lastRdValid : Bool
  /-- `LASTRD`: the last byte read (R25). -/
  lastRd : Byte
  /-- `ADDR` (R28). -/
  addr : BusAddr
  /-- `ON_STATE[0..7]`: the physical bit that stands for on (R29). -/
  onState : BitVec 8
  /-- `STARTUP[0..7]` (R30). -/
  startup : Vector TriCfg 8
  /-- `SHUTDOWN[0..7]` (R31). -/
  shutdown : Vector TriCfg 8
  /-- `TRIG[0..7]` (R32). -/
  trig : BitVec 8
  /-- `NAME[0..7]`: latched and never read (R33). -/
  name : Vector NameT 8
  /-- `DEV_ID`: opaque, read only when a trigger event is emitted (R34; log 11). -/
  devId : Nat
  deriving DecidableEq, Repr

/-- The device registers by 7-bit bus address (R37, R64; log 5): strictly rising addresses, and no entry
equal to what an unlisted address reads as. -/
abbrev Memory := List Host.Cell

/-- The entries from address `lo` on are in canonical form: rising, inside the 7-bit bus space, and none
equal to `d`, the value of an unlisted address. -/
def Memory.risingFrom (d : Byte) : Nat → Memory → Bool
  | _, [] => true
  | lo, (k, b) :: m => decide (lo ≤ k) && decide (k < 128) && b != d && Memory.risingFrom d (k + 1) m

/-- The canonical form of the device registers. -/
def Memory.wf (d : Byte) (m : Memory) : Bool := Memory.risingFrom d 0 m

/-- The machine: the block, its parameters, and its environment as plain data. -/
structure State where
  /-- The parameters of the implementation (00_scope.md rule R7). -/
  params : Params
  /-- The block's own state (R20). -/
  block : Block
  /-- The configuration input, sampled only at ATTACH (R39 d). -/
  cfgIn : CfgIn
  /-- The device registers (R39 a). -/
  bus : Memory
  /-- The scripted draws of the bus oracle, next first (R39 b, R52). -/
  oracle : List BusDraw
  /-- How many draws have been taken: the MODEL's own field, the index of the free draws (log 6). -/
  drawn : Nat
  /-- What the host presents, next first (R12). -/
  input : List HostEvent
  /-- What the block has sent out, oldest first (R39 e). -/
  trace : List Obs
  deriving DecidableEq, Repr

/-- No rule of the spec stops the machine: every error is a response and the next command runs normally
(60_exceptions.md rule R206), so there is no fault (log 17). -/
inductive Fault
  deriving DecidableEq, Repr

/-- Why a command has no meaning here. -/
inductive Refusal
  /-- Raised by `exec` for an instruction without a meaning yet. Safe: nothing is claimed of it. -/
  | notModelled (mnemonic : String)
  /-- Raised by ATTACH when it samples a `cfg_in` whose `CFGWORD` is ill formed: "the block's behaviour for
  it is undefined" (R87, U2). Safe: the model stops where the spec gives no effect (log 9). -/
  | illFormedConfig
  deriving DecidableEq, Repr

/-- The block right after reset (R40, R240): `SEQ`, `CV` and `LASTRD_VALID` as the spec says; every other
latch is unspecified there and holds the value log 7 names (DESIGN CHOICE, unsafe). -/
def Block.reset : Block :=
  { seq := .uninitialized, cv := 0, cl := 0, lastRdValid := false, lastRd := 0, addr := 0, onState := 0,
    startup := Vector.replicate 8 .off, shutdown := Vector.replicate 8 .off, trig := 0,
    name := Vector.replicate 8 [], devId := 0 }

/-- `cfg_in` before the host presents a record (DESIGN CHOICE, unsafe, log 14). -/
def CfgIn.initial : CfgIn := { cfgWord := 0, devId := 0, name := Vector.replicate 8 [] }

/-- The machine right after reset: the block of R40, no device register written yet, no input and no
output yet. -/
def State.reset : State :=
  { params := Config.params, block := Block.reset, cfgIn := CfgIn.initial, bus := [], oracle := [], drawn := 0,
    input := [], trace := [] }

end Sys2Proof.Machine
end

