-- ==== Sys2Proof/Machine/Ops.lean ====
section
/-! DEFINITION. The shared operations: updates of the state by name, the device registers, the two bus
transactions (20_memory.md rules R50 to R53, R66), and how a command ends, Ok or in error
(60_exceptions.md rule R206). -/

namespace Sys2Proof.Machine

/-! ### Named updates -/

/-- Replace the block's own state. -/
def State.setBlock (s : State) (b : Block) : State := { s with block := b }

/-- Replace the device registers. -/
def State.setBus (s : State) (m : Memory) : State := { s with bus := m }

/-- Send one event out (R39 e). -/
def State.emit (s : State) (o : Obs) : State := { s with trace := s.trace ++ [o] }

/-- Consume the next draw of the oracle. -/
def State.takeDraw (s : State) : State := { s with oracle := s.oracle.tail, drawn := s.drawn + 1 }

/-- What remains of the host's input. -/
def State.setInput (s : State) (l : List HostEvent) : State := { s with input := l }

/-- The configuration provider's new record on `cfg_in`. -/
def State.setCfgIn (s : State) (c : CfgIn) : State := { s with cfgIn := c }

/-- `SEQ <- q` (R21). -/
def Block.setSeq (b : Block) (q : Seq) : Block := { b with seq := q }

/-- `LASTRD <- v ; LASTRD_VALID <- 1` (R25). -/
def Block.setLastRd (b : Block) (v : Byte) : Block := { b with lastRd := v, lastRdValid := true }

/-- Replace the cache's valid bits and levels (R22). -/
def Block.setCells (b : Block) (cv cl : BitVec 8) : Block := { b with cv := cv, cl := cl }

/-- `CV[c] <- 0` for all `c`, `LASTRD_VALID <- 0` (R190). -/
def Block.invalidate (b : Block) : Block := { b with cv := 0, lastRdValid := false }

/-! ### The device registers -/

/-- The register at address `a`; an unlisted address reads as `d` (`DEVREG_INIT`, R40). -/
def Memory.read (d : Byte) : Memory → Nat → Byte
  | [], _ => d
  | (k, b) :: m, a => if k = a then b else Memory.read d m a

/-- The registers without an entry for address `a`. -/
def Memory.erase (m : Memory) (a : Nat) : Memory :=
  match m with
  | [] => []
  | (k, b) :: m => if k = a then Memory.erase m a else (k, b) :: Memory.erase m a

/-- An entry for address `a` put in its place by address. -/
def Memory.put (m : Memory) (a : Nat) (v : Byte) : Memory :=
  match m with
  | [] => [(a, v)]
  | (k, b) :: m => if a < k then (a, v) :: (k, b) :: m else (k, b) :: Memory.put m a v

/-- Replace the register at address `a`, keeping the canonical form: the value an unlisted address reads as
is not listed. -/
def Memory.write (d : Byte) (m : Memory) (a : Nat) (v : Byte) : Memory :=
  if v = d then Memory.erase m a else Memory.put (Memory.erase m a) a v

/-- The device register at a bus address. -/
def State.device (s : State) (a : BusAddr) : Byte := Memory.read s.params.devRegInit s.bus a.toNat

/-- The state with another byte in the device register at a bus address. -/
def State.setDevice (s : State) (a : BusAddr) (v : Byte) : State :=
  s.setBus (Memory.write s.params.devRegInit s.bus a.toNat v)

/-- `DEVREG`: the register of the device the block is attached to (R39 a). -/
def State.devReg (s : State) : Byte := s.device s.block.addr

/-! ### The bus transactions -/

/-- The oracle's draw for the next transaction: the script's, else a free value (R52; log 6). -/
def State.nextDraw (s : State) : BusDraw :=
  match s.oracle with
  | d :: _ => d
  | [] => Config.freeDraw s.drawn

/-- Another agent's step: it may replace the device register when `EXT_AGENTS` is true (R66). -/
def State.foreignStep (s : State) (v : Option Byte) : State :=
  match s.params.extAgents, v with
  | true, some v => s.setDevice s.block.addr v
  | true, none => s
  | false, _ => s

/-- The state in which the next transaction is performed: after the environment step before it (R53 e),
the draw consumed. -/
def State.startTx (s : State) : State := (s.foreignStep s.nextDraw.foreign).takeDraw

/-- `MemRead(ADDR, 1)`: one read transaction (R50). Answered Ok it returns `DEVREG` and leaves it (R53 a);
answered Err it leaves it (R53 d). -/
def memRead (s : State) : Except Cause Byte × State :=
  let s1 := s.startTx
  let r : Except Cause Byte :=
    match s.nextDraw.fail with
    | none => .ok s1.devReg
    | some c => .error c
  (r, s1.emit (.bus (.read s1.block.addr r)))

/-- `MemWrite(ADDR, 1, v)`: one write transaction (R50). Answered Ok it sets all eight bits of `DEVREG`
(R53 b); answered Err it leaves `DEVREG` old or equal to `v`, as the draw says (R53 c). -/
def memWrite (v : Byte) (s : State) : Except Cause Unit × State :=
  let s1 := s.startTx
  match s.nextDraw.fail with
  | none => (.ok (), (s1.setDevice s1.block.addr v).emit (.bus (.write s1.block.addr v none)))
  | some c =>
    (.error c,
      (if s.nextDraw.landed then s1.setDevice s1.block.addr v else s1).emit
        (.bus (.write s1.block.addr v (some c))))

/-! ### The response word and the end of a command -/

/-- `STATUS` of an error kind (R88). -/
def ErrKind.status : ErrKind → BitVec 3
  | .invalidChannel => 1
  | .busError _ => 2
  | .notReady => 3
  | .illegalCommand => 4

/-- `STATUS` (R88). -/
def Result.status : Result → BitVec 3
  | .ok _ => 0
  | .err k => k.status

/-- `CAUSE` codes of the transport's failures (R89). -/
def causeCode : Cause → BitVec 2
  | .nack => 1
  | .timeout => 2
  | .ioFault => 3

/-- `CAUSE` of an error kind: nonzero only for `BusError` (R86, R89). -/
def ErrKind.causeField : ErrKind → BitVec 2
  | .invalidChannel => 0
  | .busError c => causeCode c
  | .notReady => 0
  | .illegalCommand => 0

/-- `CAUSE` (R89). -/
def Result.causeField : Result → BitVec 2
  | .ok _ => 0
  | .err k => k.causeField

/-- `DATA`: 0 in every error response (R86). -/
def Result.data : Result → BitVec 16
  | .ok d => d
  | .err _ => 0

/-- The response word `RSP32` = `{STATUS, CAUSE, CH, 0, DATA}` (R86). -/
def rspWord (ch : Idx) (r : Result) : RspWord := r.status ++ r.causeField ++ ch ++ (0 : BitVec 7) ++ r.data

/-- The response on a byte-wide link, most significant byte first (R86). -/
def rspBytes (w : RspWord) : List Byte :=
  [w.extractLsb' 24 8, w.extractLsb' 16 8, w.extractLsb' 8 8, w.extractLsb' 0 8]

/-- `PHASE` codes of a report event (R92). -/
def Phase.code : Phase → BitVec 2
  | .probe => 0
  | .startup => 1
  | .shutdown => 2

/-- A report event as its port carries it (R92): `KIND` is a `STATUS` code (R88), `CAUSE` that of R89. -/
def reportFields (p : Phase) (ch : Chan) (e : ErrKind) : ReportFields :=
  { phase := p.code, ch := BitVec.ofNat 3 ch.val, kind := e.status, cause := e.causeField }

/-- A command ends: its response word is sent and nothing else happens. -/
def respond (ch : Idx) (r : Result) (s : State) : State := s.emit (.response (rspWord ch r))

/-- `return Ok(data)` (R10). -/
def returnOk (ch : Idx) (data : BitVec 16) (s : State) : Host.Outcome State Fault Refusal :=
  .next (respond ch (.ok data) s)

/-- `raise <Kind>(info)`, the block's whole exception entry (R206): the command ends with the error
response, `DATA = 0`; no mode, mask or stack changes, nothing is saved, control goes nowhere. There is no
return from it, "because nothing is entered" (R209): the next command runs normally. -/
def raise (ch : Idx) (k : ErrKind) (s : State) : Host.Outcome State Fault Refusal :=
  .next (respond ch (.err k) s)

/-- The state check (R203): a command that requires `Ready` ends with `NotReady` in any other state. -/
def requireReady (ch : Idx) (s : State) (run : Host.Outcome State Fault Refusal) :
    Host.Outcome State Fault Refusal :=
  if s.block.seq = .ready then run else raise ch .notReady s

/-- End a command with the result of a bus operation: Ok with `data`, or `BusError` with the transport's
cause, passed up unchanged (R205). -/
def finish (ch : Idx) (r : Except Cause (BitVec 16) × State) : Host.Outcome State Fault Refusal :=
  .next (respond ch (match r.1 with | .ok d => .ok d | .error c => .err (.busError c)) r.2)

end Sys2Proof.Machine
end

