-- ==== Sys2Proof/WellFormed.lean ====
section
/-! DEFINITION. Well-formedness: which commands an implementation has (30_encoding.md rules R81 and
R93 f), which configuration words are well formed (R87, R90), which assembler lines have an encoding (R96). -/

namespace Sys2Proof

/-- The primitive group: the commands with `OPC[3] = 1` (R81). -/
def Instr.primitive : Instr → Bool
  | .isReady => false
  | .attach => false
  | .stop => false
  | .switch _ _ => false
  | .read _ => false
  | .readAll => false
  | .isOn _ => false
  | .portRead => true
  | .portWrite _ => true
  | .getBit _ => true
  | .setBit _ _ => true
  | .setAll _ => true

/-- A command an implementation has: with `PRIM_PORT = sealed` the primitive group is not among them
(R93 f). The operands need no check: their types are the fields' widths. -/
def Instr.wellFormed (p : PrimPort) (i : Instr) : Bool :=
  p == .exposed || !i.primitive

/-- The low bit of channel `c`'s six bits of `CFGWORD` (R90). -/
def cfgBase (c : Chan) : Nat := 8 + 6 * c.val

/-- The `STARTUP[c]` field of `CFGWORD` (R90). -/
def cfgStartup (w : BitVec 64) (c : Chan) : BitVec 2 := w.extractLsb' (cfgBase c + 1) 2

/-- The `SHUTDOWN[c]` field of `CFGWORD` (R90). -/
def cfgShutdown (w : BitVec 64) (c : Chan) : BitVec 2 := w.extractLsb' (cfgBase c + 3) 2

/-- A well-formed `CFGWORD`: reserved bits 7 and 63:56 zero (R90), no tri-state field holding 3 (R87). -/
def cfgWellFormed (w : BitVec 64) : Bool :=
  w.extractLsb' 7 1 == 0 && w.extractLsb' 56 8 == 0 &&
    (List.finRange 8).all (fun c => cfgStartup w c != 3 && cfgShutdown w c != 3)

/-- A channel or index operand: decimal, 0 to 15 (R96). -/
def AsmOperand.isIndex : AsmOperand → Bool
  | .num hex n => !hex && decide (n ≤ 15)
  | .level _ => false

/-- A byte operand: in hex or binary, at most 0xFF (R96). -/
def AsmOperand.isByte : AsmOperand → Bool
  | .num hex n => hex && decide (n ≤ 0xFF)
  | .level _ => false

/-- A bit operand: 0 or 1 (R96), in decimal (log 20). -/
def AsmOperand.isBit : AsmOperand → Bool
  | .num hex n => !hex && decide (n ≤ 1)
  | .level _ => false

/-- A level operand: `on` or `off`, "may also be written 1/0" (R96), in decimal (log 20). -/
def AsmOperand.isLevel : AsmOperand → Bool
  | .num hex n => !hex && decide (n ≤ 1)
  | .level _ => true

/-- The lines an assembler accepts: "An assembler must reject `c` or `i` above 15, `v` above 0xFF, and
any other operand, since they have no encoding" (R96). -/
def AsmLine.wellFormed (l : AsmLine) : Bool :=
  match l.op, l.operands with
  | .isReady, [] => true
  | .attach, [] => true
  | .stop, [] => true
  | .switch, [c, d] => c.isIndex && d.isLevel
  | .read, [c] => c.isIndex
  | .readAll, [] => true
  | .isOn, [c] => c.isIndex
  | .portRead, [] => true
  | .portWrite, [v] => v.isByte
  | .getBit, [i] => i.isIndex
  | .setBit, [i, b] => i.isIndex && b.isBit
  | .setAll, [v] => v.isByte
  | .on, [c] => c.isIndex
  | .off, [c] => c.isIndex
  | .setup, [] => true
  | .detach, [] => true
  | _, _ => false

end Sys2Proof
end

