-- ==== Sys2Proof/Machine/Operands.lean ====
section
/-! DEFINITION. Operands and bit arithmetic: the index check (60_exceptions.md rule R204), single bits of
a byte (41_bit_view.md rule R138), and the fields of the configuration record (30_encoding.md rule R90). -/

namespace Sys2Proof.Machine

/-- The channels in ascending order, the order of every sweep (R184, R189). -/
def channels : List Chan := [0, 1, 2, 3, 4, 5, 6, 7]

/-- An index is in range iff `IDX <= 7`, unsigned; a value above 7 is never reduced (R82, R138). -/
def chan? (i : Idx) : Option Chan := if h : i.toNat < 8 then some ⟨i.toNat, h⟩ else none

/-- The index check (R204): out of range, the command ends with `InvalidChannel`, `CH` the offending
index; in range it runs with the 3-bit index. -/
def requireChan (i : Idx) (s : State) (run : Chan → Host.Outcome State Fault Refusal) :
    Host.Outcome State Fault Refusal :=
  match chan? i with
  | none => raise i .invalidChannel s
  | some c => run c

/-- `extract(r, i) = r[i]` (R138). -/
def extractBit (r : Byte) (i : Chan) : Bool := r.getLsbD i.val

/-- `insert(r, i, b) = (r & ~(1 << i)) | (b << i)`, truncated to 8 bits (R138). -/
def insertBit (r : Byte) (i : Chan) (b : Bool) : Byte :=
  (r &&& ~~~((1 : Byte) <<< i.val)) ||| ((if b then 1 else 0 : Byte) <<< i.val)

/-- `compose(t)`: the byte whose bit `j` is `t[j]` (R138). -/
def composeBits (t : Chan → Bool) : Byte :=
  BitVec.ofBool (t 7) ++ BitVec.ofBool (t 6) ++ BitVec.ofBool (t 5) ++ BitVec.ofBool (t 4) ++
    BitVec.ofBool (t 3) ++ BitVec.ofBool (t 2) ++ BitVec.ofBool (t 1) ++ BitVec.ofBool (t 0)

/-- The tri-state codes of the configuration record; 3 is reserved and has no reading (R87). -/
def triCfg? (v : BitVec 2) : Option TriCfg :=
  if v = 0 then some .off else if v = 1 then some .on else if v = 2 then some .unset else none

/-- `ON_STATE[c]` of `CFGWORD`: bit 8+6c (R90). -/
def cfgOnState (w : BitVec 64) (c : Chan) : Bool := w.getLsbD (cfgBase c)

/-- `TRIG[c]` of `CFGWORD`: bit 8+6c+5 (R90). -/
def cfgTrig (w : BitVec 64) (c : Chan) : Bool := w.getLsbD (cfgBase c + 5)

/-- Eight tri-states, or `none` when one of the codes is 3. -/
def triCfgs? (f : Chan → BitVec 2) : Option (Vector TriCfg 8) :=
  match triCfg? (f 0), triCfg? (f 1), triCfg? (f 2), triCfg? (f 3),
    triCfg? (f 4), triCfg? (f 5), triCfg? (f 6), triCfg? (f 7) with
  | some a, some b, some c, some d, some e, some f, some g, some h => some #v[a, b, c, d, e, f, g, h]
  | _, _, _, _, _, _, _, _ => none

/-- `(ADDR, DEV_ID, ON_STATE, STARTUP, SHUTDOWN, TRIG, NAME) <- cfg_in` (R27, R181), or `none` for an
ill-formed record (R87, R90, U2). `DEV_ID` has `devIdW` bits (R34; log 11). -/
def latchConfig (devIdW : Nat) (c : CfgIn) (b : Block) : Option Block :=
  if c.cfgWord.extractLsb' 7 1 = 0 ∧ c.cfgWord.extractLsb' 56 8 = 0 then
    match triCfgs? (cfgStartup c.cfgWord), triCfgs? (cfgShutdown c.cfgWord) with
    | some up, some down =>
      some { b with
        addr := c.cfgWord.extractLsb' 0 7
        devId := c.devId % 2 ^ devIdW
        onState := composeBits (cfgOnState c.cfgWord)
        startup := up
        shutdown := down
        trig := composeBits (cfgTrig c.cfgWord)
        name := c.name }
    | _, _ => none
  else none

end Sys2Proof.Machine
end

