-- ==== Sys2Proof/Machine/Flags.lean ====
section
/-! DEFINITION. The single-bit facts and codes a program can observe (10_state.md rule R36): `ready`, the
per-channel tri-state of a response, the FAIL masks (30_encoding.md rules R87 and R99). The block has no
condition codes. -/

namespace Sys2Proof.Machine

/-- The 2-bit code of `SEQ` (R21); 3 never occurs. -/
def Seq.code : Seq → BitVec 2
  | .uninitialized => 0
  | .ready => 1
  | .stopped => 2

/-- `ready`: `SEQ = Ready` (R36). -/
def Block.isReady (b : Block) : Bool := b.seq == .ready

/-- `known` of channel `c`: `CV[c]` (R36). -/
def Block.known (b : Block) (c : Chan) : Bool := extractBit b.cv c

/-- `DATA[0]` = one bit (R99: IS_READY, GET_BIT). -/
def bitRsp (b : Bool) : BitVec 16 := if b then 1 else 0

/-- `DATA[7:0]` = one byte (R99: PORT_READ, STOP). -/
def byteRsp (v : Byte) : BitVec 16 := (0 : BitVec 8) ++ v

/-- The tri-state codes of READ, READ_ALL and IS_ON: 0 off, 1 on, 2 unknown; 3 never produced (R87). -/
def CacheLevel.code : CacheLevel → BitVec 2
  | .off => 0
  | .on => 1
  | .undefined => 2

/-- `DATA[1:0]` = one tri-state (R99: READ, IS_ON). -/
def triRsp (v : CacheLevel) : BitVec 16 := (0 : BitVec 14) ++ v.code

/-- `DATA[2c+1:2c]` = the tri-state of channel `c` (R99: READ_ALL). -/
def triAllRsp (v : Chan → CacheLevel) : BitVec 16 :=
  (v 7).code ++ (v 6).code ++ (v 5).code ++ (v 4).code ++ (v 3).code ++ (v 2).code ++ (v 1).code ++ (v 0).code

/-- ATTACH's `DATA`: `FAIL` in bits 7:0, `PROBE_FAIL` in bit 8 (R99). -/
def attachRsp (fail : Byte) (probeFail : Bool) : BitVec 16 := (0 : BitVec 7) ++ BitVec.ofBool probeFail ++ fail

/-- `FAIL[c] = 1` (R184, R189). -/
def markFail (fail : Byte) (c : Chan) : Byte := insertBit fail c true

end Sys2Proof.Machine
end

