-- ==== Sys2Proof/Machine/RegisterPort.lean ====
section
/-! DEFINITION. The Register Port (40_register_port.md): `port_read`, `port_write`, and the commands
PORT_READ and PORT_WRITE. -/

namespace Sys2Proof.Machine

/-- `port_read()` (R120): one read; on success `LASTRD` takes the byte. -/
def portRead (s : State) : Except Cause Byte × State :=
  match memRead s with
  | (.ok b, s1) => (.ok b, s1.setBlock (s1.block.setLastRd b))
  | (.error c, s1) => (.error c, s1)

/-- `port_write(v)` (R121): one write; no state of the block changes. -/
def portWrite (v : Byte) (s : State) : Except Cause Unit × State := memWrite v s

/-- Give the result of a bus operation its response `DATA`; an error stays as it is. -/
def withData {α : Type} (r : Except Cause α × State) (data : α → BitVec 16) :
    Except Cause (BitVec 16) × State :=
  (match r.1 with | .ok a => .ok (data a) | .error c => .error c, r.2)

/-- PORT_READ (R122). -/
def execPortRead (s : State) : Host.Outcome State Fault Refusal :=
  requireReady 0 s (finish 0 (withData (portRead s) byteRsp))

/-- PORT_WRITE (R124): the byte is written as it is, no polarity, the cache neither read nor updated. -/
def execPortWrite (v : Byte) (s : State) : Host.Outcome State Fault Refusal :=
  requireReady 0 s (finish 0 (withData (portWrite v s) (fun _ => 0)))

end Sys2Proof.Machine
end

