-- ==== Sys2Proof/Machine/BitView.lean ====
section
/-! DEFINITION. The Bit View (41_bit_view.md): `get_bit`, `set_bit`, `set_all`, and the commands GET_BIT,
SET_BIT and SET_ALL. All values here are physical bits. -/

namespace Sys2Proof.Machine

/-- `get_bit(i)` (R130). -/
def getBit (i : Chan) (s : State) : Except Cause Bool × State :=
  match portRead s with
  | (.ok b, s1) => (.ok (extractBit b i), s1)
  | (.error c, s1) => (.error c, s1)

/-- `set_bit(i, b)` (R132): a read, then a write of the byte read with one bit replaced; a failed read
ends it before the write. Not atomic against other agents: the write's draw may hold an environment step. -/
def setBit (i : Chan) (b : Bool) (s : State) : Except Cause Unit × State :=
  match portRead s with
  | (.ok v, s1) => portWrite (insertBit v i b) s1
  | (.error c, s1) => (.error c, s1)

/-- `set_all(t)` (R135): one write of the composed byte, no read. -/
def setAll (t : Chan → Bool) (s : State) : Except Cause Unit × State := portWrite (composeBits t) s

/-- GET_BIT (R131). -/
def execGetBit (i : Idx) (s : State) : Host.Outcome State Fault Refusal :=
  requireReady i s (requireChan i s fun c => finish i (withData (getBit c s) bitRsp))

/-- SET_BIT (R134). -/
def execSetBit (i : Idx) (b : Bool) (s : State) : Host.Outcome State Fault Refusal :=
  requireReady i s (requireChan i s fun c => finish i (withData (setBit c b s) (fun _ => 0)))

/-- SET_ALL (R137): element `j` of the sequence is bit `j` of the operand (R136). -/
def execSetAll (v : Byte) (s : State) : Host.Outcome State Fault Refusal :=
  requireReady 0 s (finish 0 (withData (setAll (extractBit v) s) (fun _ => 0)))

end Sys2Proof.Machine
end

