-- ==== Sys2Proof/Machine/ChannelCache.lean ====
section
/-! DEFINITION. The Channel Cache (42_channel_cache.md): `cache_get` and `cache_set`. Neither has an opcode
(30_encoding.md rule R84). -/

namespace Sys2Proof.Machine

/-- `cache_get(c)` (R145): a cell that is not valid is the third value, never a default level. -/
def cacheGet (b : Block) (c : Chan) : CacheLevel :=
  if b.known c then (if extractBit b.cl c then .on else .off) else .undefined

/-- `cache_set(c, l)` (R146): cell `c` only. -/
def cacheSet (c : Chan) (l : Bool) (b : Block) : Block :=
  b.setCells (insertBit b.cv c true) (insertBit b.cl c l)

end Sys2Proof.Machine
end

