-- ==== Sys2Proof/Machine/ChannelController.lean ====
section
/-! DEFINITION. The Channel Controller (43_channel_controller.md): the polarity map, `do_switch`, and the
commands SWITCH, READ, READ_ALL and IS_ON. -/

namespace Sys2Proof.Machine

/-- `phys(c, l) = ~(l ^ ON_STATE[c])` (R155). -/
def phys (b : Block) (c : Chan) (l : Bool) : Bool := !(l ^^ extractBit b.onState c)

/-- `logi(c, v) = ~(v ^ ON_STATE[c])` (R155). -/
def logi (b : Block) (c : Chan) (v : Bool) : Bool := !(v ^^ extractBit b.onState c)

/-- Bit `j` of the shadow byte (10_state.md rule R26): the cached level through the polarity map, else the
last physical bit read, else 0. -/
def shadowBit (b : Block) (j : Chan) : Bool :=
  if b.known j then phys b j (extractBit b.cl j) else if b.lastRdValid then extractBit b.lastRd j else false

/-- The shadow byte `SB` (R26): what the block believes the device register holds. -/
def shadowByte (b : Block) : Byte := composeBits (shadowBit b)

/-- The target vector of a switch (R156): the new bit for the commanded channel, the shadow bits for the
other seven. -/
def target (b : Block) (c : Chan) (l : Bool) : Chan → Bool :=
  fun j => if j = c then phys b c l else shadowBit b j

/-- `do_switch(c, l)` (R157): one write of the whole target byte and no read; the cell is updated only
when the write was answered Ok. -/
def doSwitch (c : Chan) (l : Bool) (s : State) : Except Cause Unit × State :=
  match setAll (target s.block c l) s with
  | (.ok _, s1) => (.ok (), s1.setBlock (cacheSet c l s1.block))
  | (.error e, s1) => (.error e, s1)

/-- SWITCH (R158). -/
def execSwitch (i : Idx) (l : Bool) (s : State) : Host.Outcome State Fault Refusal :=
  requireReady i s (requireChan i s fun c => finish i (withData (doSwitch c l s) (fun _ => 0)))

/-- READ (R160): the cached value; no bus transaction. -/
def execRead (i : Idx) (s : State) : Host.Outcome State Fault Refusal :=
  requireReady i s (requireChan i s fun c => returnOk i (triRsp (cacheGet s.block c)) s)

/-- READ_ALL (R162). -/
def execReadAll (s : State) : Host.Outcome State Fault Refusal :=
  requireReady 0 s (returnOk 0 (triAllRsp (cacheGet s.block)) s)

/-- IS_ON (R164): as READ, without the state check. -/
def execIsOn (i : Idx) (s : State) : Host.Outcome State Fault Refusal :=
  requireChan i s fun c => returnOk i (triRsp (cacheGet s.block c)) s

end Sys2Proof.Machine
end

