-- ==== Sys2Proof/Machine/Lifecycle.lean ====
section
/-! DEFINITION. The Lifecycle Sequencer (44_lifecycle_sequencer.md): the probe, the two sweeps, and the
commands ATTACH, STOP and IS_READY. -/

namespace Sys2Proof.Machine

/-- `probe()` (R183): one read before the sweep; a failure is reported and does not fail ATTACH. The Bool
is `PROBE_FAIL`. -/
def probe (s : State) : Bool × State :=
  match portRead s with
  | (.ok _, s1) => (false, s1)
  | (.error c, s1) => (true, s1.emit (.report .probe 0 (.busError c)))

/-- One configured channel of the startup sweep (R184): the switch, then the trigger event if it succeeded
and is flagged (R186), or the failure reported and marked (R185). -/
def startupSwitch (c : Chan) (l : Bool) (acc : Byte × State) : Byte × State :=
  match doSwitch c l acc.2 with
  | (.ok _, s) => (acc.1, if extractBit s.block.trig c then s.emit (.trig s.block.devId c) else s)
  | (.error e, s) => (markFail acc.1 c, s.emit (.report .startup c (.busError e)))

/-- One channel of the startup sweep (R184): an unset channel is left untouched. -/
def startupOne (acc : Byte × State) (c : Chan) : Byte × State :=
  match acc.2.block.startup[c] with
  | .unset => acc
  | .on => startupSwitch c true acc
  | .off => startupSwitch c false acc

/-- `startup_sweep()` (R184): the channels in ascending order; the byte is `FAIL`. -/
def startupSweep (s : State) : Byte × State := channels.foldl startupOne (0, s)

/-- One configured channel of the shutdown sweep (R189): no trigger. -/
def shutdownSwitch (c : Chan) (l : Bool) (acc : Byte × State) : Byte × State :=
  match doSwitch c l acc.2 with
  | (.ok _, s) => (acc.1, s)
  | (.error e, s) => (markFail acc.1 c, s.emit (.report .shutdown c (.busError e)))

/-- One channel of the shutdown sweep (R189). -/
def shutdownOne (acc : Byte × State) (c : Chan) : Byte × State :=
  match acc.2.block.shutdown[c] with
  | .unset => acc
  | .on => shutdownSwitch c true acc
  | .off => shutdownSwitch c false acc

/-- `shutdown_sweep()` (R189). -/
def shutdownSweep (s : State) : Byte × State := channels.foldl shutdownOne (0, s)

/-- ATTACH once the address is valid (R181): probe, sweep, `SEQ <- Ready`; always Ok, whatever failed. -/
def attachRun (s : State) : Host.Outcome State Fault Refusal :=
  let p := probe s
  let r := startupSweep p.2
  returnOk 0 (attachRsp r.1 p.1) (r.2.setBlock (r.2.block.setSeq .ready))

/-- ATTACH (R181): the state check, then `cfg_in` is sampled, then the address is validated (R182). An
ill-formed record is refused (R87, U2; log 9). The latches written before a bad address is found stay
written (R10, R181 b; log 10). -/
def execAttach (s : State) : Host.Outcome State Fault Refusal :=
  if s.block.seq = .uninitialized then
    match latchConfig s.params.devIdW s.cfgIn s.block with
    | none => .refused .illFormedConfig
    | some b =>
      if b.addr ∈ s.params.validAddrs then attachRun (s.setBlock b)
      else raise 0 .invalidChannel (s.setBlock b)
  else raise 0 .notReady s

/-- STOP (R188): the shutdown sweep, then `Stopped` with the cache and the last-read latch invalidated
(R190), whatever failed. -/
def execStop (s : State) : Host.Outcome State Fault Refusal :=
  requireReady 0 s
    (let r := shutdownSweep s
     returnOk 0 (byteRsp r.1) (r.2.setBlock (r.2.block.setSeq .stopped).invalidate))

/-- IS_READY (R192): no state check. -/
def execIsReady (s : State) : Host.Outcome State Fault Refusal :=
  returnOk 0 (bitRsp s.block.isReady) s

end Sys2Proof.Machine
end

