-- ==== Sys2Proof/Machine/Dispatch.lean ====
section
/-! DEFINITION. One arm per command: its own meaning. -/

namespace Sys2Proof.Machine

/-- The effect of one command (30_encoding.md rule R100 steps 2 to 4). -/
def exec (i : Instr) (s : State) : Host.Outcome State Fault Refusal :=
  match i with
  | .isReady => Sys2Proof.Machine.execIsReady s
  | .attach => Sys2Proof.Machine.execAttach s
  | .stop => Sys2Proof.Machine.execStop s
  | .switch c d => Sys2Proof.Machine.execSwitch c d s
  | .read c => Sys2Proof.Machine.execRead c s
  | .readAll => Sys2Proof.Machine.execReadAll s
  | .isOn c => Sys2Proof.Machine.execIsOn c s
  | .portRead => Sys2Proof.Machine.execPortRead s
  | .portWrite v => Sys2Proof.Machine.execPortWrite v s
  | .getBit n => Sys2Proof.Machine.execGetBit n s
  | .setBit n b => Sys2Proof.Machine.execSetBit n b s
  | .setAll v => Sys2Proof.Machine.execSetAll v s

end Sys2Proof.Machine
end

