-- ==== Sys2Proof/Decode.lean ====
section
/-! DEFINITION. Decoding the command word, total and rejecting by name, and the encoder after it
(30_encoding.md rules R80 to R100). The machine never sees a raw encoding. -/

namespace Sys2Proof

/-- Why a word is illegal: the cases of R93, and a byte sequence too short to hold a command word. -/
inductive DecodeError
  /-- R93 (a): `OPC` is 0x7, 0xD, 0xE or 0xF. -/
  | reservedOpcode
  /-- R93 (b), (e): `IDX` must be 0 and is not. -/
  | indexNotZero
  /-- R93 (b), (d): `DATA` must be 0 and is not. -/
  | dataNotZero
  /-- R93 (c): `DATA[7:1]` must be 0 and is not. -/
  | levelBitsNotZero
  /-- R93 (f): a primitive opcode with `PRIM_PORT = sealed`. -/
  | primitiveSealed
  /-- Fewer than the two bytes of a command word (R80, R95). -/
  | truncated
  deriving DecidableEq, Repr

/-- `OPC`, bits 15:12 (R80). -/
def opcField (w : CmdWord) : BitVec 4 := w.extractLsb' 12 4

/-- `IDX`, bits 11:8 (R80). -/
def idxField (w : CmdWord) : Idx := w.extractLsb' 8 4

/-- `DATA`, bits 7:0 (R80). -/
def dataField (w : CmdWord) : Byte := w.extractLsb' 0 8

/-- A command without operands: `IDX` and `DATA` are checked to be zero (R82, R83). -/
def decodePlain (w : CmdWord) (i : Instr) : Except DecodeError Instr :=
  if idxField w ≠ 0 then .error .indexNotZero
  else if dataField w ≠ 0 then .error .dataNotZero
  else .ok i

/-- A command with an index only: `DATA` is checked to be zero (R83). -/
def decodeIdx (w : CmdWord) (k : Idx → Instr) : Except DecodeError Instr :=
  if dataField w ≠ 0 then .error .dataNotZero else .ok (k (idxField w))

/-- A command with an index and one bit in `DATA[0]`: `DATA[7:1]` is checked to be zero (R83). -/
def decodeIdxBit (w : CmdWord) (k : Idx → Bool → Instr) : Except DecodeError Instr :=
  if w.extractLsb' 1 7 ≠ 0 then .error .levelBitsNotZero else .ok (k (idxField w) (w.getLsbD 0))

/-- A command with a byte: `IDX` is checked to be zero (R82). -/
def decodeByte (w : CmdWord) (k : Byte → Instr) : Except DecodeError Instr :=
  if idxField w ≠ 0 then .error .indexNotZero else .ok (k (dataField w))

/-- The command a word selects, by its opcode (R84); the words it refuses are those of R93 (a) to (e). -/
def decode (w : CmdWord) : Except DecodeError Instr :=
  match (opcField w).toNat with
  | 0x0 => decodePlain w .isReady
  | 0x1 => decodePlain w .attach
  | 0x2 => decodePlain w .stop
  | 0x3 => decodeIdxBit w .switch
  | 0x4 => decodeIdx w .read
  | 0x5 => decodePlain w .readAll
  | 0x6 => decodeIdx w .isOn
  | 0x8 => decodePlain w .portRead
  | 0x9 => decodeByte w .portWrite
  | 0xA => decodeIdx w .getBit
  | 0xB => decodeIdxBit w .setBit
  | 0xC => decodeByte w .setAll
  | _ => .error .reservedOpcode

/-- Decoding at the command port of an implementation: with `PRIM_PORT = sealed` every word with
`OPC[3] = 1` is illegal, whatever the rest of it (R93 f). -/
def decodePort (p : PrimPort) (w : CmdWord) : Except DecodeError Instr :=
  if p = .sealed ∧ w.getLsbD 15 = true then .error .primitiveSealed else decode w

/-- A 16-bit word from its two bytes, most significant byte first (R80). -/
def wordOfBytes (hi lo : Byte) : CmdWord := hi ++ lo

/-- The command at the front of a byte sequence, and the bytes after it: total on any bytes. -/
def decodeBytes : List Byte → Except DecodeError (Instr × List Byte)
  | hi :: lo :: rest =>
    match decode (wordOfBytes hi lo) with
    | .ok i => .ok (i, rest)
    | .error e => .error e
  | _ => .error .truncated

/-- A word from its fields `{OPC, IDX, DATA}` (R80). -/
def cmdWord (opc idx : BitVec 4) (data : Byte) : CmdWord := opc ++ idx ++ data

/-- One bit as a `DATA` field: `DATA[0]` with `DATA[7:1] = 0` (R83). -/
def bitData (b : Bool) : Byte := if b then 1 else 0

/-- The word of a command (R84). -/
def encode : Instr → CmdWord
  | .isReady => cmdWord 0x0 0 0
  | .attach => cmdWord 0x1 0 0
  | .stop => cmdWord 0x2 0 0
  | .switch c d => cmdWord 0x3 c (bitData d)
  | .read c => cmdWord 0x4 c 0
  | .readAll => cmdWord 0x5 0 0
  | .isOn c => cmdWord 0x6 c 0
  | .portRead => cmdWord 0x8 0 0
  | .portWrite v => cmdWord 0x9 0 v
  | .getBit i => cmdWord 0xA i 0
  | .setBit i b => cmdWord 0xB i (bitData b)
  | .setAll v => cmdWord 0xC 0 v

/-- The bytes of a command on a byte-wide link, most significant byte first (R80). -/
def encodeBytes (i : Instr) : List Byte :=
  [(encode i).extractLsb' 8 8, (encode i).extractLsb' 0 8]

/-- A row of the opcode table (R84): a word selects the row when `word & mask = match`. -/
structure OpRow where
  mnemonic : String
  pattern : CmdWord
  mask : CmdWord
  deriving DecidableEq, Repr

/-- The word selects the row (R84). -/
def OpRow.selects (r : OpRow) (w : CmdWord) : Bool := w &&& r.mask == r.pattern

/-- The opcode table of R84, in its order. -/
def opcodeTable : List OpRow :=
  [ ⟨"IS_READY", 0x0000, 0xFFFF⟩,
    ⟨"ATTACH", 0x1000, 0xFFFF⟩,
    ⟨"STOP", 0x2000, 0xFFFF⟩,
    ⟨"SWITCH", 0x3000, 0xF0FE⟩,
    ⟨"READ", 0x4000, 0xF0FF⟩,
    ⟨"READ_ALL", 0x5000, 0xFFFF⟩,
    ⟨"IS_ON", 0x6000, 0xF0FF⟩,
    ⟨"PORT_READ", 0x8000, 0xFFFF⟩,
    ⟨"PORT_WRITE", 0x9000, 0xFF00⟩,
    ⟨"GET_BIT", 0xA000, 0xF0FF⟩,
    ⟨"SET_BIT", 0xB000, 0xF0FE⟩,
    ⟨"SET_ALL", 0xC000, 0xFF00⟩ ]

/-- The row of R84 a command belongs to. -/
def Instr.row : Instr → OpRow
  | .isReady => ⟨"IS_READY", 0x0000, 0xFFFF⟩
  | .attach => ⟨"ATTACH", 0x1000, 0xFFFF⟩
  | .stop => ⟨"STOP", 0x2000, 0xFFFF⟩
  | .switch _ _ => ⟨"SWITCH", 0x3000, 0xF0FE⟩
  | .read _ => ⟨"READ", 0x4000, 0xF0FF⟩
  | .readAll => ⟨"READ_ALL", 0x5000, 0xFFFF⟩
  | .isOn _ => ⟨"IS_ON", 0x6000, 0xF0FF⟩
  | .portRead => ⟨"PORT_READ", 0x8000, 0xFFFF⟩
  | .portWrite _ => ⟨"PORT_WRITE", 0x9000, 0xFF00⟩
  | .getBit _ => ⟨"GET_BIT", 0xA000, 0xF0FF⟩
  | .setBit _ _ => ⟨"SET_BIT", 0xB000, 0xF0FE⟩
  | .setAll _ => ⟨"SET_ALL", 0xC000, 0xFF00⟩

/-- The low 16 of `nbits` bits `w` (higher bits zero): the command word the opcode table numbers with bit
0 as its least significant bit. -/
def tableWord (nbits w : Nat) : CmdWord := BitVec.ofNat 16 (w % 2 ^ nbits)

/-- What the decoder reads from the word laid out as its bytes on the link (R80). -/
def decodeTableWord (nbits w : Nat) : Option Instr :=
  match decodeBytes [(tableWord nbits w).extractLsb' 8 8, (tableWord nbits w).extractLsb' 0 8] with
  | .ok (i, _) => some i
  | .error _ => none

end Sys2Proof
end

