-- ==== Sys2Proof/Machine/Port.lean ====
section
/-! DEFINITION. What arrives at the block's ports between commands (92_eei_decisions.md D1), other than a
legal command: an illegal word, a new record on `cfg_in`, `rst`, another agent's change of a device. -/

namespace Sys2Proof.Machine

/-- An illegal word (30_encoding.md rule R93): the response `IllegalCommand`, `CH` the word's bits 11:8;
no state changes and no transaction is issued. -/
def answerIllegal (w : CmdWord) (s : State) : Host.Outcome State Fault Refusal :=
  raise (idxField w) .illegalCommand s

/-- `rst` (70_reset_and_hazards.md rules R240, R241): the block's state becomes that of R40; no bus
transaction, no device register changes, no shutdown state is applied. -/
def applyReset (s : State) : Host.Outcome State Fault Refusal := .next (s.setBlock Block.reset)

/-- A new record on `cfg_in` (R27): no latch changes until an ATTACH samples it. -/
def applyConfig (c : CfgIn) (s : State) : Host.Outcome State Fault Refusal := .next (s.setCfgIn c)

/-- Another agent writes the device at an address between commands (20_memory.md rule R66); with
`EXT_AGENTS` false no other agent exists and nothing changes. -/
def applyForeign (a : BusAddr) (v : Byte) (s : State) : Host.Outcome State Fault Refusal :=
  .next (if s.params.extAgents then s.setDevice a v else s)

/-- Nothing is presented: the block waits (R208, R240). -/
def waitForInput (s : State) : Host.Outcome State Fault Refusal := .next s

/-- The state with a command word presented before everything else the host will present. -/
def presentFirst (w : CmdWord) (s : State) : State := s.setInput (.command w :: s.input)

end Sys2Proof.Machine
end

