-- ==== Sys2Proof/Machine/Step.lean ====
section
/-! DEFINITION. One step: the next thing the host presents, served to its end (20_memory.md rule R57). -/

namespace Sys2Proof.Machine

/-- Serve one command word (30_encoding.md rule R100): an illegal word is answered, a legal one executed. -/
def serve (w : CmdWord) (s : State) : Host.Outcome State Fault Refusal :=
  match decodePort s.params.primPort w with
  | .error _ => answerIllegal w s
  | .ok i => exec i s

/-- One step: commands are "applied to the bus one at a time, in arrival order, with no reordering" (R57).
There is no program counter and no fetch (10_state.md rule R35; log 13). -/
def step (s : State) : Host.Outcome State Fault Refusal :=
  match s.input with
  | [] => waitForInput s
  | .command w :: rest => serve w (s.setInput rest)
  | .config c :: rest => applyConfig c (s.setInput rest)
  | .rst :: rest => applyReset (s.setInput rest)
  | .foreign a v :: rest => applyForeign a v (s.setInput rest)

/-- The state in which the host presents next the command word that `nbits` and `w` give, so that the very
next step serves it (log 13). -/
def State.withFetchWord (s : State) (nbits w : Nat) : State := presentFirst (tableWord nbits w) s

end Sys2Proof.Machine
end

