-- ==== Sys2Proof/Machine/Assembler.lean ====
section
/-! DEFINITION. The textual form of a command and the pseudo-instructions (30_encoding.md rules R96 and
R97): reading a line, and assembling it to its command word. -/

namespace Sys2Proof.Machine

/-- Operation names (R96, R97). -/
def asmNames : List (String × AsmOp) :=
  [("IS_READY", .isReady), ("ATTACH", .attach), ("STOP", .stop), ("SWITCH", .switch), ("READ", .read),
    ("READ_ALL", .readAll), ("IS_ON", .isOn), ("PORT_READ", .portRead), ("PORT_WRITE", .portWrite),
    ("GET_BIT", .getBit), ("SET_BIT", .setBit), ("SET_ALL", .setAll)] ++
  [("ON", .on), ("OFF", .off), ("SETUP", .setup), ("DETACH", .detach)]

/-- The operation a name stands for, "in upper or lower case" (R96). -/
def asmOp? (cs : List Char) : Option AsmOp :=
  (asmNames.find? fun n => cs == n.1.toList || cs == n.1.toList.map Char.toLower).map Prod.snd

/-- The value of a digit, up to 15. -/
def digit? (c : Char) : Option Nat :=
  if '0' ≤ c ∧ c ≤ '9' then some (c.toNat - '0'.toNat)
  else if 'a' ≤ c ∧ c ≤ 'f' then some (c.toNat - 'a'.toNat + 10)
  else if 'A' ≤ c ∧ c ≤ 'F' then some (c.toNat - 'A'.toNat + 10)
  else none

/-- Digits of a base after those that gave `acc`. -/
def digits? (base : Nat) : Nat → List Char → Option Nat
  | acc, [] => some acc
  | acc, c :: cs =>
    match digit? c with
    | some d => if d < base then digits? base (acc * base + d) cs else none
    | none => none

/-- At least one digit of a base. -/
def number? (base : Nat) (cs : List Char) : Option Nat := if cs.isEmpty then none else digits? base 0 cs

/-- One operand: a decimal number, a number in hex or binary, or `on` or `off` (R96). -/
def asmOperand? : List Char → Option AsmOperand
  | ['o', 'n'] => some (.level true)
  | ['o', 'f', 'f'] => some (.level false)
  | '0' :: 'x' :: cs => (number? 16 cs).map (.num true)
  | '0' :: 'b' :: cs => (number? 2 cs).map (.num true)
  | cs => (number? 10 cs).map (.num false)

/-- Text split at its commas. -/
def splitCommas : List Char → List (List Char)
  | [] => [[]]
  | c :: cs =>
    match splitCommas cs with
    | [] => [[]]
    | t :: ts => if c = ',' then [] :: t :: ts else (c :: t) :: ts

/-- Text without the spaces at its two ends. -/
def trimSpaces (cs : List Char) : List Char :=
  ((cs.dropWhile (· == ' ')).reverse.dropWhile (· == ' ')).reverse

/-- All operands of a line, or `none` if one of them is no operand. -/
def asmOperands? : List (List Char) → Option (List AsmOperand)
  | [] => some []
  | t :: ts =>
    match asmOperand? (trimSpaces t), asmOperands? ts with
    | some o, some os => some (o :: os)
    | _, _ => none

/-- Read a line: "the mnemonic ... followed by its operands separated by commas" (R96). -/
def parseLine (cs : List Char) : Option AsmLine :=
  let cs := trimSpaces cs
  let name := cs.takeWhile (· != ' ')
  let rest := trimSpaces (cs.dropWhile (· != ' '))
  match asmOp? name, (if rest.isEmpty then some [] else asmOperands? (splitCommas rest)) with
  | some op, some os => some { op := op, operands := os }
  | _, _ => none

/-- An operand's value; `on` is 1 and `off` is 0 (R87). -/
def asmValue : AsmOperand → Nat
  | .num _ n => n
  | .level b => if b then 1 else 0

/-- The command a line stands for, its operands' ranges aside. A pseudo-instruction is "an exact synonym"
of its expansion (R97). -/
def lineInstr? (l : AsmLine) : Option Instr :=
  match l.op, l.operands with
  | .isReady, [] => some .isReady
  | .attach, [] => some .attach
  | .stop, [] => some .stop
  | .switch, [c, d] => some (.switch (BitVec.ofNat 4 (asmValue c)) (asmValue d == 1))
  | .read, [c] => some (.read (BitVec.ofNat 4 (asmValue c)))
  | .readAll, [] => some .readAll
  | .isOn, [c] => some (.isOn (BitVec.ofNat 4 (asmValue c)))
  | .portRead, [] => some .portRead
  | .portWrite, [v] => some (.portWrite (BitVec.ofNat 8 (asmValue v)))
  | .getBit, [i] => some (.getBit (BitVec.ofNat 4 (asmValue i)))
  | .setBit, [i, b] => some (.setBit (BitVec.ofNat 4 (asmValue i)) (asmValue b == 1))
  | .setAll, [v] => some (.setAll (BitVec.ofNat 8 (asmValue v)))
  | .on, [c] => some (.switch (BitVec.ofNat 4 (asmValue c)) true)
  | .off, [c] => some (.switch (BitVec.ofNat 4 (asmValue c)) false)
  | .setup, [] => some .attach
  | .detach, [] => some .stop
  | _, _ => none

/-- The command of a line, or `none` where the assembler must reject it (R96). -/
def assemble (l : AsmLine) : Option Instr := if l.wellFormed then lineInstr? l else none

/-- The command word of a line of text, or `none`. -/
def assembleText (cs : List Char) : Option CmdWord := (parseLine cs).bind assemble |>.map encode

end Sys2Proof.Machine
end

