-- ==== Sys2Proof/Safety.lean ====
section
/-! DEFINITION. The terms claims are made in: what a command is as the rules' tables have it, what a trace
shows, what the oracle is about to answer, and the invariants of the machine. -/

namespace Sys2Proof

/-- The `IDX` field of a command: its index operand, else 0 (30_encoding.md rule R82). -/
def Instr.idx : Instr → Idx
  | .isReady => 0
  | .attach => 0
  | .stop => 0
  | .switch c _ => c
  | .read c => c
  | .readAll => 0
  | .isOn c => c
  | .portRead => 0
  | .portWrite _ => 0
  | .getBit i => i
  | .setBit i _ => i
  | .setAll _ => 0

/-- The commands that write the device register and leave the shadow cache as it is
(70_reset_and_hazards.md rule R252). -/
def Instr.primitiveWrite : Instr → Bool
  | .isReady => false
  | .attach => false
  | .stop => false
  | .switch _ _ => false
  | .read _ => false
  | .readAll => false
  | .isOn _ => false
  | .portRead => false
  | .portWrite _ => true
  | .getBit _ => false
  | .setBit _ _ => true
  | .setAll _ => true

end Sys2Proof

namespace Sys2Proof.Machine

/-- The table of 60_exceptions.md rule R203: the sequencer state a command requires, `none` for any. -/
def required : Instr → Option Seq
  | .isReady => none
  | .attach => some .uninitialized
  | .stop => some .ready
  | .switch _ _ => some .ready
  | .read _ => some .ready
  | .readAll => some .ready
  | .isOn _ => none
  | .portRead => some .ready
  | .portWrite _ => some .ready
  | .getBit _ => some .ready
  | .setBit _ _ => some .ready
  | .setAll _ => some .ready

/-- The command passes the state check of R203. -/
def stateOk (i : Instr) (s : State) : Bool :=
  match required i with
  | none => true
  | some q => s.block.seq == q

/-! ### What a trace shows -/

/-- The transaction an event is, if it is one. -/
def Obs.tx? : Obs → Option BusTx
  | .bus t => some t
  | .trig _ _ => none
  | .report _ _ _ => none
  | .response _ => none

/-- The trigger an event is, if it is one. -/
def Obs.trig? : Obs → Option (Nat × Chan)
  | .bus _ => none
  | .trig d c => some (d, c)
  | .report _ _ _ => none
  | .response _ => none

/-- The report an event is, if it is one. -/
def Obs.report? : Obs → Option (Phase × Chan × ErrKind)
  | .bus _ => none
  | .trig _ _ => none
  | .report p c e => some (p, c, e)
  | .response _ => none

/-- The response an event is, if it is one. -/
def Obs.response? : Obs → Option RspWord
  | .bus _ => none
  | .trig _ _ => none
  | .report _ _ _ => none
  | .response w => some w

/-- The byte of a read answered Ok. -/
def Obs.okRead? : Obs → Option Byte
  | .bus (.read _ (.ok b)) => some b
  | _ => none

/-- The byte of a write answered Ok. -/
def Obs.okWrite? : Obs → Option Byte
  | .bus (.write _ v none) => some v
  | _ => none

/-- The bus transactions of a trace, in order. -/
def busTxs (l : List Obs) : List BusTx := l.filterMap Obs.tx?

/-- The trigger events of a trace, in order. -/
def triggers (l : List Obs) : List (Nat × Chan) := l.filterMap Obs.trig?

/-- The report events of a trace, in order. -/
def reports (l : List Obs) : List (Phase × Chan × ErrKind) := l.filterMap Obs.report?

/-- The responses of a trace, in order. -/
def responses (l : List Obs) : List RspWord := l.filterMap Obs.response?

/-- What the switch of channel `c` in a sweep puts out (R184, R189): the write of `v` with its answer, then the
trigger (`devId`, `c`) if it was answered Ok and is flagged, or the report if it was answered Err. -/
def switchEvents (ph : Phase) (a : BusAddr) (devId : Nat) (flagged : Bool) (v : Byte) (c : Chan) :
    Option Cause → List Obs
  | none => .bus (.write a v none) :: (if flagged then [.trig devId c] else [])
  | some e => [.bus (.write a v (some e)), .report ph c (.busError e)]

/-- The byte of the most recent read answered Ok. -/
def lastOkRead (l : List Obs) : Option Byte := l.reverse.findSome? Obs.okRead?

/-- The byte of the most recent write answered Ok. -/
def lastOkWrite (l : List Obs) : Option Byte := l.reverse.findSome? Obs.okWrite?

/-- A read transaction. -/
def BusTx.isRead : BusTx → Bool
  | .read _ _ => true
  | .write _ _ _ => false

/-- The address of a transaction. -/
def BusTx.addr : BusTx → BusAddr
  | .read a _ => a
  | .write a _ _ => a

/-! ### What the environment is about to do -/

/-- The draw of the transaction that comes after `k` more (20_memory.md rule R52). -/
def State.drawAt (s : State) (k : Nat) : BusDraw :=
  match s.oracle[k]? with
  | some d => d
  | none => Config.freeDraw (s.drawn + k)

/-- `DEVREG` as it stands when the next transaction is performed, the environment step before it made
(R53 a and e, R66). -/
def State.seenDevReg (s : State) : Byte :=
  if s.params.extAgents then (s.drawAt 0).foreign.getD s.devReg else s.devReg

/-- Every draw of the next `n` transactions answers Ok. -/
abbrev State.answersOk (s : State) (n : Nat) : Prop := ∀ k, k < n → (s.drawAt k).fail = none

/-! ### The configuration record -/

/-- The 2-bit code of a configured tri-state (R87). -/
def TriCfg.code : TriCfg → BitVec 2
  | .off => 0
  | .on => 1
  | .unset => 2

/-- The level a configured tri-state asks for; `none` for Unset. -/
def TriCfg.level : TriCfg → Option Bool
  | .off => some false
  | .on => some true
  | .unset => none

/-- The channels a sweep switches, in ascending order. -/
def sweepChannels (v : Vector TriCfg 8) : List Chan := channels.filter fun c => v[c] != .unset

/-- How many channels a sweep switches. -/
def configured (v : Vector TriCfg 8) : Nat := (sweepChannels v).length

/-- The address in a `CFGWORD` (R90). -/
def cfgAddr (w : BitVec 64) : BusAddr := w.extractLsb' 0 7

/-- How many channels' `STARTUP` field is not Unset (R90). -/
def cfgConfigured (w : BitVec 64) : Nat := (channels.filter fun c => cfgStartup w c != 2).length

/-- The latches of R27. -/
def sameLatches (b b' : Block) : Prop :=
  b'.addr = b.addr ∧ b'.devId = b.devId ∧ b'.onState = b.onState ∧ b'.startup = b.startup ∧
    b'.shutdown = b.shutdown ∧ b'.trig = b.trig ∧ b'.name = b.name

/-! ### Frames -/

/-- What no command changes: parameters, `cfg_in`, what the host presents next. -/
def sameInputs (s t : State) : Prop := t.params = s.params ∧ t.cfgIn = s.cfgIn ∧ t.input = s.input

/-- Exactly `n` draws of the oracle were taken. -/
def tookDraws (n : Nat) (s t : State) : Prop := t.oracle = s.oracle.drop n ∧ t.drawn = s.drawn + n

/-- The register of every device but the one at `a` reads as before. -/
def sameDevicesBut (a : BusAddr) (s t : State) : Prop := ∀ x, x ≠ a → t.device x = s.device x

/-- How many transactions 20_memory.md rule R59 gives a command. -/
def txCount (i : Instr) (s : State) : Nat :=
  if stateOk i s then
    match i with
    | .isReady => 0
    | .attach => if cfgAddr s.cfgIn.cfgWord ∈ s.params.validAddrs then 1 + cfgConfigured s.cfgIn.cfgWord else 0
    | .stop => configured s.block.shutdown
    | .switch c _ => if c.toNat ≤ 7 then 1 else 0
    | .read _ => 0
    | .readAll => 0
    | .isOn _ => 0
    | .portRead => 1
    | .portWrite _ => 1
    | .getBit n => if n.toNat ≤ 7 then 1 else 0
    | .setBit n _ => if n.toNat ≤ 7 then (if (s.drawAt 0).fail = none then 2 else 1) else 0
    | .setAll _ => 1
  else 0

/-! ### The next thing the host presents -/

/-- The command the next step executes, if it executes one. -/
def State.nextCommand? (s : State) : Option Instr :=
  match s.input with
  | .command w :: _ =>
    match decodePort s.params.primPort w with
    | .ok i => some i
    | .error _ => none
  | _ => none

/-- The next step is a reset. -/
def State.nextIsReset (s : State) : Bool :=
  match s.input with
  | .rst :: _ => true
  | _ => false

/-- `n` steps one after another, stopping at the first refusal. -/
def runSteps : Nat → State → Host.Outcome State Fault Refusal
  | 0, s => .next s
  | n + 1, s =>
    match step s with
    | .next t => runSteps n t
    | .fault f => .fault f
    | .refused r => .refused r

/-- Commands executed one after another, stopping at the first refusal. -/
def runCommands : List Instr → State → Host.Outcome State Fault Refusal
  | [], s => .next s
  | i :: l, s =>
    match exec i s with
    | .next t => runCommands l t
    | .fault f => .fault f
    | .refused r => .refused r

/-- The SWITCH commands of the configured channels, in ascending order. -/
def sweepCommands (v : Vector TriCfg 8) : List Instr :=
  channels.filterMap fun c => (v[c]).level.map (Instr.switch (BitVec.ofNat 4 c.val))

/-- Two ends of one start agree on the devices, on the oracle and on the transactions put out since. -/
def sameBus (s t u : State) : Prop :=
  t.bus = u.bus ∧ t.oracle = u.oracle ∧ t.drawn = u.drawn ∧
    ∃ new new', t.trace = s.trace ++ new ∧ u.trace = s.trace ++ new' ∧ busTxs new = busTxs new'

/-! ### Invariants -/

/-- The device registers are in canonical form. -/
abbrev State.busCanonical (s : State) : Prop := Memory.wf s.params.devRegInit s.bus = true

/-- "The cache is valid only in `Ready`" (10_state.md rule R24), and so is the last-read latch (R40, R190). -/
abbrev State.cacheOnlyInReady (s : State) : Prop :=
  s.block.seq ≠ .ready → s.block.cv = 0 ∧ s.block.lastRdValid = false

/-- In `Ready`, `ADDR` "always holds a legal value" (R28). -/
abbrev State.addrLegal (s : State) : Prop := s.block.seq = .ready → s.block.addr ∈ s.params.validAddrs

/-- `DEV_ID` fits its width (R34). -/
abbrev State.devIdFits (s : State) : Prop := s.block.devId < 2 ^ s.params.devIdW

/-- The invariant every step keeps. -/
abbrev State.Inv (s : State) : Prop :=
  s.busCanonical ∧ s.cacheOnlyInReady ∧ s.addrLegal ∧ s.devIdFits

/-- The confirmed-state invariant (R23): every valid cell's level, through the polarity map, is the bit of
the byte last written with an Ok answer. -/
abbrev State.Confirmed (s : State) : Prop :=
  ∀ c : Chan, s.block.known c = true →
    (lastOkWrite s.trace).map (fun v => extractBit v c) = some (phys s.block c (extractBit s.block.cl c))

/-- The block with everything R40 and R22 call unspecified or meaningless put to its reset value: the level
of a cell that is not valid, `LASTRD` while never read, the latches outside `Ready`; and `NAME`, which "no
rule of this spec reads" (R33). -/
def Block.visible (b : Block) : Block :=
  let latched := b.seq == .ready
  { seq := b.seq, cv := b.cv, cl := b.cl &&& b.cv, lastRdValid := b.lastRdValid,
    lastRd := if b.lastRdValid then b.lastRd else 0,
    addr := if latched then b.addr else 0,
    onState := if latched then b.onState else 0,
    startup := if latched then b.startup else Vector.replicate 8 .off,
    shutdown := if latched then b.shutdown else Vector.replicate 8 .off,
    trig := if latched then b.trig else 0,
    name := Vector.replicate 8 [],
    devId := if latched then b.devId else 0 }

/-- The state with its block so put. -/
def State.visible (s : State) : State := s.setBlock s.block.visible

/-- Two outcomes that no observer can tell apart: the same refusal, or next states that are the same but
for what R40 and R22 leave unspecified. -/
def sameToObserver : Host.Outcome State Fault Refusal → Host.Outcome State Fault Refusal → Prop
  | .next s, .next t => s.visible = t.visible
  | .refused r, .refused r' => r = r'
  | _, _ => False

end Sys2Proof.Machine
end

