-- ==== Sys2Proof/Certificates/Slice0/Obligations.lean ====
section
/-! DEFINITION. The statements for the provers. A response is written `rspWord ch result`; what its bits are is
stated by `ResponseWordFields`. A statement about a next state says what happens to the block, to the output
trace, to every device register, and to what the environment gave. -/

open Sys2Proof Sys2Proof.Machine

/-! ### Encodings -/

/-- R84: words written out from the encoding table decode to the commands they stand for. -/
def Obligations.KnownWordsDecode : Prop :=
  decode 0x0000 = .ok .isReady ∧ decode 0x1000 = .ok .attach ∧ decode 0x2000 = .ok .stop ∧
  decode 0x3301 = .ok (.switch 3 true) ∧ decode 0x3801 = .ok (.switch 8 true) ∧
  decode 0x4700 = .ok (.read 7) ∧ decode 0x5000 = .ok .readAll ∧ decode 0x6F00 = .ok (.isOn 15) ∧
  decode 0x8000 = .ok .portRead ∧ decode 0x90A5 = .ok (.portWrite 0xA5) ∧ decode 0xA500 = .ok (.getBit 5) ∧
  decode 0xB501 = .ok (.setBit 5 true) ∧ decode 0xC00F = .ok (.setAll 0x0F)

/-- R84, R93 (f): the decoder of an implementation gives back every command it has, from that command's
word, with every operand at every value. -/
def Obligations.DecodeOfEncodeIsTheCommand : Prop :=
  ∀ (p : PrimPort) (i : Instr), i.wellFormed p = true → decodePort p (encode i) = .ok i

/-- R84: a word that decodes to a command is that command's only word. -/
def Obligations.EncodeOfDecodeIsTheWord : Prop :=
  ∀ (w : CmdWord) (i : Instr), decode w = .ok i → encode i = w

/-- R80: on a byte-wide link a command is its word's two bytes, most significant byte first, and the decoder
takes exactly those two. -/
def Obligations.BytesMostSignificantFirst : Prop :=
  ∀ (i : Instr) (rest : List Byte),
    encodeBytes i = [(encode i).extractLsb' 8 8, (encode i).extractLsb' 0 8] ∧
    decodeBytes (encodeBytes i ++ rest) = .ok (i, rest)

/-- R84: no word selects two rows of the table, and a decoded word selects its command's row. -/
def Obligations.EachWordSelectsAtMostOneRow : Prop :=
  (∀ w : CmdWord, opcodeTable.Pairwise fun r r' => ¬ (r.selects w = true ∧ r'.selects w = true)) ∧
  (∀ (w : CmdWord) (i : Instr), decode w = .ok i → i.row ∈ opcodeTable ∧ i.row.selects w = true)

/-- R93: the illegal words are exactly those of (a) to (f), they are (but for (f)) the words no row selects, and
each is answered `IllegalCommand` with `CH` its bits 11:8, nothing else changing. -/
def Obligations.IllegalWordsExactlyAsListed : Prop :=
  (∀ (p : PrimPort) (w : CmdWord),
    (∃ e, decodePort p w = .error e) ↔
      (opcField w = 0x7 ∨ opcField w = 0xD ∨ opcField w = 0xE ∨ opcField w = 0xF) ∨
      ((opcField w = 0x0 ∨ opcField w = 0x1 ∨ opcField w = 0x2 ∨ opcField w = 0x5 ∨ opcField w = 0x8) ∧
        (idxField w ≠ 0 ∨ dataField w ≠ 0)) ∨
      ((opcField w = 0x3 ∨ opcField w = 0xB) ∧ w.extractLsb' 1 7 ≠ 0) ∨
      ((opcField w = 0x4 ∨ opcField w = 0x6 ∨ opcField w = 0xA) ∧ dataField w ≠ 0) ∨
      ((opcField w = 0x9 ∨ opcField w = 0xC) ∧ idxField w ≠ 0) ∨
      (p = .sealed ∧ w.getLsbD 15 = true)) ∧
  (∀ w : CmdWord, (∃ e, decode w = .error e) ↔ ∀ r ∈ opcodeTable, r.selects w = false) ∧
  (∀ (s : State) (w : CmdWord) (rest : List HostEvent) (e : DecodeError),
    s.input = .command w :: rest → decodePort s.params.primPort w = .error e →
    step s = .next ((s.setInput rest).emit (.response (rspWord (idxField w) (.err .illegalCommand)))))

/-- R86, R88, R89: the fields of every response word, its bytes on a link, and the codes. -/
def Obligations.ResponseWordFields : Prop :=
  ∀ (ch : Idx) (r : Result),
    (rspWord ch r).extractLsb' 29 3 =
      (match r with
        | .ok _ => 0 | .err .invalidChannel => 1 | .err (.busError _) => 2 | .err .notReady => 3
        | .err .illegalCommand => 4) ∧
    (rspWord ch r).extractLsb' 27 2 =
      (match r with
        | .err (.busError .nack) => 1 | .err (.busError .timeout) => 2 | .err (.busError .ioFault) => 3
        | _ => 0) ∧
    (rspWord ch r).extractLsb' 23 4 = ch ∧
    (rspWord ch r).extractLsb' 16 7 = 0 ∧
    (rspWord ch r).extractLsb' 0 16 = (match r with | .ok d => d | .err _ => 0) ∧
    rspBytes (rspWord ch r) =
      [(rspWord ch r).extractLsb' 24 8, (rspWord ch r).extractLsb' 16 8, (rspWord ch r).extractLsb' 8 8,
        (rspWord ch r).extractLsb' 0 8]

/-- R99: where a response's `DATA` holds a byte, a tri-state, eight tri-states, the FAIL mask and PROBE_FAIL. -/
def Obligations.ResponseDataLayout : Prop :=
  (∀ v : Byte, (byteRsp v).extractLsb' 0 8 = v ∧ (byteRsp v).extractLsb' 8 8 = 0) ∧
  (∀ v : CacheLevel, (triRsp v).extractLsb' 0 2 = v.code ∧ (triRsp v).extractLsb' 2 14 = 0) ∧
  (∀ (f : Chan → CacheLevel) (c : Chan), (triAllRsp f).extractLsb' (2 * c.val) 2 = (f c).code) ∧
  (∀ (fail : Byte) (pf : Bool), (attachRsp fail pf).extractLsb' 0 8 = fail ∧
    (attachRsp fail pf).getLsbD 8 = pf ∧ (attachRsp fail pf).extractLsb' 9 7 = 0)

/-- R92, R88, R89: the four fields of a report event, in their widths: `PHASE`, `CH`, `KIND`, `CAUSE`. -/
def Obligations.ReportEventFields : Prop :=
  ∀ (p : Phase) (c : Chan) (k : ErrKind),
    (reportFields p c k).phase = (match p with | .probe => 0 | .startup => 1 | .shutdown => 2) ∧
    (reportFields p c k).ch.toNat = c.val ∧
    (reportFields p c k).kind =
      (match k with | .invalidChannel => 1 | .busError _ => 2 | .notReady => 3 | .illegalCommand => 4) ∧
    (reportFields p c k).cause =
      (match k with | .busError .nack => 1 | .busError .timeout => 2 | .busError .ioFault => 3 | _ => 0)

/-- R57, R58, R86: a command word that is served without a refusal puts out exactly one response, after all
else, and `CH` echoes the word's bits 11:8. -/
def Obligations.OneResponseEndsEveryCommand : Prop :=
  ∀ (s t : State) (w : CmdWord) (rest : List HostEvent),
    s.input = .command w :: rest → step s = .next t →
    ∃ new r, t.trace = s.trace ++ new ++ [.response (rspWord (idxField w) r)] ∧ responses new = []

/-! ### Bits, polarity, the shadow byte -/

/-- R138: the definitions of extract, insert and compose, their laws, and the index range. -/
def Obligations.BitArithmeticLaws : Prop :=
  (∀ (r : Byte) (i : Chan), (extractBit r i).toNat = ((r >>> i.val) &&& 1).toNat) ∧
  (∀ (r : Byte) (i : Chan) (b : Bool),
    insertBit r i b = (r &&& ~~~((1 : Byte) <<< i.val)) ||| (BitVec.ofNat 8 b.toNat <<< i.val)) ∧
  (∀ (r : Byte) (i j : Chan) (b : Bool),
    extractBit (insertBit r i b) j = if j = i then b else extractBit r j) ∧
  (∀ (r : Byte) (i : Chan), insertBit r i (extractBit r i) = r) ∧
  (∀ t : Chan → Bool, (composeBits t).toNat = ∑ j : Chan, (t j).toNat <<< j.val) ∧
  (∀ (t : Chan → Bool) (j : Chan), extractBit (composeBits t) j = t j) ∧
  (∀ r : Byte, composeBits (extractBit r) = r) ∧
  (∀ i : Idx, (chan? i).isSome = true ↔ i.toNat ≤ 7)

/-- R155: the four cases of the polarity map, its reading backwards, and that the two are inverse. -/
def Obligations.PolarityMap : Prop :=
  ∀ (b : Block) (c : Chan),
    (extractBit b.onState c = true → phys b c true = true ∧ phys b c false = false) ∧
    (extractBit b.onState c = false → phys b c true = false ∧ phys b c false = true) ∧
    (∀ v, logi b c v = !(v ^^ extractBit b.onState c)) ∧
    (∀ l, logi b c (phys b c l) = l) ∧ (∀ v, phys b c (logi b c v) = v)

/-- R26: the shadow byte, bit by bit. -/
def Obligations.ShadowByteBits : Prop :=
  ∀ (b : Block) (j : Chan),
    (extractBit b.cv j = true → extractBit (shadowByte b) j = phys b j (extractBit b.cl j)) ∧
    (extractBit b.cv j = false → b.lastRdValid = true → extractBit (shadowByte b) j = extractBit b.lastRd j) ∧
    (extractBit b.cv j = false → b.lastRdValid = false → extractBit (shadowByte b) j = false)

/-- R156: the target of a switch, bit by bit, and that it is the shadow byte with one bit replaced. -/
def Obligations.SwitchTarget : Prop :=
  ∀ (b : Block) (c : Chan) (l : Bool),
    target b c l c = phys b c l ∧
    (∀ j, j ≠ c → extractBit b.cv j = true → target b c l j = phys b j (extractBit b.cl j)) ∧
    (∀ j, j ≠ c → extractBit b.cv j = false → b.lastRdValid = true →
      target b c l j = extractBit b.lastRd j) ∧
    (∀ j, j ≠ c → extractBit b.cv j = false → b.lastRdValid = false → target b c l j = false) ∧
    composeBits (target b c l) = insertBit (shadowByte b) c (phys b c l)

/-! ### Each command, as its rule gives it -/

/-- R192: IS_READY, in every state. -/
def Obligations.IsReadyCompletes : Prop :=
  (∀ (p : PrimPort) (w : CmdWord), decodePort p w = .ok .isReady ↔ w = 0x0000) ∧
  (∀ (p : PrimPort) (w : CmdWord), opcField w = 0x0 → w ≠ 0x0000 → ∃ e, decodePort p w = .error e) ∧
  (∀ s : State, exec .isReady s =
    .next (s.emit (.response (rspWord 0 (.ok (if s.block.seq = .ready then 1 else 0))))))

/-- R160: READ, its words and its three ways to end; nothing but the response happens. -/
def Obligations.ReadCompletes : Prop :=
  (∀ (p : PrimPort) (w : CmdWord) (i : Idx),
    decodePort p w = .ok (.read i) ↔ opcField w = 0x4 ∧ idxField w = i ∧ dataField w = 0) ∧
  (∀ (p : PrimPort) (w : CmdWord), opcField w = 0x4 → dataField w ≠ 0 → ∃ e, decodePort p w = .error e) ∧
  (∀ (s : State) (i : Idx), s.block.seq = .ready → i.toNat ≤ 7 →
    exec (.read i) s = .next (s.emit (.response (rspWord i (.ok
      (if s.block.cv.getLsbD i.toNat then (if s.block.cl.getLsbD i.toNat then 1 else 0) else 2)))))) ∧
  (∀ (s : State) (i : Idx), s.block.seq = .ready → 7 < i.toNat →
    exec (.read i) s = .next (s.emit (.response (rspWord i (.err .invalidChannel))))) ∧
  (∀ (s : State) (i : Idx), s.block.seq ≠ .ready →
    exec (.read i) s = .next (s.emit (.response (rspWord i (.err .notReady)))))

/-- R164: IS_ON, as READ but without the state check. -/
def Obligations.IsOnCompletes : Prop :=
  (∀ (p : PrimPort) (w : CmdWord) (i : Idx),
    decodePort p w = .ok (.isOn i) ↔ opcField w = 0x6 ∧ idxField w = i ∧ dataField w = 0) ∧
  (∀ (p : PrimPort) (w : CmdWord), opcField w = 0x6 → dataField w ≠ 0 → ∃ e, decodePort p w = .error e) ∧
  (∀ (s : State) (i : Idx), i.toNat ≤ 7 →
    exec (.isOn i) s = .next (s.emit (.response (rspWord i (.ok
      (if s.block.cv.getLsbD i.toNat then (if s.block.cl.getLsbD i.toNat then 1 else 0) else 2)))))) ∧
  (∀ (s : State) (i : Idx), 7 < i.toNat →
    exec (.isOn i) s = .next (s.emit (.response (rspWord i (.err .invalidChannel)))))

/-- R162: READ_ALL; lane `c` of the data is channel `c`'s tri-state. -/
def Obligations.ReadAllCompletes : Prop :=
  (∀ (p : PrimPort) (w : CmdWord), decodePort p w = .ok .readAll ↔ w = 0x5000) ∧
  (∀ (p : PrimPort) (w : CmdWord), opcField w = 0x5 → w ≠ 0x5000 → ∃ e, decodePort p w = .error e) ∧
  (∀ s : State, s.block.seq = .ready →
    ∃ d : BitVec 16, exec .readAll s = .next (s.emit (.response (rspWord 0 (.ok d)))) ∧
      ∀ c : Chan, d.extractLsb' (2 * c.val) 2 =
        if extractBit s.block.cv c then (if extractBit s.block.cl c then 1 else 0) else 2) ∧
  (∀ s : State, s.block.seq ≠ .ready →
    exec .readAll s = .next (s.emit (.response (rspWord 0 (.err .notReady)))))

/-- R122: PORT_READ, its words and its three ways to end. -/
def Obligations.PortReadCompletes : Prop :=
  (∀ (p : PrimPort) (w : CmdWord), decodePort p w = .ok .portRead ↔ p = .exposed ∧ w = 0x8000) ∧
  (∀ (p : PrimPort) (w : CmdWord), opcField w = 0x8 → p = .sealed ∨ w ≠ 0x8000 →
    ∃ e, decodePort p w = .error e) ∧
  (∀ s : State, s.block.seq = .ready → (s.drawAt 0).fail = none →
    ∃ t, exec .portRead s = .next t ∧
      t.block = { s.block with lastRd := s.seenDevReg, lastRdValid := true } ∧
      t.trace = s.trace ++ [.bus (.read s.block.addr (.ok s.seenDevReg)),
        .response (rspWord 0 (.ok (s.seenDevReg.setWidth 16)))] ∧
      t.device s.block.addr = s.seenDevReg ∧ sameDevicesBut s.block.addr s t ∧
      sameInputs s t ∧ tookDraws 1 s t) ∧
  (∀ (s : State) (e : Cause), s.block.seq = .ready → (s.drawAt 0).fail = some e →
    ∃ t, exec .portRead s = .next t ∧ t.block = s.block ∧
      t.trace = s.trace ++ [.bus (.read s.block.addr (.error e)),
        .response (rspWord 0 (.err (.busError e)))] ∧
      t.device s.block.addr = s.seenDevReg ∧ sameDevicesBut s.block.addr s t ∧
      sameInputs s t ∧ tookDraws 1 s t) ∧
  (∀ s : State, s.block.seq ≠ .ready →
    exec .portRead s = .next (s.emit (.response (rspWord 0 (.err .notReady)))))

/-- R124, R137, R53 (b), (c): PORT_WRITE and SET_ALL, their words and their three ways to end. The byte
goes out as it is, and the block's own state stays. -/
def Obligations.PortWriteAndSetAllComplete : Prop :=
  (∀ (p : PrimPort) (w : CmdWord) (v : Byte),
    (decodePort p w = .ok (.portWrite v) ↔
      p = .exposed ∧ opcField w = 0x9 ∧ idxField w = 0 ∧ dataField w = v) ∧
    (decodePort p w = .ok (.setAll v) ↔
      p = .exposed ∧ opcField w = 0xC ∧ idxField w = 0 ∧ dataField w = v)) ∧
  (∀ (p : PrimPort) (w : CmdWord), opcField w = 0x9 ∨ opcField w = 0xC → p = .sealed ∨ idxField w ≠ 0 →
    ∃ e, decodePort p w = .error e) ∧
  (∀ (s : State) (v : Byte) (i : Instr), i = .portWrite v ∨ i = .setAll v →
    s.block.seq = .ready → (s.drawAt 0).fail = none →
    ∃ t, exec i s = .next t ∧ t.block = s.block ∧
      t.trace = s.trace ++ [.bus (.write s.block.addr v none), .response (rspWord 0 (.ok 0))] ∧
      t.device s.block.addr = v ∧ sameDevicesBut s.block.addr s t ∧ sameInputs s t ∧ tookDraws 1 s t) ∧
  (∀ (s : State) (v : Byte) (i : Instr) (e : Cause), i = .portWrite v ∨ i = .setAll v →
    s.block.seq = .ready → (s.drawAt 0).fail = some e →
    ∃ t, exec i s = .next t ∧ t.block = s.block ∧
      t.trace = s.trace ++ [.bus (.write s.block.addr v (some e)), .response (rspWord 0 (.err (.busError e)))] ∧
      t.device s.block.addr = (if (s.drawAt 0).landed then v else s.seenDevReg) ∧
      sameDevicesBut s.block.addr s t ∧ sameInputs s t ∧ tookDraws 1 s t) ∧
  (∀ (s : State) (v : Byte) (i : Instr), i = .portWrite v ∨ i = .setAll v → s.block.seq ≠ .ready →
    exec i s = .next (s.emit (.response (rspWord 0 (.err .notReady)))))

/-- R131: GET_BIT, its words and its four ways to end. -/
def Obligations.GetBitCompletes : Prop :=
  (∀ (p : PrimPort) (w : CmdWord) (i : Idx),
    decodePort p w = .ok (.getBit i) ↔ p = .exposed ∧ opcField w = 0xA ∧ idxField w = i ∧ dataField w = 0) ∧
  (∀ (p : PrimPort) (w : CmdWord), opcField w = 0xA → p = .sealed ∨ dataField w ≠ 0 →
    ∃ e, decodePort p w = .error e) ∧
  (∀ (s : State) (i : Idx), s.block.seq = .ready → i.toNat ≤ 7 → (s.drawAt 0).fail = none →
    ∃ t, exec (.getBit i) s = .next t ∧
      t.block = { s.block with lastRd := s.seenDevReg, lastRdValid := true } ∧
      t.trace = s.trace ++ [.bus (.read s.block.addr (.ok s.seenDevReg)),
        .response (rspWord i (.ok (if s.seenDevReg.getLsbD i.toNat then 1 else 0)))] ∧
      t.device s.block.addr = s.seenDevReg ∧ sameDevicesBut s.block.addr s t ∧
      sameInputs s t ∧ tookDraws 1 s t) ∧
  (∀ (s : State) (i : Idx) (e : Cause), s.block.seq = .ready → i.toNat ≤ 7 → (s.drawAt 0).fail = some e →
    ∃ t, exec (.getBit i) s = .next t ∧ t.block = s.block ∧
      t.trace = s.trace ++ [.bus (.read s.block.addr (.error e)),
        .response (rspWord i (.err (.busError e)))] ∧
      t.device s.block.addr = s.seenDevReg ∧ sameDevicesBut s.block.addr s t ∧
      sameInputs s t ∧ tookDraws 1 s t) ∧
  (∀ (s : State) (i : Idx), s.block.seq = .ready → 7 < i.toNat →
    exec (.getBit i) s = .next (s.emit (.response (rspWord i (.err .invalidChannel))))) ∧
  (∀ (s : State) (i : Idx), s.block.seq ≠ .ready →
    exec (.getBit i) s = .next (s.emit (.response (rspWord i (.err .notReady)))))

/-- R132, R134: SET_BIT with both transactions answered Ok, whatever the environment does between them. -/
def Obligations.SetBitCompletes : Prop :=
  ∀ (s : State) (i : Chan) (b : Bool),
    s.block.seq = .ready → (s.drawAt 0).fail = none → (s.drawAt 1).fail = none →
    ∃ (t : State) (v w : Byte), exec (.setBit (BitVec.ofNat 4 i.val) b) s = .next t ∧
      v = s.seenDevReg ∧ (∀ j, extractBit w j = if j = i then b else extractBit v j) ∧
      t.block = { s.block with lastRd := v, lastRdValid := true } ∧
      t.trace = s.trace ++ [.bus (.read s.block.addr (.ok v)), .bus (.write s.block.addr w none),
        .response (rspWord (BitVec.ofNat 4 i.val) (.ok 0))] ∧
      t.device s.block.addr = w ∧ sameDevicesBut s.block.addr s t ∧ sameInputs s t ∧ tookDraws 2 s t

/-- R132, R134: SET_BIT's words, and where it ends in an error: a failed read ends it before the write; a
failed write leaves the byte read in `LASTRD`, and the device old or new. -/
def Obligations.SetBitErrors : Prop :=
  (∀ (p : PrimPort) (w : CmdWord) (i : Idx) (b : Bool),
    decodePort p w = .ok (.setBit i b) ↔
      p = .exposed ∧ opcField w = 0xB ∧ idxField w = i ∧ w.extractLsb' 1 7 = 0 ∧ w.getLsbD 0 = b) ∧
  (∀ (s : State) (i : Chan) (b : Bool) (e : Cause), s.block.seq = .ready → (s.drawAt 0).fail = some e →
    ∃ t, exec (.setBit (BitVec.ofNat 4 i.val) b) s = .next t ∧ t.block = s.block ∧
      t.trace = s.trace ++ [.bus (.read s.block.addr (.error e)),
        .response (rspWord (BitVec.ofNat 4 i.val) (.err (.busError e)))] ∧
      t.device s.block.addr = s.seenDevReg ∧ sameDevicesBut s.block.addr s t ∧
      sameInputs s t ∧ tookDraws 1 s t) ∧
  (∀ (s : State) (i : Chan) (b : Bool) (e : Cause),
    s.block.seq = .ready → (s.drawAt 0).fail = none → (s.drawAt 1).fail = some e →
    ∃ t, exec (.setBit (BitVec.ofNat 4 i.val) b) s = .next t ∧
      t.block = { s.block with lastRd := s.seenDevReg, lastRdValid := true } ∧
      t.trace = s.trace ++ [.bus (.read s.block.addr (.ok s.seenDevReg)),
        .bus (.write s.block.addr (insertBit s.seenDevReg i b) (some e)),
        .response (rspWord (BitVec.ofNat 4 i.val) (.err (.busError e)))] ∧
      t.device s.block.addr =
        (if (s.drawAt 1).landed then insertBit s.seenDevReg i b
          else if s.params.extAgents then (s.drawAt 1).foreign.getD s.seenDevReg else s.seenDevReg) ∧
      sameDevicesBut s.block.addr s t ∧ sameInputs s t ∧ tookDraws 2 s t) ∧
  (∀ (s : State) (i : Idx) (b : Bool), s.block.seq = .ready → 7 < i.toNat →
    exec (.setBit i b) s = .next (s.emit (.response (rspWord i (.err .invalidChannel))))) ∧
  (∀ (s : State) (i : Idx) (b : Bool), s.block.seq ≠ .ready →
    exec (.setBit i b) s = .next (s.emit (.response (rspWord i (.err .notReady)))))

/-- R156, R157, R158: SWITCH answered Ok writes the target byte once, and changes the commanded cell only. -/
def Obligations.SwitchCompletes : Prop :=
  ∀ (s : State) (c : Chan) (l : Bool), s.block.seq = .ready → (s.drawAt 0).fail = none →
    ∃ (t : State) (T : Byte), exec (.switch (BitVec.ofNat 4 c.val) l) s = .next t ∧
      (∀ j, extractBit T j =
        if j = c then !(l ^^ extractBit s.block.onState c)
        else if extractBit s.block.cv j then !(extractBit s.block.cl j ^^ extractBit s.block.onState j)
        else if s.block.lastRdValid then extractBit s.block.lastRd j else false) ∧
      t.block = { s.block with cv := t.block.cv, cl := t.block.cl } ∧
      (∀ j, extractBit t.block.cv j = if j = c then true else extractBit s.block.cv j) ∧
      (∀ j, extractBit t.block.cl j = if j = c then l else extractBit s.block.cl j) ∧
      t.trace = s.trace ++ [.bus (.write s.block.addr T none),
        .response (rspWord (BitVec.ofNat 4 c.val) (.ok 0))] ∧
      t.device s.block.addr = T ∧ sameDevicesBut s.block.addr s t ∧ sameInputs s t ∧ tookDraws 1 s t

/-- R157, R158, R148: SWITCH's words, and where it ends in an error; a failed switch leaves the whole block,
the cache for every channel among it, as it was. -/
def Obligations.SwitchErrors : Prop :=
  (∀ (p : PrimPort) (w : CmdWord) (i : Idx) (l : Bool),
    decodePort p w = .ok (.switch i l) ↔
      opcField w = 0x3 ∧ idxField w = i ∧ w.extractLsb' 1 7 = 0 ∧ w.getLsbD 0 = l) ∧
  (∀ (s : State) (c : Chan) (l : Bool) (e : Cause), s.block.seq = .ready → (s.drawAt 0).fail = some e →
    ∃ t, exec (.switch (BitVec.ofNat 4 c.val) l) s = .next t ∧ t.block = s.block ∧
      t.trace = s.trace ++ [.bus (.write s.block.addr (insertBit (shadowByte s.block) c (phys s.block c l)) (some e)),
        .response (rspWord (BitVec.ofNat 4 c.val) (.err (.busError e)))] ∧
      t.device s.block.addr =
        (if (s.drawAt 0).landed then insertBit (shadowByte s.block) c (phys s.block c l) else s.seenDevReg) ∧
      sameDevicesBut s.block.addr s t ∧ sameInputs s t ∧ tookDraws 1 s t) ∧
  (∀ (s : State) (i : Idx) (l : Bool), s.block.seq = .ready → 7 < i.toNat →
    exec (.switch i l) s = .next (s.emit (.response (rspWord i (.err .invalidChannel))))) ∧
  (∀ (s : State) (i : Idx) (l : Bool), s.block.seq ≠ .ready →
    exec (.switch i l) s = .next (s.emit (.response (rspWord i (.err .notReady)))))

/-- R158 (a), R59: a switch repeated when both writes are answered Ok issues the same write again and leaves
the block as the first left it. -/
def Obligations.SwitchIsIdempotent : Prop :=
  ∀ (s t u : State) (c : Chan) (l : Bool),
    s.block.seq = .ready → (s.drawAt 0).fail = none → (s.drawAt 1).fail = none →
    exec (.switch (BitVec.ofNat 4 c.val) l) s = .next t → exec (.switch (BitVec.ofNat 4 c.val) l) t = .next u →
    u.block = t.block ∧
    ∃ new, t.trace = s.trace ++ new ∧ u.trace = t.trace ++ new ∧ (busTxs new).length = 1

/-- R181, R183, R184, R185, R90: ATTACH accepted with a well-formed record and a legal address always ends in
`Ready` with Ok. The latches hold the record's fields; a channel is known afterwards exactly when it has a
startup state and its switch did not fail, at that state's level. The reports are the probe's, if it failed, and
then those of the channels marked in `FAIL`, once each, in channel order; each stands right after the failed
transaction it is about and carries the cause that was answered. (`DEV_ID` cut to its width: log 11.) -/
def Obligations.AttachCompletes : Prop :=
  ∀ s : State, s.block.seq = .uninitialized → s.block.cv = 0 → cfgWellFormed s.cfgIn.cfgWord = true →
    cfgAddr s.cfgIn.cfgWord ∈ s.params.validAddrs →
    ∃ (t : State) (new : List Obs) (fail : Byte) (pf : Bool),
      exec .attach s = .next t ∧ t.block.seq = .ready ∧
      t.trace = s.trace ++ new ++ [.response (rspWord 0 (.ok (attachRsp fail pf)))] ∧
      (t.block.addr = s.cfgIn.cfgWord.extractLsb' 0 7 ∧
        t.block.devId = s.cfgIn.devId % 2 ^ s.params.devIdW ∧ t.block.name = s.cfgIn.name ∧
        ∀ c : Chan, extractBit t.block.onState c = s.cfgIn.cfgWord.getLsbD (8 + 6 * c.val) ∧
          (t.block.startup[c]).code = s.cfgIn.cfgWord.extractLsb' (8 + 6 * c.val + 1) 2 ∧
          (t.block.shutdown[c]).code = s.cfgIn.cfgWord.extractLsb' (8 + 6 * c.val + 3) 2 ∧
          extractBit t.block.trig c = s.cfgIn.cfgWord.getLsbD (8 + 6 * c.val + 5)) ∧
      (∀ c, extractBit t.block.cv c = (cfgStartup s.cfgIn.cfgWord c != 2 && !extractBit fail c)) ∧
      (∀ c, extractBit t.block.cv c = true →
        extractBit t.block.cl c = (cfgStartup s.cfgIn.cfgWord c == 1)) ∧
      (∀ c, extractBit fail c = true → cfgStartup s.cfgIn.cfgWord c ≠ 2) ∧
      (reports new).map (fun r => (r.1, r.2.1)) = (if pf then [(.probe, 0)] else []) ++
        (channels.filter fun c => extractBit fail c).map (fun c => (.startup, c)) ∧
      (∀ (pre post : List Obs) (ph : Phase) (c : Chan) (k : ErrKind), new = pre ++ .report ph c k :: post →
        ∃ e, k = .busError e ∧
          ((ph = .probe ∧ pre = [.bus (.read t.block.addr (.error e))]) ∨
            (ph = .startup ∧ ∃ pre' v, pre = pre' ++ [.bus (.write t.block.addr v (some e))]))) ∧
      (pf = true ↔ (s.drawAt 0).fail ≠ none) ∧
      sameDevicesBut t.block.addr s t ∧ sameInputs s t ∧
      tookDraws (1 + cfgConfigured s.cfgIn.cfgWord) s t

/-- R181, R182, R87, R90 and U2: where ATTACH does not attach. Outside `Uninitialized` it answers `NotReady`
and nothing changes; with an illegal address it answers `InvalidChannel`, no transaction, `SEQ`, the cache and
the last-read latch unchanged; an ill-formed record is refused (log 9: the spec calls its effect undefined). -/
def Obligations.AttachTurnedAway : Prop :=
  (∀ (p : PrimPort) (w : CmdWord), decodePort p w = .ok .attach ↔ w = 0x1000) ∧
  (∀ s : State, s.block.seq ≠ .uninitialized →
    exec .attach s = .next (s.emit (.response (rspWord 0 (.err .notReady))))) ∧
  (∀ s : State, s.block.seq = .uninitialized → cfgWellFormed s.cfgIn.cfgWord = true →
    cfgAddr s.cfgIn.cfgWord ∉ s.params.validAddrs →
    ∃ t, exec .attach s = .next t ∧ t.trace = s.trace ++ [.response (rspWord 0 (.err .invalidChannel))] ∧
      t.block.seq = .uninitialized ∧ t.block.cv = s.block.cv ∧ t.block.cl = s.block.cl ∧
      t.block.lastRd = s.block.lastRd ∧ t.block.lastRdValid = s.block.lastRdValid ∧
      t.bus = s.bus ∧ sameInputs s t ∧ tookDraws 0 s t) ∧
  (∀ s : State, s.block.seq = .uninitialized → cfgWellFormed s.cfgIn.cfgWord = false →
    exec .attach s = .refused .illFormedConfig)

/-- R187: the source's startup example, event by event. The trigger carries the record's `DEV_ID` cut to
`DEVID_W` bits, which is the model's choice (log 11). -/
def Obligations.StartupExample : Prop :=
  ∀ (s : State) (a : BusAddr) (P : Byte) (d : Nat) (w : BitVec 64),
    w = s.cfgIn.cfgWord → a = cfgAddr w → P = s.device a → d = s.cfgIn.devId % 2 ^ s.params.devIdW →
    s.block.seq = .uninitialized → s.block.cv = 0 → cfgWellFormed w = true → a ∈ s.params.validAddrs →
    s.params.extAgents = false → s.answersOk 3 →
    cfgStartup w 0 = 1 → cfgTrig w 0 = true → cfgStartup w 1 = 0 → cfgTrig w 1 = false →
    (∀ c : Chan, 2 ≤ c.val → cfgStartup w c = 2) →
    ∃ (t : State) (W0 W1 : Byte), exec .attach s = .next t ∧
      W0 = insertBit P 0 (cfgOnState w 0) ∧ W1 = insertBit W0 1 (!cfgOnState w 1) ∧
      t.trace = s.trace ++ [.bus (.read a (.ok P)), .bus (.write a W0 none), .trig d 0,
        .bus (.write a W1 none), .response (rspWord 0 (.ok 0))] ∧
      t.device a = W1 ∧ (∀ j : Chan, 2 ≤ j.val → extractBit (t.device a) j = extractBit P j)

/-- R183, R184, R187, R247: with every transaction answered Ok and no other agent, the startup sweep leaves
each configured channel's pin at its startup level through its polarity, and every other pin as it was
before the attach. -/
def Obligations.StartupPreservesUnsetPins : Prop :=
  ∀ s : State, s.block.seq = .uninitialized → s.block.cv = 0 → cfgWellFormed s.cfgIn.cfgWord = true →
    cfgAddr s.cfgIn.cfgWord ∈ s.params.validAddrs → s.params.extAgents = false → s.answersOk 9 →
    ∃ t, exec .attach s = .next t ∧ ∀ c : Chan,
      extractBit (t.device (cfgAddr s.cfgIn.cfgWord)) c =
        if cfgStartup s.cfgIn.cfgWord c = 2 then extractBit (s.device (cfgAddr s.cfgIn.cfgWord)) c
        else !((cfgStartup s.cfgIn.cfgWord c == 1) ^^ cfgOnState s.cfgIn.cfgWord c)

/-- R32, R184, R186: a trigger event is emitted only by an accepted ATTACH; there, once, in channel order, for
exactly the channels that have a startup state, are flagged, and whose switch did not fail; each comes right
after its channel's write was answered Ok. -/
def Obligations.TriggersOnlyAtStartup : Prop :=
  (∀ (i : Instr) (s t : State), i ≠ .attach → exec i s = .next t →
    ∃ new, t.trace = s.trace ++ new ∧ triggers new = []) ∧
  (∀ s t : State, exec .attach s = .next t → t.block.seq = .ready → s.block.seq = .uninitialized →
    ∃ (new : List Obs) (fail : Byte) (pf : Bool),
      t.trace = s.trace ++ new ++ [.response (rspWord 0 (.ok (attachRsp fail pf)))] ∧
      triggers new = (channels.filter fun c =>
        t.block.startup[c] != .unset && extractBit t.block.trig c && !extractBit fail c).map
          fun c => (t.block.devId, c)) ∧
  (∀ (s t : State) (pre post : List Obs) (d : Nat) (c : Chan), exec .attach s = .next t →
    t.trace = s.trace ++ (pre ++ .trig d c :: post) →
    ∃ pre' v, pre = pre' ++ [.bus (.write t.block.addr v none)])

/-- R188, R189, R185, R190: STOP in `Ready` always ends in `Stopped` with Ok, the cache and the last-read latch
invalidated, the latches kept; only writes, no trigger. The reports are those of the channels marked in `FAIL`,
once each, in channel order; each stands right after the failed write it is about and carries the cause that
was answered. -/
def Obligations.StopCompletes : Prop :=
  (∀ (p : PrimPort) (w : CmdWord), decodePort p w = .ok .stop ↔ w = 0x2000) ∧
  (∀ s : State, s.block.seq ≠ .ready →
    exec .stop s = .next (s.emit (.response (rspWord 0 (.err .notReady))))) ∧
  (∀ s : State, s.block.seq = .ready →
    ∃ (t : State) (new : List Obs) (fail : Byte), exec .stop s = .next t ∧
      t.trace = s.trace ++ new ++ [.response (rspWord 0 (.ok (fail.setWidth 16)))] ∧
      t.block.seq = .stopped ∧ t.block.cv = 0 ∧ t.block.lastRdValid = false ∧ sameLatches s.block t.block ∧
      triggers new = [] ∧ (∀ x ∈ busTxs new, x.isRead = false) ∧
      (busTxs new).length = configured s.block.shutdown ∧
      (∀ c, extractBit fail c = true → s.block.shutdown[c] ≠ .unset) ∧
      (reports new).map (fun r => (r.1, r.2.1)) =
        (channels.filter fun c => extractBit fail c).map (fun c => (.shutdown, c)) ∧
      (∀ (pre post : List Obs) (ph : Phase) (c : Chan) (k : ErrKind), new = pre ++ .report ph c k :: post →
        ph = .shutdown ∧ ∃ e, k = .busError e ∧
          ∃ pre' v, pre = pre' ++ [.bus (.write s.block.addr v (some e))]) ∧
      sameDevicesBut s.block.addr s t ∧ sameInputs s t ∧ tookDraws (configured s.block.shutdown) s t)

/-- R189, R243: with every transaction answered Ok, no other agent, and at least one shutdown state, STOP
leaves each configured channel's pin at its shutdown level through its polarity, and every other pin at its
bit of the shadow byte. -/
def Obligations.ShutdownFinalByte : Prop :=
  ∀ s : State, s.block.seq = .ready → s.params.extAgents = false → s.answersOk 8 →
    0 < configured s.block.shutdown →
    ∃ t, exec .stop s = .next t ∧ ∀ c : Chan,
      extractBit (t.device s.block.addr) c =
        match (s.block.shutdown[c]).level with
        | some l => !(l ^^ extractBit s.block.onState c)
        | none => extractBit (shadowByte s.block) c

/-- R181, R183, R184, R188, R189: the sweeps are switches in ascending channel order. STOP does to the bus, the
oracle and the block what the SWITCH commands of the configured shutdown channels do one after another, whatever
each answers, and then stops; an accepted ATTACH does what a PORT_READ and then the SWITCH commands of the
configured startup channels do on the block with its latches already written and `Ready`. -/
def Obligations.SweepsAreSwitchesInOrder : Prop :=
  (∀ s t : State, s.block.seq = .ready → exec .stop s = .next t →
    ∃ u, runCommands (sweepCommands s.block.shutdown) s = .next u ∧
      t.block = { u.block with seq := .stopped, cv := 0, lastRdValid := false } ∧ sameBus s t u) ∧
  (∀ s t : State, s.block.seq = .uninitialized → exec .attach s = .next t → t.block.seq = .ready →
    ∃ u, runCommands (.portRead :: sweepCommands t.block.startup)
        (s.setBlock { t.block with cv := s.block.cv, cl := s.block.cl, lastRd := s.block.lastRd,
                                   lastRdValid := s.block.lastRdValid }) = .next u ∧
      t.block = u.block ∧ sameBus s t u)

/-- R183, R184, R185, R186, R188, R189: what the sweeps put out, channel by channel, whatever the transport
answers. For each configured channel in ascending order: its one write, and right after it the trigger, if that
was answered Ok and the channel is flagged, or the report with the cause answered. ATTACH begins with the
probe's one read, and its report. The `k`-th transaction has the transport's `k`-th answer, and `FAIL` marks
exactly the channels whose answer was Err. -/
def Obligations.SweepEventsChannelByChannel : Prop :=
  (∀ s : State, s.block.seq = .ready →
    ∃ (t : State) (fail : Byte) (val : Chan → Byte), exec .stop s = .next t ∧
      t.trace = s.trace ++
        ((sweepChannels s.block.shutdown).flatMap fun c =>
          switchEvents .shutdown s.block.addr s.block.devId false (val c) c
            (s.drawAt ((sweepChannels s.block.shutdown).idxOf c)).fail) ++
        [.response (rspWord 0 (.ok (fail.setWidth 16)))] ∧
      ∀ c, extractBit fail c = true ↔ c ∈ sweepChannels s.block.shutdown ∧
        (s.drawAt ((sweepChannels s.block.shutdown).idxOf c)).fail ≠ none) ∧
  (∀ s : State, s.block.seq = .uninitialized → cfgWellFormed s.cfgIn.cfgWord = true →
    cfgAddr s.cfgIn.cfgWord ∈ s.params.validAddrs →
    ∃ (t : State) (fail : Byte) (pf : Bool) (val : Chan → Byte), exec .attach s = .next t ∧
      t.trace = s.trace ++
        (match (s.drawAt 0).fail with
          | none => [.bus (.read t.block.addr (.ok (s.setBlock t.block).seenDevReg))]
          | some e => [.bus (.read t.block.addr (.error e)), .report .probe 0 (.busError e)]) ++
        ((sweepChannels t.block.startup).flatMap fun c =>
          switchEvents .startup t.block.addr t.block.devId (extractBit t.block.trig c) (val c) c
            (s.drawAt (1 + (sweepChannels t.block.startup).idxOf c)).fail) ++
        [.response (rspWord 0 (.ok (attachRsp fail pf)))] ∧
      (pf = true ↔ (s.drawAt 0).fail ≠ none) ∧
      ∀ c, extractBit fail c = true ↔ c ∈ sweepChannels t.block.startup ∧
        (s.drawAt (1 + (sweepChannels t.block.startup).idxOf c)).fail ≠ none)

/-! ### Checks and errors -/

/-- R203: the state check of every command, and the two commands that have none. -/
def Obligations.StateCheck : Prop :=
  (∀ s : State, s.block.seq ≠ .uninitialized →
    exec .attach s = .next (s.emit (.response (rspWord 0 (.err .notReady))))) ∧
  (∀ (i : Instr) (s : State), i ≠ .attach → i ≠ .isReady → (∀ c, i ≠ .isOn c) → s.block.seq ≠ .ready →
    exec i s = .next (s.emit (.response (rspWord i.idx (.err .notReady))))) ∧
  (∀ (i : Instr) (s : State), i = .isReady ∨ (∃ c, i = .isOn c) →
    ∃ r, exec i s = .next (s.emit (.response (rspWord i.idx r))) ∧ r ≠ .err .notReady)

/-- R204: the index check. -/
def Obligations.IndexCheck : Prop :=
  ∀ (i : Idx) (s : State), 7 < i.toNat →
    exec (.isOn i) s = .next (s.emit (.response (rspWord i (.err .invalidChannel)))) ∧
    (s.block.seq = .ready → ∀ j : Instr,
      j = .read i ∨ j = .getBit i ∨ (∃ l, j = .switch i l) ∨ (∃ b, j = .setBit i b) →
      exec j s = .next (s.emit (.response (rspWord i (.err .invalidChannel)))))

/-- R100, R207: at the command port the first check that fails decides, in the order illegal word, state,
index; no later check or effect happens; a word that passes the decoder is executed. -/
def Obligations.FirstFailingCheckDecides : Prop :=
  ∀ (s : State) (w : CmdWord) (rest : List HostEvent), s.input = .command w :: rest →
    (∀ e, decodePort s.params.primPort w = .error e →
      step s = .next ((s.setInput rest).emit (.response (rspWord (idxField w) (.err .illegalCommand))))) ∧
    (∀ i, decodePort s.params.primPort w = .ok i → stateOk i s = false →
      step s = .next ((s.setInput rest).emit (.response (rspWord (idxField w) (.err .notReady))))) ∧
    (∀ i, decodePort s.params.primPort w = .ok i → stateOk i s = true → 7 < i.idx.toNat →
      step s = .next ((s.setInput rest).emit (.response (rspWord (idxField w) (.err .invalidChannel))))) ∧
    (∀ i, decodePort s.params.primPort w = .ok i → step s = exec i (s.setInput rest))

/-- R205, R206: errors are precise. A command that ends in `InvalidChannel` or `NotReady` leaves the devices,
the oracle and (but for an ATTACH's latches, log 10) the block as they were; one that ends in `BusError`
leaves `SEQ`, the cache and the latches. -/
def Obligations.ErrorsArePrecise : Prop :=
  ∀ (i : Instr) (s t : State) (new : List Obs) (ch : Idx) (k : ErrKind),
    exec i s = .next t → t.trace = s.trace ++ new ++ [.response (rspWord ch (.err k))] →
    t.block.seq = s.block.seq ∧ t.block.cv = s.block.cv ∧ t.block.cl = s.block.cl ∧
    (i ≠ .attach → sameLatches s.block t.block) ∧
    ((∀ c, k ≠ .busError c) →
      new = [] ∧ t.bus = s.bus ∧ sameInputs s t ∧ tookDraws 0 s t ∧ (i ≠ .attach → t.block = s.block))

/-! ### The whole machine -/

/-- R57, R100: a step that finds a legal command word next executes that command on the state with the word
taken; so does a word put first with `withFetchWord`. -/
def Obligations.StepServesTheCommand : Prop :=
  (∀ (s : State) (w : CmdWord) (rest : List HostEvent) (i : Instr), s.input = .command w :: rest →
    decodePort s.params.primPort w = .ok i → step s = exec i (s.setInput rest)) ∧
  (∀ (s : State) (i : Instr), i.wellFormed s.params.primPort = true →
    step (s.withFetchWord 16 (encode i).toNat) = exec i s)

/-- R208, R240, R241, R27, R66: the steps that serve no command. With nothing presented the block waits;
`rst` puts the block into the state of R40 and touches no device, no trace, no oracle; a new `cfg_in` changes
nothing else; another agent's write changes one device, and only when `EXT_AGENTS` is true. -/
def Obligations.StepsWithoutCommand : Prop :=
  (∀ s : State, s.input = [] → step s = .next s) ∧
  (∀ (s : State) (rest : List HostEvent), s.input = .rst :: rest →
    ∃ t, step s = .next t ∧ t.block.seq = .uninitialized ∧ t.block.cv = 0 ∧ t.block.lastRdValid = false ∧
      t.bus = s.bus ∧ t.trace = s.trace ∧ t.cfgIn = s.cfgIn ∧ t.params = s.params ∧ t.input = rest ∧
      tookDraws 0 s t) ∧
  (∀ (s : State) (rest : List HostEvent) (c : CfgIn), s.input = .config c :: rest →
    step s = .next { s with input := rest, cfgIn := c }) ∧
  (∀ (s : State) (rest : List HostEvent) (a : BusAddr) (v : Byte), s.input = .foreign a v :: rest →
    ∃ t, step s = .next t ∧ t.block = s.block ∧ t.trace = s.trace ∧ t.cfgIn = s.cfgIn ∧
      t.params = s.params ∧ t.input = rest ∧ tookDraws 0 s t ∧ sameDevicesBut a s t ∧
      t.device a = if s.params.extAgents then v else s.device a)

/-- R20, R40, R240: the block after reset, where the spec gives it. R40 gives `DEVREG = DEVREG_INIT` for the one
attached device only. That every other device register holds the same byte is the model's choice (log 4; that
there are 128 of them, log 5), and so is that nothing has been presented yet (log 13). -/
def Obligations.ResetState : Prop :=
  State.reset.block.seq = .uninitialized ∧ State.reset.block.cv = 0 ∧
  State.reset.block.lastRdValid = false ∧ State.reset.trace = [] ∧ State.reset.input = [] ∧
  ∀ a : BusAddr, State.reset.device a = State.reset.params.devRegInit

/-- R59: how many transactions each command issues, with as many draws; none for what is no command. -/
def Obligations.TransactionCounts : Prop :=
  (∀ (i : Instr) (s t : State), exec i s = .next t →
    ∃ new, t.trace = s.trace ++ new ∧ (busTxs new).length = txCount i s ∧ tookDraws (txCount i s) s t) ∧
  (∀ s t : State, s.nextCommand? = none → step s = .next t →
    ∃ new, t.trace = s.trace ++ new ∧ busTxs new = [] ∧ tookDraws 0 s t)

/-- R50, R37, R41: every transaction of a command goes to the latched `ADDR`; no other device register
changes, and no command changes the parameters, `cfg_in` or what the host presents next. -/
def Obligations.OnlyTheAttachedDevice : Prop :=
  ∀ (i : Instr) (s t : State), exec i s = .next t →
    sameDevicesBut t.block.addr s t ∧ sameInputs s t ∧
    ∃ new, t.trace = s.trace ++ new ∧ ∀ x ∈ busTxs new, x.addr = t.block.addr

/-- R62, R146, R41: only SWITCH, ATTACH and STOP change the shadow cache. -/
def Obligations.CacheWrittenOnlyBySwitches : Prop :=
  ∀ (i : Instr) (s t : State), exec i s = .next t →
    (∀ c l, i ≠ .switch c l) → i ≠ .attach → i ≠ .stop →
    t.block.cv = s.block.cv ∧ t.block.cl = s.block.cl

/-- R25: `LASTRD` holds the byte of the most recent read answered Ok, whichever command issued it; failed
reads and writes change nothing. STOP, which invalidates it, is the other case (R190). -/
def Obligations.LastReadLatch : Prop :=
  ∀ (i : Instr) (s t : State), exec i s = .next t → i ≠ .stop →
    ∃ new, t.trace = s.trace ++ new ∧
      match lastOkRead new with
      | some v => t.block.lastRd = v ∧ t.block.lastRdValid = true
      | none => t.block.lastRd = s.block.lastRd ∧ t.block.lastRdValid = s.block.lastRdValid

/-- R27, R28, R63, R250: once the block is past `Uninitialized` no step but a reset changes a latch. -/
def Obligations.ConfigurationIsLatchedOnce : Prop :=
  ∀ s t : State, step s = .next t → s.block.seq ≠ .uninitialized → s.nextIsReset = false →
    sameLatches s.block t.block

/-- R21, R180: the next sequencer state of every step. -/
def Obligations.SequencerEdges : Prop :=
  ∀ s t : State, step s = .next t →
    t.block.seq =
      if s.nextIsReset then .uninitialized
      else match s.nextCommand?, s.block.seq with
        | some .attach, .uninitialized =>
          if cfgAddr s.cfgIn.cfgWord ∈ s.params.validAddrs then .ready else .uninitialized
        | some .stop, .ready => .stopped
        | _, q => q

/-- R253, R190: however long a run, a stopped block that is not reset stays stopped. -/
def Obligations.StoppedIsForGood : Prop :=
  ∀ (n : Nat) (s t : State), s.block.seq = .stopped → (∀ e ∈ s.input, e ≠ .rst) → runSteps n s = .next t →
    t.block.seq = .stopped

/-- R24, R28, R34 and the canonical form of the device registers: every step keeps the invariant. -/
def Obligations.StepKeepsTheMachineInvariant : Prop :=
  ∀ s t : State, s.Inv → step s = .next t → t.Inv

/-- The invariant holds after reset. For `DEV_ID`, which R40 leaves unspecified after reset, this rests on the
value 0 the model chose (log 7, and log 11 for its form as a number). -/
def Obligations.ResetMeetsTheMachineInvariant : Prop := State.reset.Inv

/-- R23: every step that is not a primitive write keeps the confirmed-state invariant: each valid cell's
level, through the polarity map, is the bit of the byte last written with an Ok answer. -/
def Obligations.StepKeepsConfirmedState : Prop :=
  ∀ s t : State, s.Inv → s.Confirmed → (∀ i, s.nextCommand? = some i → i.primitiveWrite = false) →
    step s = .next t → t.Confirmed

/-- R23, R22: the confirmed-state invariant holds after reset. -/
def Obligations.ResetIsConfirmed : Prop := State.reset.Confirmed

/-- R252: the premise of `StepKeepsConfirmedState` is needed: a primitive write can break the invariant. -/
def Obligations.PrimitiveWriteCanBreakConfirmedState : Prop :=
  ∃ (s t : State) (v : Byte), s.Inv ∧ s.Confirmed ∧ exec (.portWrite v) s = .next t ∧ ¬ t.Confirmed

/-- R40, R22, R33: what the spec leaves unspecified is never seen. Two states that differ only there (levels
of cells not valid, `LASTRD` while never read, the latches outside `Ready`, the names) step to outcomes that
no observer can tell apart. So the reset values this model chose (log 7) decide nothing. -/
def Obligations.UnspecifiedValuesAreNeverSeen : Prop :=
  ∀ s t : State, s.visible = t.visible → sameToObserver (step s) (step t)

/-- R158 (e), R246, R62: what SWITCH and READ put out does not depend on what the devices hold: no read is
made, and another agent's change is neither noticed nor kept. -/
def Obligations.SwitchNeverLooksAtTheDevice : Prop :=
  ∀ (s t u : State) (m : Memory) (i : Instr),
    (∃ c l, i = .switch c l) ∨ (∃ c, i = .read c) ∨ i = .readAll →
    exec i s = .next t → exec i (s.setBus m) = .next u → u.trace = t.trace ∧ u.block = t.block

/-- R61, R132, R245: the read-modify-write race. With another agent putting `x` between the read and the
write of a SET_BIT, everything the block puts out and the device register at the end are as without it: the
change is silently lost. -/
def Obligations.SetBitRaceIsSilent : Prop :=
  ∀ (s : State) (c : Chan) (b : Bool) (x : Byte) (d : BusDraw),
    s.params.extAgents = true → s.block.seq = .ready → d.fail = none →
    ∃ t u : State,
      exec (.setBit (BitVec.ofNat 4 c.val) b)
        { s with oracle := [d, { foreign := none, fail := none, landed := false }] } = .next t ∧
      exec (.setBit (BitVec.ofNat 4 c.val) b)
        { s with oracle := [d, { foreign := some x, fail := none, landed := false }] } = .next u ∧
      u.trace = t.trace ∧ u.block = t.block ∧ u.devReg = t.devReg

/-! ### Assembler text -/

/-- R97: the pseudo-instructions are exact synonyms of their expansions, whatever the operand. -/
def Obligations.PseudoInstructions : Prop :=
  ∀ c : AsmOperand,
    assemble ⟨.on, [c]⟩ = assemble ⟨.switch, [c, .level true]⟩ ∧
    assemble ⟨.off, [c]⟩ = assemble ⟨.switch, [c, .level false]⟩ ∧
    assemble ⟨.setup, []⟩ = assemble ⟨.attach, []⟩ ∧
    assemble ⟨.detach, []⟩ = assemble ⟨.stop, []⟩

/-- R96, R97: the lines the assembler accepts, each with the command it gives; it rejects every other line. A
channel or an index is at most 15, a byte at most 0xFF, a bit 0 or 1, a level `on`, `off`, 1 or 0; and every
command has a line. `.num false n` is a decimal number, `.num true n` one in hex or binary. That a bit, and a
level given as a number, is written in decimal is the model's choice (log 20). -/
def Obligations.AssemblerAcceptsWellFormedLines : Prop :=
  (∀ (l : AsmLine) (i : Instr), assemble l = some i ↔
    (l = ⟨.isReady, []⟩ ∧ i = .isReady) ∨
    ((l = ⟨.attach, []⟩ ∨ l = ⟨.setup, []⟩) ∧ i = .attach) ∨
    ((l = ⟨.stop, []⟩ ∨ l = ⟨.detach, []⟩) ∧ i = .stop) ∨
    (∃ (c : Nat) (o : AsmOperand) (d : Bool), c ≤ 15 ∧
      (o, d) ∈ [(.level true, true), (.level false, false), (.num false 1, true), (.num false 0, false)] ∧
      l = ⟨.switch, [.num false c, o]⟩ ∧ i = .switch (BitVec.ofNat 4 c) d) ∨
    (∃ c, c ≤ 15 ∧ l = ⟨.on, [.num false c]⟩ ∧ i = .switch (BitVec.ofNat 4 c) true) ∨
    (∃ c, c ≤ 15 ∧ l = ⟨.off, [.num false c]⟩ ∧ i = .switch (BitVec.ofNat 4 c) false) ∨
    (∃ c, c ≤ 15 ∧ l = ⟨.read, [.num false c]⟩ ∧ i = .read (BitVec.ofNat 4 c)) ∨
    (l = ⟨.readAll, []⟩ ∧ i = .readAll) ∨
    (∃ c, c ≤ 15 ∧ l = ⟨.isOn, [.num false c]⟩ ∧ i = .isOn (BitVec.ofNat 4 c)) ∨
    (l = ⟨.portRead, []⟩ ∧ i = .portRead) ∨
    (∃ v, v ≤ 0xFF ∧ l = ⟨.portWrite, [.num true v]⟩ ∧ i = .portWrite (BitVec.ofNat 8 v)) ∨
    (∃ n, n ≤ 15 ∧ l = ⟨.getBit, [.num false n]⟩ ∧ i = .getBit (BitVec.ofNat 4 n)) ∨
    (∃ (n : Nat) (o : AsmOperand) (b : Bool), n ≤ 15 ∧ (o, b) ∈ [(.num false 0, false), (.num false 1, true)] ∧
      l = ⟨.setBit, [.num false n, o]⟩ ∧ i = .setBit (BitVec.ofNat 4 n) b) ∨
    (∃ v, v ≤ 0xFF ∧ l = ⟨.setAll, [.num true v]⟩ ∧ i = .setAll (BitVec.ofNat 8 v))) ∧
  (∀ i : Instr, ∃ l : AsmLine, assemble l = some i)
end

