-- ==== Sys2Proof/Laws/Bits.lean ====
section
/-! SUPPORT. Single bits of a byte: what `extractBit`, `insertBit` and `composeBits` do to each other, and the
index check. -/

namespace Sys2Proof.Machine

/-- Two bytes that agree in every bit are one. -/
theorem byte_ext {r r' : Byte} (h : ∀ j : Chan, extractBit r j = extractBit r' j) : r = r' := by
  apply BitVec.eq_of_getLsbD_eq
  intro i hi
  exact h ⟨i, hi⟩

/-- Bit `j` after bit `i` was replaced. -/
@[simp] theorem extractBit_insertBit (r : Byte) (i j : Chan) (b : Bool) :
    extractBit (insertBit r i b) j = if j = i then b else extractBit r j := by
  have hj := j.isLt
  have hi := i.isLt
  simp only [extractBit, insertBit, BitVec.getLsbD_or, BitVec.getLsbD_and, BitVec.getLsbD_not,
    BitVec.getLsbD_shiftLeft, Fin.ext_iff]
  by_cases h : j.val = i.val
  · cases b <;> simp [h]
  · by_cases hlt : j.val < i.val
    · simp [h, hlt]
    · have h1 : ¬ (j.val - i.val = 0) := by omega
      cases b <;> simp [h, hlt, h1]

/-- Bit `j` of a composed byte. -/
@[simp] theorem extractBit_composeBits (t : Chan → Bool) (j : Chan) : extractBit (composeBits t) j = t j := by
  fin_cases j <;> simp only [extractBit, composeBits, BitVec.getLsbD_append] <;> simp

/-- A byte is composed of its bits. -/
@[simp] theorem composeBits_extractBit (r : Byte) : composeBits (extractBit r) = r :=
  byte_ext fun j => extractBit_composeBits _ j

/-- No bit of the zero byte is set. -/
@[simp] theorem extractBit_zero (j : Chan) : extractBit 0#8 j = false := by simp [extractBit]

/-- Bitwise and, bit by bit. -/
@[simp] theorem extractBit_and (r r' : Byte) (j : Chan) :
    extractBit (r &&& r') j = (extractBit r j && extractBit r' j) := by simp [extractBit]

/-- The failing channels after one more. -/
@[simp] theorem extractBit_markFail (f : Byte) (c j : Chan) :
    extractBit (markFail f c) j = if j = c then true else extractBit f j := by simp [markFail]

/-- An index in range is its channel. -/
theorem chan?_some {i : Idx} (h : i.toNat ≤ 7) : chan? i = some ⟨i.toNat, by omega⟩ := by
  simp [chan?, show i.toNat < 8 by omega]

/-- An index out of range is no channel. -/
theorem chan?_none {i : Idx} (h : 7 < i.toNat) : chan? i = none := by
  simp [chan?, show ¬ i.toNat < 8 by omega]

/-- The index of a channel is that channel. -/
@[simp] theorem chan?_ofNat (c : Chan) : chan? (BitVec.ofNat 4 c.val) = some c := by
  fin_cases c <;> rfl

/-- Every channel is in the list of the sweeps. -/
@[simp] theorem mem_channels (c : Chan) : c ∈ channels := by
  fin_cases c <;> simp [channels]

/-- The sweeps visit no channel twice. -/
theorem channels_nodup : channels.Nodup := by decide

end Sys2Proof.Machine
end

