-- ==== Sys2Proof/Laws/Record.lean ====
section
/-! SUPPORT. Sampling the configuration record: when it succeeds, and what the latches then hold
(30_encoding.md rule R90, 44_lifecycle_sequencer.md rule R181). -/

namespace Sys2Proof.Machine

/-- A tri-state code that has a reading is the code of that reading. -/
theorem triCfg?_some {v : BitVec 2} {x : TriCfg} : triCfg? v = some x ↔ x.code = v := by
  revert v
  cases x <;> decide

/-- Only 3 has no reading (R87). -/
theorem triCfg?_none : ∀ v : BitVec 2, triCfg? v = none ↔ v = 3 := by decide

/-- Eight readings, channel by channel. -/
theorem triCfgs?_some {f : Chan → BitVec 2} (h : ∀ c, f c ≠ 3) :
    ∃ v, triCfgs? f = some v ∧ ∀ c : Chan, (v[c]).code = f c := by
  have g : ∀ c, ∃ x, triCfg? (f c) = some x := fun c => by
    cases e : triCfg? (f c) with
    | none => exact absurd ((triCfg?_none _).1 e) (h c)
    | some x => exact ⟨x, rfl⟩
  choose x hx using g
  refine ⟨#v[x 0, x 1, x 2, x 3, x 4, x 5, x 6, x 7], ?_, ?_⟩
  · simp only [triCfgs?, hx]
  · intro c
    have := triCfg?_some.1 (hx c)
    revert this
    fin_cases c <;> exact id

/-- One code without a reading. -/
theorem triCfgs?_none {f : Chan → BitVec 2} {c : Chan} (h : f c = 3) : triCfgs? f = none := by
  have e : triCfg? (f c) = none := (triCfg?_none _).2 h
  revert e
  fin_cases c <;> intro e <;> simp only [triCfgs?] <;> split <;> simp_all

/-- What a well-formed record is (R87, R90). -/
theorem cfgWellFormed_iff (w : BitVec 64) :
    cfgWellFormed w = true ↔ w.extractLsb' 7 1 = 0 ∧ w.extractLsb' 56 8 = 0 ∧
      ∀ c : Chan, cfgStartup w c ≠ 3 ∧ cfgShutdown w c ≠ 3 := by
  simp [cfgWellFormed, and_assoc]

/-- A well-formed record is latched field by field (R181). -/
theorem latchConfig_wellFormed (k : Nat) (c : CfgIn) (b : Block) (h : cfgWellFormed c.cfgWord = true) :
    ∃ up down, latchConfig k c b =
        some { b with addr := cfgAddr c.cfgWord, devId := c.devId % 2 ^ k, onState := composeBits (cfgOnState c.cfgWord),
                      startup := up, shutdown := down, trig := composeBits (cfgTrig c.cfgWord), name := c.name } ∧
      (∀ j : Chan, (up[j]).code = cfgStartup c.cfgWord j) ∧ (∀ j : Chan, (down[j]).code = cfgShutdown c.cfgWord j) := by
  obtain ⟨h1, h2, h3⟩ := (cfgWellFormed_iff _).1 h
  obtain ⟨up, hu, hu'⟩ := triCfgs?_some fun j => (h3 j).1
  obtain ⟨down, hd, hd'⟩ := triCfgs?_some fun j => (h3 j).2
  refine ⟨up, down, ?_, hu', hd'⟩
  simp [latchConfig, h1, h2, hu, hd, cfgAddr]

/-- An ill-formed record is not latched. -/
theorem latchConfig_illFormed (k : Nat) (c : CfgIn) (b : Block) (h : cfgWellFormed c.cfgWord = false) :
    latchConfig k c b = none := by
  unfold latchConfig
  split
  · rename_i hr
    have : ∃ j : Chan, cfgStartup c.cfgWord j = 3 ∨ cfgShutdown c.cfgWord j = 3 := by
      by_contra hn
      rw [(cfgWellFormed_iff _).2 ⟨hr.1, hr.2, fun j =>
        ⟨fun e => hn ⟨j, .inl e⟩, fun e => hn ⟨j, .inr e⟩⟩⟩] at h
      cases h
    obtain ⟨j, e | e⟩ := this
    · rw [triCfgs?_none e]
    · rw [triCfgs?_none e]
      split <;> simp_all
  · rfl

/-- A tri-state is Unset exactly when its code is 2 (R87). -/
theorem code_ne_two (x : TriCfg) : (x.code != 2) = (x != .unset) := by cases x <;> rfl

/-- The channels configured in the latches are those of the record. -/
theorem configured_of_codes {v : Vector TriCfg 8} {w : BitVec 64} (h : ∀ j : Chan, (v[j]).code = cfgStartup w j) :
    configured v = cfgConfigured w := by
  unfold configured cfgConfigured
  congr 1
  apply List.filter_congr
  intro c _
  rw [← h c, code_ne_two]

end Sys2Proof.Machine
end

