-- ==== Sys2Proof/Laws/State.lean ====
section
/-! SUPPORT. One lemma per field per named update of the state and of the block, so that no later proof
unfolds a record update. -/

namespace Sys2Proof.Machine

@[simp] theorem State.setBlock_params (s : State) (b : Block) : (s.setBlock b).params = s.params := rfl
@[simp] theorem State.setBlock_block (s : State) (b : Block) : (s.setBlock b).block = b := rfl
@[simp] theorem State.setBlock_cfgIn (s : State) (b : Block) : (s.setBlock b).cfgIn = s.cfgIn := rfl
@[simp] theorem State.setBlock_bus (s : State) (b : Block) : (s.setBlock b).bus = s.bus := rfl
@[simp] theorem State.setBlock_oracle (s : State) (b : Block) : (s.setBlock b).oracle = s.oracle := rfl
@[simp] theorem State.setBlock_drawn (s : State) (b : Block) : (s.setBlock b).drawn = s.drawn := rfl
@[simp] theorem State.setBlock_input (s : State) (b : Block) : (s.setBlock b).input = s.input := rfl
@[simp] theorem State.setBlock_trace (s : State) (b : Block) : (s.setBlock b).trace = s.trace := rfl

@[simp] theorem State.setBus_params (s : State) (m : Memory) : (s.setBus m).params = s.params := rfl
@[simp] theorem State.setBus_block (s : State) (m : Memory) : (s.setBus m).block = s.block := rfl
@[simp] theorem State.setBus_cfgIn (s : State) (m : Memory) : (s.setBus m).cfgIn = s.cfgIn := rfl
@[simp] theorem State.setBus_bus (s : State) (m : Memory) : (s.setBus m).bus = m := rfl
@[simp] theorem State.setBus_oracle (s : State) (m : Memory) : (s.setBus m).oracle = s.oracle := rfl
@[simp] theorem State.setBus_drawn (s : State) (m : Memory) : (s.setBus m).drawn = s.drawn := rfl
@[simp] theorem State.setBus_input (s : State) (m : Memory) : (s.setBus m).input = s.input := rfl
@[simp] theorem State.setBus_trace (s : State) (m : Memory) : (s.setBus m).trace = s.trace := rfl

@[simp] theorem State.emit_params (s : State) (o : Obs) : (s.emit o).params = s.params := rfl
@[simp] theorem State.emit_block (s : State) (o : Obs) : (s.emit o).block = s.block := rfl
@[simp] theorem State.emit_cfgIn (s : State) (o : Obs) : (s.emit o).cfgIn = s.cfgIn := rfl
@[simp] theorem State.emit_bus (s : State) (o : Obs) : (s.emit o).bus = s.bus := rfl
@[simp] theorem State.emit_oracle (s : State) (o : Obs) : (s.emit o).oracle = s.oracle := rfl
@[simp] theorem State.emit_drawn (s : State) (o : Obs) : (s.emit o).drawn = s.drawn := rfl
@[simp] theorem State.emit_input (s : State) (o : Obs) : (s.emit o).input = s.input := rfl
@[simp] theorem State.emit_trace (s : State) (o : Obs) : (s.emit o).trace = s.trace ++ [o] := rfl

@[simp] theorem State.takeDraw_params (s : State) : (s.takeDraw).params = s.params := rfl
@[simp] theorem State.takeDraw_block (s : State) : (s.takeDraw).block = s.block := rfl
@[simp] theorem State.takeDraw_cfgIn (s : State) : (s.takeDraw).cfgIn = s.cfgIn := rfl
@[simp] theorem State.takeDraw_bus (s : State) : (s.takeDraw).bus = s.bus := rfl
@[simp] theorem State.takeDraw_oracle (s : State) : (s.takeDraw).oracle = s.oracle.tail := rfl
@[simp] theorem State.takeDraw_drawn (s : State) : (s.takeDraw).drawn = s.drawn + 1 := rfl
@[simp] theorem State.takeDraw_input (s : State) : (s.takeDraw).input = s.input := rfl
@[simp] theorem State.takeDraw_trace (s : State) : (s.takeDraw).trace = s.trace := rfl

@[simp] theorem State.setInput_params (s : State) (l : List HostEvent) : (s.setInput l).params = s.params := rfl
@[simp] theorem State.setInput_block (s : State) (l : List HostEvent) : (s.setInput l).block = s.block := rfl
@[simp] theorem State.setInput_cfgIn (s : State) (l : List HostEvent) : (s.setInput l).cfgIn = s.cfgIn := rfl
@[simp] theorem State.setInput_bus (s : State) (l : List HostEvent) : (s.setInput l).bus = s.bus := rfl
@[simp] theorem State.setInput_oracle (s : State) (l : List HostEvent) : (s.setInput l).oracle = s.oracle := rfl
@[simp] theorem State.setInput_drawn (s : State) (l : List HostEvent) : (s.setInput l).drawn = s.drawn := rfl
@[simp] theorem State.setInput_input (s : State) (l : List HostEvent) : (s.setInput l).input = l := rfl
@[simp] theorem State.setInput_trace (s : State) (l : List HostEvent) : (s.setInput l).trace = s.trace := rfl

@[simp] theorem State.setCfgIn_params (s : State) (c : CfgIn) : (s.setCfgIn c).params = s.params := rfl
@[simp] theorem State.setCfgIn_block (s : State) (c : CfgIn) : (s.setCfgIn c).block = s.block := rfl
@[simp] theorem State.setCfgIn_cfgIn (s : State) (c : CfgIn) : (s.setCfgIn c).cfgIn = c := rfl
@[simp] theorem State.setCfgIn_bus (s : State) (c : CfgIn) : (s.setCfgIn c).bus = s.bus := rfl
@[simp] theorem State.setCfgIn_oracle (s : State) (c : CfgIn) : (s.setCfgIn c).oracle = s.oracle := rfl
@[simp] theorem State.setCfgIn_drawn (s : State) (c : CfgIn) : (s.setCfgIn c).drawn = s.drawn := rfl
@[simp] theorem State.setCfgIn_input (s : State) (c : CfgIn) : (s.setCfgIn c).input = s.input := rfl
@[simp] theorem State.setCfgIn_trace (s : State) (c : CfgIn) : (s.setCfgIn c).trace = s.trace := rfl

@[simp] theorem Block.setSeq_seq (b : Block) (q : Seq) : (b.setSeq q).seq = q := rfl
@[simp] theorem Block.setSeq_cv (b : Block) (q : Seq) : (b.setSeq q).cv = b.cv := rfl
@[simp] theorem Block.setSeq_cl (b : Block) (q : Seq) : (b.setSeq q).cl = b.cl := rfl
@[simp] theorem Block.setSeq_lastRdValid (b : Block) (q : Seq) : (b.setSeq q).lastRdValid = b.lastRdValid := rfl
@[simp] theorem Block.setSeq_lastRd (b : Block) (q : Seq) : (b.setSeq q).lastRd = b.lastRd := rfl
@[simp] theorem Block.setSeq_addr (b : Block) (q : Seq) : (b.setSeq q).addr = b.addr := rfl
@[simp] theorem Block.setSeq_onState (b : Block) (q : Seq) : (b.setSeq q).onState = b.onState := rfl
@[simp] theorem Block.setSeq_startup (b : Block) (q : Seq) : (b.setSeq q).startup = b.startup := rfl
@[simp] theorem Block.setSeq_shutdown (b : Block) (q : Seq) : (b.setSeq q).shutdown = b.shutdown := rfl
@[simp] theorem Block.setSeq_trig (b : Block) (q : Seq) : (b.setSeq q).trig = b.trig := rfl
@[simp] theorem Block.setSeq_name (b : Block) (q : Seq) : (b.setSeq q).name = b.name := rfl
@[simp] theorem Block.setSeq_devId (b : Block) (q : Seq) : (b.setSeq q).devId = b.devId := rfl

@[simp] theorem Block.setLastRd_seq (b : Block) (v : Byte) : (b.setLastRd v).seq = b.seq := rfl
@[simp] theorem Block.setLastRd_cv (b : Block) (v : Byte) : (b.setLastRd v).cv = b.cv := rfl
@[simp] theorem Block.setLastRd_cl (b : Block) (v : Byte) : (b.setLastRd v).cl = b.cl := rfl
@[simp] theorem Block.setLastRd_lastRdValid (b : Block) (v : Byte) : (b.setLastRd v).lastRdValid = true := rfl
@[simp] theorem Block.setLastRd_lastRd (b : Block) (v : Byte) : (b.setLastRd v).lastRd = v := rfl
@[simp] theorem Block.setLastRd_addr (b : Block) (v : Byte) : (b.setLastRd v).addr = b.addr := rfl
@[simp] theorem Block.setLastRd_onState (b : Block) (v : Byte) : (b.setLastRd v).onState = b.onState := rfl
@[simp] theorem Block.setLastRd_startup (b : Block) (v : Byte) : (b.setLastRd v).startup = b.startup := rfl
@[simp] theorem Block.setLastRd_shutdown (b : Block) (v : Byte) : (b.setLastRd v).shutdown = b.shutdown := rfl
@[simp] theorem Block.setLastRd_trig (b : Block) (v : Byte) : (b.setLastRd v).trig = b.trig := rfl
@[simp] theorem Block.setLastRd_name (b : Block) (v : Byte) : (b.setLastRd v).name = b.name := rfl
@[simp] theorem Block.setLastRd_devId (b : Block) (v : Byte) : (b.setLastRd v).devId = b.devId := rfl

@[simp] theorem Block.setCells_seq (b : Block) (cv cl : BitVec 8) : (b.setCells cv cl).seq = b.seq := rfl
@[simp] theorem Block.setCells_cv (b : Block) (cv cl : BitVec 8) : (b.setCells cv cl).cv = cv := rfl
@[simp] theorem Block.setCells_cl (b : Block) (cv cl : BitVec 8) : (b.setCells cv cl).cl = cl := rfl
@[simp] theorem Block.setCells_lastRdValid (b : Block) (cv cl : BitVec 8) : (b.setCells cv cl).lastRdValid = b.lastRdValid := rfl
@[simp] theorem Block.setCells_lastRd (b : Block) (cv cl : BitVec 8) : (b.setCells cv cl).lastRd = b.lastRd := rfl
@[simp] theorem Block.setCells_addr (b : Block) (cv cl : BitVec 8) : (b.setCells cv cl).addr = b.addr := rfl
@[simp] theorem Block.setCells_onState (b : Block) (cv cl : BitVec 8) : (b.setCells cv cl).onState = b.onState := rfl
@[simp] theorem Block.setCells_startup (b : Block) (cv cl : BitVec 8) : (b.setCells cv cl).startup = b.startup := rfl
@[simp] theorem Block.setCells_shutdown (b : Block) (cv cl : BitVec 8) : (b.setCells cv cl).shutdown = b.shutdown := rfl
@[simp] theorem Block.setCells_trig (b : Block) (cv cl : BitVec 8) : (b.setCells cv cl).trig = b.trig := rfl
@[simp] theorem Block.setCells_name (b : Block) (cv cl : BitVec 8) : (b.setCells cv cl).name = b.name := rfl
@[simp] theorem Block.setCells_devId (b : Block) (cv cl : BitVec 8) : (b.setCells cv cl).devId = b.devId := rfl

@[simp] theorem Block.invalidate_seq (b : Block) : (b.invalidate).seq = b.seq := rfl
@[simp] theorem Block.invalidate_cv (b : Block) : (b.invalidate).cv = 0 := rfl
@[simp] theorem Block.invalidate_cl (b : Block) : (b.invalidate).cl = b.cl := rfl
@[simp] theorem Block.invalidate_lastRdValid (b : Block) : (b.invalidate).lastRdValid = false := rfl
@[simp] theorem Block.invalidate_lastRd (b : Block) : (b.invalidate).lastRd = b.lastRd := rfl
@[simp] theorem Block.invalidate_addr (b : Block) : (b.invalidate).addr = b.addr := rfl
@[simp] theorem Block.invalidate_onState (b : Block) : (b.invalidate).onState = b.onState := rfl
@[simp] theorem Block.invalidate_startup (b : Block) : (b.invalidate).startup = b.startup := rfl
@[simp] theorem Block.invalidate_shutdown (b : Block) : (b.invalidate).shutdown = b.shutdown := rfl
@[simp] theorem Block.invalidate_trig (b : Block) : (b.invalidate).trig = b.trig := rfl
@[simp] theorem Block.invalidate_name (b : Block) : (b.invalidate).name = b.name := rfl
@[simp] theorem Block.invalidate_devId (b : Block) : (b.invalidate).devId = b.devId := rfl

/-- Two states that agree in every field are one. -/
theorem State.ext_fields {s t : State} (h1 : s.params = t.params) (h2 : s.block = t.block) (h3 : s.cfgIn = t.cfgIn)
    (h4 : s.bus = t.bus) (h5 : s.oracle = t.oracle) (h6 : s.drawn = t.drawn) (h7 : s.input = t.input)
    (h8 : s.trace = t.trace) : s = t := by
  cases s; cases t; simp_all

/-- Putting the block back that is there changes nothing. -/
@[simp] theorem State.setBlock_self (s : State) : s.setBlock s.block = s := rfl

/-- The input that is put last counts. -/
@[simp] theorem State.setInput_setInput (s : State) (l l' : List HostEvent) :
    (s.setInput l).setInput l' = s.setInput l' := rfl

/-- Putting the input back that is there changes nothing. -/
@[simp] theorem State.setInput_self (s : State) : s.setInput s.input = s := rfl

end Sys2Proof.Machine
end

