-- ==== Sys2Proof/Laws/Memory.lean ====
section
/-! SUPPORT. The device registers: a read after a write, canonical form kept, and the operations on the state. -/

namespace Sys2Proof.Machine

/-- An erased address reads as an unlisted one. -/
theorem Memory.read_erase_same (d : Byte) (m : Memory) (a : Nat) : Memory.read d (Memory.erase m a) a = d := by
  induction m with
  | nil => rfl
  | cons e m ih =>
    by_cases h : e.1 = a
    · simp [Memory.erase, h, ih]
    · simp [Memory.erase, h, Memory.read, ih]

/-- Erasing leaves every other address alone. -/
theorem Memory.read_erase_other (d : Byte) (m : Memory) (a x : Nat) (hx : x ≠ a) :
    Memory.read d (Memory.erase m a) x = Memory.read d m x := by
  induction m with
  | nil => rfl
  | cons e m ih =>
    by_cases h : e.1 = a
    · simp [Memory.erase, h, ih, Memory.read, Ne.symm hx]
    · simp [Memory.erase, h, Memory.read, ih]

/-- What reads after an entry is put where there was none. -/
theorem Memory.read_put (d : Byte) (m : Memory) (a x : Nat) (v : Byte) (h : ∀ e ∈ m, e.1 ≠ a) :
    Memory.read d (Memory.put m a v) x = if x = a then v else Memory.read d m x := by
  induction m with
  | nil =>
    by_cases hx : x = a
    · simp [Memory.put, Memory.read, hx]
    · simp [Memory.put, Memory.read, hx, Ne.symm hx]
  | cons e m ih =>
    have hk : e.1 ≠ a := h e (by simp)
    have ih := ih fun e he => h e (by simp [he])
    by_cases hlt : a < e.1
    · by_cases hx : x = a
      · simp [Memory.put, Memory.read, hlt, hx]
      · simp [Memory.put, Memory.read, hlt, hx, Ne.symm hx]
    · by_cases hx : e.1 = x
      · subst hx
        simp [Memory.put, Memory.read, hlt, hk]
      · simp [Memory.put, Memory.read, hlt, hx, ih]

/-- No entry for an erased address is left. -/
theorem Memory.erase_ne (m : Memory) (a : Nat) : ∀ e ∈ Memory.erase m a, e.1 ≠ a := by
  induction m with
  | nil => simp [Memory.erase]
  | cons e m ih =>
    by_cases h : e.1 = a
    · simpa [Memory.erase, h] using ih
    · simpa [Memory.erase, h] using ih

/-- A write is read back. -/
theorem Memory.read_write_same (d : Byte) (m : Memory) (a : Nat) (v : Byte) :
    Memory.read d (Memory.write d m a v) a = v := by
  unfold Memory.write
  split
  · rename_i h; rw [Memory.read_erase_same, h]
  · rw [Memory.read_put _ _ _ _ _ (Memory.erase_ne m a), if_pos rfl]

/-- A write leaves every other register alone. -/
theorem Memory.read_write_other (d : Byte) (m : Memory) (a x : Nat) (v : Byte) (hx : x ≠ a) :
    Memory.read d (Memory.write d m a v) x = Memory.read d m x := by
  unfold Memory.write
  split
  · exact Memory.read_erase_other d m a x hx
  · rw [Memory.read_put _ _ _ _ _ (Memory.erase_ne m a), if_neg hx, Memory.read_erase_other d m a x hx]

/-- Entries that rise from an address rise from any lower one. -/
theorem Memory.risingFrom_mono (d : Byte) (m : Memory) {i j : Nat} (hij : i ≤ j)
    (h : Memory.risingFrom d j m = true) : Memory.risingFrom d i m = true := by
  cases m with
  | nil => rfl
  | cons e m =>
    simp only [Memory.risingFrom, Bool.and_eq_true, decide_eq_true_eq] at h ⊢
    exact ⟨⟨⟨by omega, h.1.1.2⟩, h.1.2⟩, h.2⟩

/-- Erasing keeps the canonical form. -/
theorem Memory.risingFrom_erase (d : Byte) (m : Memory) (a : Nat) :
    ∀ lo, Memory.risingFrom d lo m = true → Memory.risingFrom d lo (Memory.erase m a) = true := by
  induction m with
  | nil => intros; rfl
  | cons e m ih =>
    intro lo h
    simp only [Memory.risingFrom, Bool.and_eq_true, decide_eq_true_eq] at h
    by_cases he : e.1 = a
    · simpa [Memory.erase, he] using Memory.risingFrom_mono d _ (by omega) (ih (e.1 + 1) h.2)
    · simpa [Memory.erase, he, Memory.risingFrom, h.1.1.1, h.1.1.2] using ⟨by simpa using h.1.2, ih (e.1 + 1) h.2⟩

/-- Putting an entry that is not the unlisted value where there was none keeps the canonical form. -/
theorem Memory.risingFrom_put (d : Byte) (m : Memory) (a : Nat) (v : Byte) (ha : a < 128) (hv : v ≠ d) :
    ∀ lo, lo ≤ a → (∀ e ∈ m, e.1 ≠ a) → Memory.risingFrom d lo m = true →
      Memory.risingFrom d lo (Memory.put m a v) = true := by
  induction m with
  | nil => intro lo hlo _ _; simp [Memory.put, Memory.risingFrom, hlo, ha, hv]
  | cons e m ih =>
    intro lo hlo hne h
    simp only [Memory.risingFrom, Bool.and_eq_true, decide_eq_true_eq] at h
    have hk : e.1 ≠ a := hne e (by simp)
    by_cases hlt : a < e.1
    · simp only [Memory.put, hlt, if_true, Memory.risingFrom, Bool.and_eq_true, decide_eq_true_eq]
      exact ⟨⟨⟨hlo, ha⟩, by simpa using hv⟩, ⟨⟨hlt, h.1.1.2⟩, h.1.2⟩, h.2⟩
    · simp only [Memory.put, hlt, if_false, Memory.risingFrom, Bool.and_eq_true, decide_eq_true_eq]
      exact ⟨h.1, ih (e.1 + 1) (by omega) (fun e he => hne e (by simp [he])) h.2⟩

/-- A write keeps the canonical form. -/
theorem Memory.wf_write (d : Byte) (m : Memory) (a : BusAddr) (v : Byte) (h : Memory.wf d m = true) :
    Memory.wf d (Memory.write d m a.toNat v) = true := by
  unfold Memory.wf Memory.write
  split
  · exact Memory.risingFrom_erase d m a.toNat 0 h
  · rename_i hv
    exact Memory.risingFrom_put d _ a.toNat v a.isLt hv 0 (Nat.zero_le _) (Memory.erase_ne m a.toNat)
      (Memory.risingFrom_erase d m a.toNat 0 h)

/-- Reset's registers are in canonical form. -/
theorem State.reset_bus_wf : Memory.wf State.reset.params.devRegInit State.reset.bus = true := rfl

/-- Canonical registers are determined by what they read as. -/
theorem Memory.eq_of_read (d : Byte) (m m' : Memory) :
    ∀ lo, Memory.risingFrom d lo m = true → Memory.risingFrom d lo m' = true →
      (∀ a, Memory.read d m a = Memory.read d m' a) → m = m' := by
  have unlisted : ∀ (m : Memory) (lo a : Nat), Memory.risingFrom d lo m = true → a < lo → Memory.read d m a = d := by
    intro m
    induction m with
    | nil => intros; rfl
    | cons e m ih' =>
      intro lo a h1 h2
      simp only [Memory.risingFrom, Bool.and_eq_true, decide_eq_true_eq] at h1
      rw [Memory.read, if_neg (by omega)]
      exact ih' _ _ h1.2 (by omega)
  induction m generalizing m' with
  | nil =>
    intro lo _ h' hr
    cases m' with
    | nil => rfl
    | cons e m' =>
      simp only [Memory.risingFrom, Bool.and_eq_true, bne_iff_ne] at h'
      have := hr e.1
      simp [Memory.read] at this
      exact absurd this.symm h'.1.2
  | cons e m ih =>
    intro lo h h' hr
    obtain ⟨k, b⟩ := e
    cases m' with
    | nil =>
      simp only [Memory.risingFrom, Bool.and_eq_true, bne_iff_ne] at h
      have := hr k
      simp [Memory.read] at this
      exact absurd this h.1.2
    | cons e' m' =>
      obtain ⟨k', b'⟩ := e'
      simp only [Memory.risingFrom, Bool.and_eq_true, bne_iff_ne, decide_eq_true_eq] at h h'
      have hk : k = k' := by
        rcases Nat.lt_trichotomy k k' with hlt | heq | hgt
        · have := hr k
          rw [Memory.read, if_pos rfl, Memory.read, if_neg (by omega), unlisted m' (k' + 1) k h'.2 (by omega)] at this
          exact absurd this h.1.2
        · exact heq
        · have := hr k'
          rw [Memory.read, if_neg (by omega), unlisted m (k + 1) k' h.2 (by omega), Memory.read, if_pos rfl] at this
          exact absurd this.symm h'.1.2
      subst hk
      have hb : b = b' := by simpa [Memory.read] using hr k
      subst hb
      rw [ih m' (k + 1) h.2 h'.2]
      intro a
      by_cases ha : k = a
      · rw [unlisted m (k + 1) a h.2 (by omega), unlisted m' (k + 1) a h'.2 (by omega)]
      · simpa [Memory.read, ha] using hr a

/-! ### The registers in the state -/

@[simp] theorem State.setDevice_params (s : State) (a : BusAddr) (v : Byte) : (s.setDevice a v).params = s.params := rfl
@[simp] theorem State.setDevice_block (s : State) (a : BusAddr) (v : Byte) : (s.setDevice a v).block = s.block := rfl
@[simp] theorem State.setDevice_cfgIn (s : State) (a : BusAddr) (v : Byte) : (s.setDevice a v).cfgIn = s.cfgIn := rfl
@[simp] theorem State.setDevice_oracle (s : State) (a : BusAddr) (v : Byte) : (s.setDevice a v).oracle = s.oracle := rfl
@[simp] theorem State.setDevice_drawn (s : State) (a : BusAddr) (v : Byte) : (s.setDevice a v).drawn = s.drawn := rfl
@[simp] theorem State.setDevice_input (s : State) (a : BusAddr) (v : Byte) : (s.setDevice a v).input = s.input := rfl
@[simp] theorem State.setDevice_trace (s : State) (a : BusAddr) (v : Byte) : (s.setDevice a v).trace = s.trace := rfl

/-- What a register reads depends on the parameters and the registers only. -/
theorem State.device_congr {s t : State} (hp : s.params = t.params) (hb : s.bus = t.bus) (a : BusAddr) :
    s.device a = t.device a := by
  simp [State.device, hp, hb]

@[simp] theorem State.device_setBlock (s : State) (b : Block) (a : BusAddr) : (s.setBlock b).device a = s.device a := rfl
@[simp] theorem State.device_emit (s : State) (o : Obs) (a : BusAddr) : (s.emit o).device a = s.device a := rfl
@[simp] theorem State.device_takeDraw (s : State) (a : BusAddr) : s.takeDraw.device a = s.device a := rfl
@[simp] theorem State.device_setInput (s : State) (l : List HostEvent) (a : BusAddr) : (s.setInput l).device a = s.device a := rfl
@[simp] theorem State.device_setCfgIn (s : State) (c : CfgIn) (a : BusAddr) : (s.setCfgIn c).device a = s.device a := rfl

/-- A device's register is read back. -/
@[simp] theorem State.device_setDevice_same (s : State) (a : BusAddr) (v : Byte) : (s.setDevice a v).device a = v :=
  Memory.read_write_same _ _ _ _

/-- Another device's register is untouched. -/
theorem State.device_setDevice_other (s : State) (a x : BusAddr) (v : Byte) (h : x ≠ a) :
    (s.setDevice a v).device x = s.device x :=
  Memory.read_write_other _ _ _ _ _ (fun e => h (BitVec.eq_of_toNat_eq e))

end Sys2Proof.Machine
end

