-- ==== Sys2Proof/Laws/Transactions.lean ====
section
/-! SUPPORT. What a bus transaction and each procedure made of them can do: the draws, the two transactions
answered Ok or Err, `port_read`, `do_switch`, and the traffic of a whole procedure. -/

namespace Sys2Proof.Machine

/-! ### Draws -/

/-- The next draw is the draw after none. -/
theorem State.nextDraw_eq (s : State) : s.nextDraw = s.drawAt 0 := by
  unfold State.nextDraw State.drawAt
  cases s.oracle <;> rfl

/-- Taking no draw. -/
theorem tookDraws_refl (s : State) : tookDraws 0 s s := ⟨by simp, rfl⟩

/-- Draws taken one after another. -/
theorem tookDraws_trans {m n : Nat} {s t u : State} (h : tookDraws m s t) (h' : tookDraws n t u) :
    tookDraws (m + n) s u :=
  ⟨by rw [h'.1, h.1, List.drop_drop], by rw [h'.2, h.2]; omega⟩

/-- After `n` draws the `k`-th next draw is the one `n + k` before. -/
theorem drawAt_of_tookDraws {n : Nat} {s t : State} (h : tookDraws n s t) (k : Nat) :
    t.drawAt k = s.drawAt (n + k) := by
  simp only [State.drawAt, h.1, h.2, List.getElem?_drop, Nat.add_assoc]

/-- What the draws are depends on the oracle and the count only. -/
theorem State.drawAt_congr {s t : State} (ho : s.oracle = t.oracle) (hd : s.drawn = t.drawn) (k : Nat) :
    s.drawAt k = t.drawAt k := by
  simp [State.drawAt, ho, hd]

/-! ### The state in which a transaction is performed -/

@[simp] theorem State.foreignStep_params (s : State) (v : Option Byte) : (s.foreignStep v).params = s.params := by
  unfold State.foreignStep; split <;> rfl
@[simp] theorem State.foreignStep_block (s : State) (v : Option Byte) : (s.foreignStep v).block = s.block := by
  unfold State.foreignStep; split <;> rfl
@[simp] theorem State.foreignStep_cfgIn (s : State) (v : Option Byte) : (s.foreignStep v).cfgIn = s.cfgIn := by
  unfold State.foreignStep; split <;> rfl
@[simp] theorem State.foreignStep_oracle (s : State) (v : Option Byte) : (s.foreignStep v).oracle = s.oracle := by
  unfold State.foreignStep; split <;> rfl
@[simp] theorem State.foreignStep_drawn (s : State) (v : Option Byte) : (s.foreignStep v).drawn = s.drawn := by
  unfold State.foreignStep; split <;> rfl
@[simp] theorem State.foreignStep_input (s : State) (v : Option Byte) : (s.foreignStep v).input = s.input := by
  unfold State.foreignStep; split <;> rfl
@[simp] theorem State.foreignStep_trace (s : State) (v : Option Byte) : (s.foreignStep v).trace = s.trace := by
  unfold State.foreignStep; split <;> rfl

@[simp] theorem State.startTx_params (s : State) : s.startTx.params = s.params := by simp [State.startTx]
@[simp] theorem State.startTx_block (s : State) : s.startTx.block = s.block := by simp [State.startTx]
@[simp] theorem State.startTx_cfgIn (s : State) : s.startTx.cfgIn = s.cfgIn := by simp [State.startTx]
@[simp] theorem State.startTx_oracle (s : State) : s.startTx.oracle = s.oracle.tail := by simp [State.startTx]
@[simp] theorem State.startTx_drawn (s : State) : s.startTx.drawn = s.drawn + 1 := by simp [State.startTx]
@[simp] theorem State.startTx_input (s : State) : s.startTx.input = s.input := by simp [State.startTx]
@[simp] theorem State.startTx_trace (s : State) : s.startTx.trace = s.trace := by simp [State.startTx]

/-- The attached device when the transaction is performed. -/
@[simp] theorem State.startTx_device_self (s : State) : s.startTx.device s.block.addr = s.seenDevReg := by
  unfold State.startTx State.seenDevReg State.foreignStep
  rw [s.nextDraw_eq]
  cases s.params.extAgents <;> cases (s.drawAt 0).foreign <;> simp [State.devReg]

/-- The other devices when the transaction is performed. -/
theorem State.startTx_device_other (s : State) {x : BusAddr} (h : x ≠ s.block.addr) :
    s.startTx.device x = s.device x := by
  unfold State.startTx State.foreignStep
  rw [s.nextDraw_eq]
  cases s.params.extAgents <;> cases (s.drawAt 0).foreign <;> simp [State.device_setDevice_other _ _ _ _ h]

/-- The transaction's draw is taken. -/
theorem State.startTx_took (s : State) : tookDraws 1 s s.startTx := ⟨by simp, by simp⟩

/-- The device registers stay canonical up to the transaction. -/
theorem State.startTx_wf (s : State) (h : s.busCanonical) : s.startTx.busCanonical := by
  unfold State.startTx State.foreignStep State.setDevice
  split <;> first | exact h | exact Memory.wf_write _ _ _ _ h

/-- Writing a device keeps the canonical form. -/
theorem State.setDevice_wf (s : State) (a : BusAddr) (v : Byte) (h : s.busCanonical) :
    (s.setDevice a v).busCanonical :=
  Memory.wf_write _ _ _ _ h

/-! ### The transactions -/

/-- A read answered Ok (R53 a). -/
theorem memRead_ok (s : State) (h : (s.drawAt 0).fail = none) :
    memRead s = (.ok s.seenDevReg, s.startTx.emit (.bus (.read s.block.addr (.ok s.seenDevReg)))) := by
  simp [memRead, s.nextDraw_eq, h, State.devReg]

/-- A read answered Err (R53 d). -/
theorem memRead_error (s : State) {e : Cause} (h : (s.drawAt 0).fail = some e) :
    memRead s = (.error e, s.startTx.emit (.bus (.read s.block.addr (.error e)))) := by
  simp [memRead, s.nextDraw_eq, h]

/-- A write answered Ok (R53 b). -/
theorem memWrite_ok (v : Byte) (s : State) (h : (s.drawAt 0).fail = none) :
    memWrite v s =
      (.ok (), (s.startTx.setDevice s.block.addr v).emit (.bus (.write s.block.addr v none))) := by
  simp [memWrite, s.nextDraw_eq, h]

/-- A write answered Err (R53 c). -/
theorem memWrite_error (v : Byte) (s : State) {e : Cause} (h : (s.drawAt 0).fail = some e) :
    memWrite v s =
      (.error e, (if (s.drawAt 0).landed then s.startTx.setDevice s.block.addr v else s.startTx).emit
        (.bus (.write s.block.addr v (some e)))) := by
  simp [memWrite, s.nextDraw_eq, h]

/-- `port_read` answered Ok (R120). -/
theorem portRead_ok (s : State) (h : (s.drawAt 0).fail = none) :
    portRead s = (.ok s.seenDevReg,
      (s.startTx.emit (.bus (.read s.block.addr (.ok s.seenDevReg)))).setBlock (s.block.setLastRd s.seenDevReg)) := by
  simp [portRead, memRead_ok s h]

/-- `port_read` answered Err (R120). -/
theorem portRead_error (s : State) {e : Cause} (h : (s.drawAt 0).fail = some e) :
    portRead s = (.error e, s.startTx.emit (.bus (.read s.block.addr (.error e)))) := by
  simp [portRead, memRead_error s h]

/-- The byte a switch writes (R156). -/
theorem composeBits_target (b : Block) (c : Chan) (l : Bool) (j : Chan) :
    extractBit (composeBits (target b c l)) j = if j = c then phys b c l else shadowBit b j := by
  simp [target]

/-- `do_switch` answered Ok (R157). -/
theorem doSwitch_ok (c : Chan) (l : Bool) (s : State) (h : (s.drawAt 0).fail = none) :
    doSwitch c l s = (.ok (),
      ((s.startTx.setDevice s.block.addr (composeBits (target s.block c l))).emit
        (.bus (.write s.block.addr (composeBits (target s.block c l)) none))).setBlock (cacheSet c l s.block)) := by
  simp [doSwitch, setAll, portWrite, memWrite_ok _ s h]

/-- `do_switch` answered Err (R157): the cache is left unmodified. -/
theorem doSwitch_error (c : Chan) (l : Bool) (s : State) {e : Cause} (h : (s.drawAt 0).fail = some e) :
    doSwitch c l s = (.error e,
      (if (s.drawAt 0).landed then s.startTx.setDevice s.block.addr (composeBits (target s.block c l))
        else s.startTx).emit
        (.bus (.write s.block.addr (composeBits (target s.block c l)) (some e)))) := by
  simp [doSwitch, setAll, portWrite, memWrite_error _ s h]

@[simp] theorem cacheSet_addr (c : Chan) (l : Bool) (b : Block) : (cacheSet c l b).addr = b.addr := rfl
@[simp] theorem cacheSet_seq (c : Chan) (l : Bool) (b : Block) : (cacheSet c l b).seq = b.seq := rfl
@[simp] theorem cacheSet_onState (c : Chan) (l : Bool) (b : Block) : (cacheSet c l b).onState = b.onState := rfl
@[simp] theorem cacheSet_startup (c : Chan) (l : Bool) (b : Block) : (cacheSet c l b).startup = b.startup := rfl
@[simp] theorem cacheSet_shutdown (c : Chan) (l : Bool) (b : Block) : (cacheSet c l b).shutdown = b.shutdown := rfl
@[simp] theorem cacheSet_trig (c : Chan) (l : Bool) (b : Block) : (cacheSet c l b).trig = b.trig := rfl
@[simp] theorem cacheSet_devId (c : Chan) (l : Bool) (b : Block) : (cacheSet c l b).devId = b.devId := rfl
@[simp] theorem cacheSet_name (c : Chan) (l : Bool) (b : Block) : (cacheSet c l b).name = b.name := rfl
@[simp] theorem cacheSet_lastRd (c : Chan) (l : Bool) (b : Block) : (cacheSet c l b).lastRd = b.lastRd := rfl
@[simp] theorem cacheSet_lastRdValid (c : Chan) (l : Bool) (b : Block) :
    (cacheSet c l b).lastRdValid = b.lastRdValid := rfl
@[simp] theorem cacheSet_cv (c : Chan) (l : Bool) (b : Block) : (cacheSet c l b).cv = insertBit b.cv c true := rfl
@[simp] theorem cacheSet_cl (c : Chan) (l : Bool) (b : Block) : (cacheSet c l b).cl = insertBit b.cl c l := rfl

/-! ### Traces -/

@[simp] theorem busTxs_append (l l' : List Obs) : busTxs (l ++ l') = busTxs l ++ busTxs l' := by simp [busTxs]
@[simp] theorem triggers_append (l l' : List Obs) : triggers (l ++ l') = triggers l ++ triggers l' := by simp [triggers]
@[simp] theorem reports_append (l l' : List Obs) : reports (l ++ l') = reports l ++ reports l' := by simp [reports]
@[simp] theorem responses_append (l l' : List Obs) : responses (l ++ l') = responses l ++ responses l' := by
  simp [responses]
@[simp] theorem busTxs_nil : busTxs [] = [] := rfl
@[simp] theorem triggers_nil : triggers [] = [] := rfl
@[simp] theorem reports_nil : reports [] = [] := rfl
@[simp] theorem responses_nil : responses [] = [] := rfl
@[simp] theorem busTxs_bus (x : BusTx) (l : List Obs) : busTxs (.bus x :: l) = x :: busTxs l := rfl
@[simp] theorem busTxs_trig (d : Nat) (c : Chan) (l : List Obs) : busTxs (.trig d c :: l) = busTxs l := rfl
@[simp] theorem busTxs_report (p : Phase) (c : Chan) (e : ErrKind) (l : List Obs) :
    busTxs (.report p c e :: l) = busTxs l := rfl
@[simp] theorem busTxs_response (w : RspWord) (l : List Obs) : busTxs (.response w :: l) = busTxs l := rfl
@[simp] theorem triggers_bus (x : BusTx) (l : List Obs) : triggers (.bus x :: l) = triggers l := rfl
@[simp] theorem triggers_trig (d : Nat) (c : Chan) (l : List Obs) : triggers (.trig d c :: l) = (d, c) :: triggers l := rfl
@[simp] theorem triggers_report (p : Phase) (c : Chan) (e : ErrKind) (l : List Obs) :
    triggers (.report p c e :: l) = triggers l := rfl
@[simp] theorem triggers_response (w : RspWord) (l : List Obs) : triggers (.response w :: l) = triggers l := rfl
@[simp] theorem reports_bus (x : BusTx) (l : List Obs) : reports (.bus x :: l) = reports l := rfl
@[simp] theorem reports_trig (d : Nat) (c : Chan) (l : List Obs) : reports (.trig d c :: l) = reports l := rfl
@[simp] theorem reports_report (p : Phase) (c : Chan) (e : ErrKind) (l : List Obs) :
    reports (.report p c e :: l) = (p, c, e) :: reports l := rfl
@[simp] theorem reports_response (w : RspWord) (l : List Obs) : reports (.response w :: l) = reports l := rfl
@[simp] theorem responses_bus (x : BusTx) (l : List Obs) : responses (.bus x :: l) = responses l := rfl
@[simp] theorem responses_trig (d : Nat) (c : Chan) (l : List Obs) : responses (.trig d c :: l) = responses l := rfl
@[simp] theorem responses_report (p : Phase) (c : Chan) (e : ErrKind) (l : List Obs) :
    responses (.report p c e :: l) = responses l := rfl
@[simp] theorem responses_response (w : RspWord) (l : List Obs) : responses (.response w :: l) = w :: responses l := rfl

/-- The last Ok read of a longer trace. -/
theorem lastOkRead_append (l l' : List Obs) : lastOkRead (l ++ l') = (lastOkRead l').or (lastOkRead l) := by
  simp [lastOkRead, List.findSome?_append]

/-- The last Ok write of a longer trace. -/
theorem lastOkWrite_append (l l' : List Obs) : lastOkWrite (l ++ l') = (lastOkWrite l').or (lastOkWrite l) := by
  simp [lastOkWrite, List.findSome?_append]

/-! ### The traffic of a procedure -/

/-- What every procedure does to everything but the block: from `s` to `t` it took `n` draws, put out `new`
with `n` transactions, all to `a`, and no response, and changed no device but `a`'s. -/
structure Traffic (a : BusAddr) (n : Nat) (new : List Obs) (s t : State) : Prop where
  inputs : sameInputs s t
  draws : tookDraws n s t
  devices : sameDevicesBut a s t
  trace : t.trace = s.trace ++ new
  count : (busTxs new).length = n
  addrs : ∀ x ∈ busTxs new, x.addr = a
  silent : responses new = []

/-- Doing nothing. -/
theorem Traffic.refl (a : BusAddr) (s : State) : Traffic a 0 [] s s :=
  ⟨⟨rfl, rfl, rfl⟩, tookDraws_refl s, fun _ _ => rfl, by simp, rfl, by simp, rfl⟩

/-- One procedure after another. -/
theorem Traffic.trans {a : BusAddr} {m n : Nat} {o o' : List Obs} {s t u : State} (h : Traffic a m o s t)
    (h' : Traffic a n o' t u) : Traffic a (m + n) (o ++ o') s u where
  inputs := ⟨h'.inputs.1.trans h.inputs.1, h'.inputs.2.1.trans h.inputs.2.1, h'.inputs.2.2.trans h.inputs.2.2⟩
  draws := tookDraws_trans h.draws h'.draws
  devices := fun x hx => (h'.devices x hx).trans (h.devices x hx)
  trace := by rw [h'.trace, h.trace, List.append_assoc]
  count := by simp [h.count, h'.count]
  addrs := by
    intro x hx
    rw [busTxs_append, List.mem_append] at hx
    exact hx.elim (h.addrs x) (h'.addrs x)
  silent := by simp [h.silent, h'.silent]

/-- Changing the block is no traffic. -/
theorem Traffic.setBlock {a : BusAddr} {n : Nat} {o : List Obs} {s t : State} (h : Traffic a n o s t) (b : Block) :
    Traffic a n o s (t.setBlock b) :=
  ⟨h.inputs, h.draws, h.devices, h.trace, h.count, h.addrs, h.silent⟩

/-- An event that is neither a transaction nor a response. -/
theorem Traffic.emit {a : BusAddr} {n : Nat} {o : List Obs} {s t : State} (h : Traffic a n o s t) (e : Obs)
    (hb : e.tx? = none) (hr : e.response? = none) : Traffic a n (o ++ [e]) s (t.emit e) where
  inputs := h.inputs
  draws := h.draws
  devices := h.devices
  trace := by simp [h.trace]
  count := by simpa [busTxs, hb] using h.count
  addrs := by simpa [busTxs, hb] using h.addrs
  silent := by simpa [responses, hr] using h.silent

/-- Up to the transaction itself. -/
theorem startTx_frame (s : State) :
    sameInputs s s.startTx ∧ tookDraws 1 s s.startTx ∧ sameDevicesBut s.block.addr s s.startTx :=
  ⟨⟨by simp, by simp, by simp⟩, s.startTx_took, fun _ h => s.startTx_device_other h⟩

/-- The traffic of `port_read` (R120): one read, with the answer it gives. -/
theorem portRead_traffic (s : State) :
    Traffic s.block.addr 1 [.bus (.read s.block.addr (portRead s).1)] s (portRead s).2 := by
  obtain ⟨hi, hd, hv⟩ := startTx_frame s
  cases h : (s.drawAt 0).fail with
  | none =>
    rw [portRead_ok s h]
    exact ⟨hi, hd, hv, by simp, rfl, by simp [BusTx.addr], rfl⟩
  | some e =>
    rw [portRead_error s h]
    exact ⟨hi, hd, hv, by simp, rfl, by simp [BusTx.addr], rfl⟩

/-- The traffic of `port_write` (R121): one write. -/
theorem portWrite_traffic (v : Byte) (s : State) :
    Traffic s.block.addr 1 [.bus (.write s.block.addr v (s.drawAt 0).fail)] s (portWrite v s).2 := by
  obtain ⟨hi, hd, hv⟩ := startTx_frame s
  have hother : ∀ x, x ≠ s.block.addr → (s.startTx.setDevice s.block.addr v).device x = s.device x :=
    fun x hx => (State.device_setDevice_other _ _ _ _ hx).trans (hv x hx)
  cases h : (s.drawAt 0).fail with
  | none =>
    rw [portWrite, memWrite_ok v s h]
    exact ⟨hi, hd, hother, by simp, rfl, by simp [BusTx.addr], rfl⟩
  | some e =>
    rw [portWrite, memWrite_error v s h]
    split
    · exact ⟨hi, hd, hother, by simp, rfl, by simp [BusTx.addr], rfl⟩
    · exact ⟨hi, hd, hv, by simp, rfl, by simp [BusTx.addr], rfl⟩

/-- `port_write` leaves the block alone (R121). -/
@[simp] theorem portWrite_block (v : Byte) (s : State) : (portWrite v s).2.block = s.block := by
  cases h : (s.drawAt 0).fail with
  | none => simp [portWrite, memWrite_ok v s h]
  | some e => rw [portWrite, memWrite_error v s h]; split <;> simp

/-- The traffic of `do_switch` (R157): one write of the target byte. -/
theorem doSwitch_traffic (c : Chan) (l : Bool) (s : State) :
    Traffic s.block.addr 1 [.bus (.write s.block.addr (composeBits (target s.block c l)) (s.drawAt 0).fail)] s
      (doSwitch c l s).2 := by
  have h := portWrite_traffic (composeBits (target s.block c l)) s
  unfold doSwitch setAll
  split
  · rename_i heq; rw [heq] at h; exact h.setBlock _
  · rename_i heq; rw [heq] at h; exact h

/-- What `do_switch` answers. -/
theorem doSwitch_answer (c : Chan) (l : Bool) (s : State) :
    (doSwitch c l s).1 = match (s.drawAt 0).fail with | none => .ok () | some e => .error e := by
  cases h : (s.drawAt 0).fail with
  | none => rw [doSwitch_ok c l s h]
  | some e => rw [doSwitch_error c l s h]

/-- What `do_switch` does to the block: the commanded cell on success, nothing on failure (R157). -/
theorem doSwitch_block (c : Chan) (l : Bool) (s : State) :
    (doSwitch c l s).2.block = if (s.drawAt 0).fail = none then cacheSet c l s.block else s.block := by
  cases h : (s.drawAt 0).fail with
  | none => simp [doSwitch_ok c l s h]
  | some e => rw [doSwitch_error c l s h]; split <;> simp

/-- The registers stay canonical over `port_read`. -/
theorem portRead_wf (s : State) (h : s.busCanonical) : (portRead s).2.busCanonical := by
  cases hf : (s.drawAt 0).fail with
  | none => rw [portRead_ok s hf]; exact s.startTx_wf h
  | some e => rw [portRead_error s hf]; exact s.startTx_wf h

/-- The registers stay canonical over `port_write`. -/
theorem portWrite_wf (v : Byte) (s : State) (h : s.busCanonical) : (portWrite v s).2.busCanonical := by
  cases hf : (s.drawAt 0).fail with
  | none => rw [portWrite, memWrite_ok v s hf]; exact State.setDevice_wf _ _ _ (s.startTx_wf h)
  | some e =>
    rw [portWrite, memWrite_error v s hf]
    split
    · exact State.setDevice_wf _ _ _ (s.startTx_wf h)
    · exact s.startTx_wf h

/-- The registers stay canonical over `do_switch`. -/
theorem doSwitch_wf (c : Chan) (l : Bool) (s : State) (h : s.busCanonical) : (doSwitch c l s).2.busCanonical := by
  have h' := portWrite_wf (composeBits (target s.block c l)) s h
  unfold doSwitch setAll
  split
  · rename_i heq; rw [heq] at h'; exact h'
  · rename_i heq; rw [heq] at h'; exact h'

end Sys2Proof.Machine
end

