-- ==== Sys2Proof/Laws/Sweeps.lean ====
section
/-! SUPPORT. What the startup and the shutdown sweep can do (44_lifecycle_sequencer.md rules R184 and R189):
one lemma about the body they share, then by induction over the channels. -/

namespace Sys2Proof.Machine

/-- `do_switch` keeps the confirmed-state invariant (10_state.md rule R23). -/
theorem doSwitch_confirmed (c : Chan) (l : Bool) (s : State) (h : s.Confirmed) : (doSwitch c l s).2.Confirmed := by
  intro j hj
  have ht := (doSwitch_traffic c l s).trace
  have hb := doSwitch_block c l s
  rw [ht, lastOkWrite_append]
  rw [hb] at hj ⊢
  cases hf : (s.drawAt 0).fail with
  | none =>
    rw [if_pos hf] at hj
    rw [if_pos rfl]
    have hlast : lastOkWrite [.bus (.write s.block.addr (composeBits (target s.block c l)) none)] =
      some (composeBits (target s.block c l)) := rfl
    rw [hlast, Option.some_or, Option.map_some, composeBits_target]
    congr 1
    unfold phys
    rw [cacheSet_cl, cacheSet_onState, extractBit_insertBit]
    by_cases e : j = c
    · simp [e]
    · have hk : s.block.known j = true := by
        unfold Block.known at hj ⊢
        rw [cacheSet_cv, extractBit_insertBit, if_neg e] at hj
        exact hj
      simp [e, shadowBit, hk, phys]
  | some e =>
    rw [if_neg (by simp [hf])] at hj
    rw [if_neg (by simp)]
    exact h j hj

/-- The body the two sweeps share: `ph` is the phase of a report, `tr` says whether triggers are emitted. -/
def sweepSwitch (ph : Phase) (tr : Bool) (c : Chan) (l : Bool) (acc : Byte × State) : Byte × State :=
  match doSwitch c l acc.2 with
  | (.ok _, s) => (acc.1, if tr && extractBit s.block.trig c then s.emit (.trig s.block.devId c) else s)
  | (.error e, s) => (markFail acc.1 c, s.emit (.report ph c (.busError e)))

/-- One channel, with the tri-state that configures it. -/
def sweepOne (ph : Phase) (tr : Bool) (v : Vector TriCfg 8) (acc : Byte × State) (c : Chan) : Byte × State :=
  match (v[c]).level with
  | none => acc
  | some l => sweepSwitch ph tr c l acc

/-! ### The events of a list of switches -/

/-- An event of a list of pieces lies in one of them, and what stands before it in its piece stands before it. -/
theorem split_flatMap {α : Type} {f : α → List Obs} {l : List α} : ∀ {pre post : List Obs} {x : Obs},
    l.flatMap f = pre ++ x :: post → ∃ c ∈ l, ∃ p q pre', f c = p ++ x :: q ∧ pre = pre' ++ p := by
  induction l with
  | nil => intro pre post x h; simp at h
  | cons c l ih =>
    intro pre post x h
    rw [List.flatMap_cons] at h
    rcases List.append_eq_append_iff.1 h with ⟨w, e1, e2⟩ | ⟨w, e1, e2⟩
    · obtain ⟨d, hd, p, q, pre', h1, h2⟩ := ih e2
      exact ⟨d, List.mem_cons_of_mem _ hd, p, q, f c ++ pre', h1, by rw [e1, h2, List.append_assoc]⟩
    · cases w with
      | nil =>
        obtain ⟨d, hd, p, q, pre', h1, h2⟩ := ih (pre := []) e2.symm
        simp only [List.nil_eq, List.append_eq_nil_iff] at h2
        rw [List.append_nil] at e1
        exact ⟨d, List.mem_cons_of_mem _ hd, p, q, f c, h1, by rw [h2.2, e1, List.append_nil]⟩
      | cons y w =>
        simp only [List.cons_append, List.cons.injEq] at e2
        exact ⟨c, by simp, pre, w, [], by rw [e1, e2.1], rfl⟩

/-- A report of a switch stands right after its failed write. -/
theorem switchEvents_report {ph ph' : Phase} {a : BusAddr} {d : Nat} {b : Bool} {v : Byte} {c j : Chan}
    {r : Option Cause} {k : ErrKind} {p q : List Obs}
    (h : switchEvents ph a d b v c r = p ++ .report ph' j k :: q) :
    ph' = ph ∧ j = c ∧ ∃ e, r = some e ∧ k = .busError e ∧ p = [.bus (.write a v (some e))] := by
  cases r with
  | none => cases b <;> rcases p with _ | ⟨_, _ | ⟨_, p⟩⟩ <;> simp [switchEvents] at h
  | some e => rcases p with _ | ⟨_, _ | ⟨_, p⟩⟩ <;> simp [switchEvents] at h; simp [h]

/-- A trigger of a switch stands right after its write, answered Ok. -/
theorem switchEvents_trig {ph : Phase} {a : BusAddr} {d d' : Nat} {b : Bool} {v : Byte} {c j : Chan}
    {r : Option Cause} {p q : List Obs} (h : switchEvents ph a d b v c r = p ++ .trig d' j :: q) :
    p = [.bus (.write a v none)] := by
  cases r with
  | none => cases b <;> rcases p with _ | ⟨_, _ | ⟨_, p⟩⟩ <;> simp [switchEvents] at h; simp [h]
  | some e => rcases p with _ | ⟨_, _ | ⟨_, p⟩⟩ <;> simp [switchEvents] at h

section
variable (ph : Phase) (a : BusAddr) (d : Nat) (b : Chan → Bool) (val : Chan → Byte) (r : Chan → Option Cause)

/-- The transactions of a list of switches: one write each. -/
theorem busTxs_switches (l : List Chan) : busTxs (l.flatMap fun c => switchEvents ph a d (b c) (val c) c (r c)) =
    l.map fun c => .write a (val c) (r c) := by
  induction l with
  | nil => rfl
  | cons c l ih =>
    rw [List.flatMap_cons, busTxs_append, ih, List.map_cons]
    cases r c <;> cases b c <;> rfl

/-- The reports of a list of switches: one for each that failed, in order. -/
theorem reports_switches (l : List Chan) :
    (reports (l.flatMap fun c => switchEvents ph a d (b c) (val c) c (r c))).map (fun x => (x.1, x.2.1)) =
      (l.filter fun c => (r c).isSome).map fun c => (ph, c) := by
  induction l with
  | nil => rfl
  | cons c l ih =>
    rw [List.flatMap_cons, reports_append, List.map_append, ih, List.filter_cons]
    cases r c <;> cases b c <;> rfl

/-- The triggers of a list of switches: one for each that is flagged and succeeded. -/
theorem triggers_switches (l : List Chan) : triggers (l.flatMap fun c => switchEvents ph a d (b c) (val c) c (r c)) =
    (l.filter fun c => b c && !(r c).isSome).map fun c => (d, c) := by
  induction l with
  | nil => rfl
  | cons c l ih =>
    rw [List.flatMap_cons, triggers_append, ih, List.filter_cons]
    cases r c <;> cases b c <;> rfl

/-- No switch reads. -/
theorem lastOkRead_switches (l : List Chan) :
    lastOkRead (l.flatMap fun c => switchEvents ph a d (b c) (val c) c (r c)) = none := by
  induction l with
  | nil => rfl
  | cons c l ih =>
    rw [List.flatMap_cons, lastOkRead_append, ih]
    cases r c <;> cases b c <;> rfl

end

/-! ### A sweep -/

/-- From `(f, s)` to `(g, t)` the channels `cs` were swept and `new` was put out: the events of one switch for
each configured channel, in order, the `k`-th answered as draw `k` says. -/
structure Swept (ph : Phase) (tr : Bool) (v : Vector TriCfg 8) (cs : List Chan) (f : Byte) (s : State)
    (new : List Obs) (g : Byte) (t : State) : Prop where
  traffic : Traffic s.block.addr (cs.filter fun c => v[c] != .unset).length new s t
  block : t.block = { s.block with cv := t.block.cv, cl := t.block.cl }
  others : ∀ c, c ∉ cs → extractBit g c = extractBit f c
  kept : ∀ c, (c ∉ cs ∨ v[c] = .unset ∨ extractBit g c = true) →
    extractBit t.block.cv c = extractBit s.block.cv c ∧ extractBit t.block.cl c = extractBit s.block.cl c
  done : ∀ c ∈ cs, ∀ l, (v[c]).level = some l → extractBit g c = false →
    extractBit t.block.cv c = true ∧ extractBit t.block.cl c = l
  onlySet : ∀ c ∈ cs, extractBit g c = true → v[c] ≠ .unset
  failed : ∀ c ∈ cs, v[c] ≠ .unset →
    extractBit g c = (s.drawAt ((cs.filter fun c => v[c] != .unset).idxOf c)).fail.isSome
  events : ∃ val : Chan → Byte, new = (cs.filter fun c => v[c] != .unset).flatMap fun c =>
    switchEvents ph s.block.addr s.block.devId (tr && extractBit s.block.trig c) (val c) c
      (s.drawAt ((cs.filter fun c => v[c] != .unset).idxOf c)).fail
  canonical : s.busCanonical → t.busCanonical

namespace Swept
variable {ph : Phase} {tr : Bool} {v : Vector TriCfg 8} {cs : List Chan} {f g : Byte} {s t : State} {new : List Obs}

/-- A swept channel is marked exactly when it is configured and its draw fails. -/
theorem marked (h : Swept ph tr v cs f s new g t) {c : Chan} (hc : c ∈ cs) : extractBit g c =
    ((v[c] != .unset) && (s.drawAt ((cs.filter fun c => v[c] != .unset).idxOf c)).fail.isSome) := by
  by_cases hu : v[c] = .unset
  · cases hg : extractBit g c with
    | false => simp [hu]
    | true => exact absurd hu (h.onlySet c hc hg)
  · rw [h.failed c hc hu, bne_iff_ne.2 hu, Bool.true_and]

/-- The reports are those of the marked channels, once each, in order. -/
theorem ordered (h : Swept ph tr v cs f s new g t) :
    (reports new).map (fun r => (r.1, r.2.1)) = (cs.filter fun c => extractBit g c).map fun c => (ph, c) := by
  obtain ⟨val, e⟩ := h.events
  rw [e, reports_switches, List.filter_filter]
  congr 1
  exact List.filter_congr fun c hc => (Bool.and_comm _ _).trans (h.marked hc).symm

/-- A report stands right after the failed write it is about, and carries its cause. -/
theorem afterFail (h : Swept ph tr v cs f s new g t) {pre post : List Obs} {p : Phase} {c : Chan} {k : ErrKind}
    (e : new = pre ++ .report p c k :: post) :
    p = ph ∧ ∃ pre' b e, k = .busError e ∧ pre = pre' ++ [.bus (.write s.block.addr b (some e))] := by
  obtain ⟨val, e'⟩ := h.events
  obtain ⟨j, -, _, _, pre', h1, h2⟩ := split_flatMap (e'.symm.trans e)
  obtain ⟨hp, -, x, -, hk, hb⟩ := switchEvents_report h1
  exact ⟨hp, pre', val j, x, hk, by rw [h2, hb]⟩

/-- A trigger stands right after its channel's write. -/
theorem afterWrite (h : Swept ph tr v cs f s new g t) (pre post : List Obs) (d : Nat) (c : Chan)
    (e : new = pre ++ .trig d c :: post) : ∃ pre' b, pre = pre' ++ [.bus (.write s.block.addr b none)] := by
  obtain ⟨val, e'⟩ := h.events
  obtain ⟨j, -, _, _, pre', h1, h2⟩ := split_flatMap (e'.symm.trans e)
  exact ⟨pre', val j, by rw [h2, switchEvents_trig h1]⟩

/-- The triggers are those of the flagged channels that did not fail, in order. -/
theorem fired (h : Swept ph tr v cs f s new g t) : triggers new =
    if tr then (cs.filter fun c => v[c] != .unset && extractBit s.block.trig c && !extractBit g c).map
      fun c => (s.block.devId, c) else [] := by
  obtain ⟨val, e⟩ := h.events
  rw [e, triggers_switches]
  cases tr with
  | false => simp
  | true =>
    rw [if_pos rfl, List.filter_filter]
    congr 1
    apply List.filter_congr
    intro c hc
    rw [h.marked hc]
    cases v[c] != .unset <;> simp

/-- A sweep only writes. -/
theorem writes (h : Swept ph tr v cs f s new g t) : ∀ x ∈ busTxs new, x.isRead = false := by
  obtain ⟨val, e⟩ := h.events
  rw [e, busTxs_switches]
  intro x hx
  obtain ⟨c, -, rfl⟩ := List.mem_map.1 hx
  rfl

/-- A sweep reads nothing. -/
theorem noRead (h : Swept ph tr v cs f s new g t) : lastOkRead new = none := by
  obtain ⟨val, e⟩ := h.events
  rw [e]
  exact lastOkRead_switches _ _ _ _ _ _ _

end Swept

/-- Nothing swept. -/
theorem Swept.nil (ph : Phase) (tr : Bool) (v : Vector TriCfg 8) (f : Byte) (s : State) :
    Swept ph tr v [] f s [] f s where
  traffic := Traffic.refl _ _
  block := rfl
  others := fun _ _ => rfl
  kept := fun _ _ => ⟨rfl, rfl⟩
  done := by simp
  onlySet := by simp
  failed := by simp
  events := ⟨fun _ => 0, rfl⟩
  canonical := id

/-- One channel, then the rest. -/
theorem Swept.cons {ph : Phase} {tr : Bool} {v : Vector TriCfg 8} {c : Chan} {cs : List Chan} {f f' g : Byte}
    {s u t : State} {o o' : List Obs} (hc : c ∉ cs) (h : Swept ph tr v [c] f s o f' u)
    (h' : Swept ph tr v cs f' u o' g t) : Swept ph tr v (c :: cs) f s (o ++ o') g t := by
  have hg : extractBit g c = extractBit f' c := h'.others c hc
  have ha : u.block.addr = s.block.addr := by rw [h.block]
  have ht : u.block.trig = s.block.trig := by rw [h.block]
  have hd : u.block.devId = s.block.devId := by rw [h.block]
  have hn : ∀ {j}, j ∈ cs → j ≠ c := fun hj e => hc (e ▸ hj)
  have hw : ∀ j ∈ cs, u.drawAt ((cs.filter fun c => v[c] != .unset).idxOf j) =
      s.drawAt (((c :: cs).filter fun c => v[c] != .unset).idxOf j) := by
    intro j hj
    rw [drawAt_of_tookDraws h.traffic.draws, List.filter_cons, List.filter_cons]
    split
    · rw [List.idxOf_cons_ne _ (hn hj).symm, List.filter_nil, List.length_singleton, Nat.add_comm]
    · rw [List.filter_nil, List.length_nil, Nat.zero_add]
  have h0 : v[c] ≠ .unset → s.drawAt (([c].filter fun c => v[c] != .unset).idxOf c) =
      s.drawAt (((c :: cs).filter fun c => v[c] != .unset).idxOf c) := by
    intro hu
    rw [List.filter_cons, List.filter_cons, if_pos (bne_iff_ne.2 hu), if_pos (bne_iff_ne.2 hu), List.idxOf_cons_self,
      List.idxOf_cons_self]
  constructor
  · have := h.traffic.trans (ha ▸ h'.traffic)
    rwa [← List.length_append, ← List.filter_append] at this
  · rw [h'.block, h.block]
  · intro j hj
    simp only [List.mem_cons, not_or] at hj
    rw [h'.others j hj.2, h.others j (by simpa using hj.1)]
  · intro j hj
    by_cases e : j = c
    · subst e
      obtain ⟨a, b⟩ := h'.kept j (.inl hc)
      obtain ⟨a', b'⟩ := h.kept j (by
        rcases hj with hj | hj | hj
        · simp at hj
        · exact .inr (.inl hj)
        · exact .inr (.inr (hg ▸ hj)))
      exact ⟨a.trans a', b.trans b'⟩
    · obtain ⟨a, b⟩ := h'.kept j (by
        rcases hj with hj | hj
        · exact .inl (fun m => hj (List.mem_cons_of_mem _ m))
        · exact .inr hj)
      obtain ⟨a', b'⟩ := h.kept j (.inl (by simpa using e))
      exact ⟨a.trans a', b.trans b'⟩
  · intro j hj l hl hf
    rcases List.mem_cons.1 hj with rfl | hj
    · obtain ⟨a, b⟩ := h'.kept j (.inl hc)
      obtain ⟨a', b'⟩ := h.done j (by simp) l hl (hg ▸ hf)
      exact ⟨a.trans a', b.trans b'⟩
    · exact h'.done j hj l hl hf
  · intro j hj hf
    rcases List.mem_cons.1 hj with rfl | hj
    · exact h.onlySet j (by simp) (hg ▸ hf)
    · exact h'.onlySet j hj hf
  · intro j hj hu
    rcases List.mem_cons.1 hj with rfl | hj
    · rw [hg, h.failed j (by simp) hu, h0 hu]
    · rw [h'.failed j hj hu, hw j hj]
  · obtain ⟨val, e⟩ := h.events
    obtain ⟨val', e'⟩ := h'.events
    refine ⟨fun j => if j = c then val j else val' j, ?_⟩
    have split : ((c :: cs).filter fun c => v[c] != .unset) =
        ([c].filter fun c => v[c] != .unset) ++ cs.filter fun c => v[c] != .unset := List.filter_append (l₁ := [c]) ..
    rw [e, e']
    conv_rhs => rw [split, List.flatMap_append, ← split]
    congr 1 <;> refine List.flatMap_congr fun j hj => ?_ <;> obtain ⟨hj, hu⟩ := List.mem_filter.1 hj
    · obtain rfl := List.mem_singleton.1 hj
      rw [h0 (bne_iff_ne.1 hu)]
      simp only [if_true]
    · rw [hw j hj, ha, hd, ht]
      simp only [if_neg (hn hj)]
  · exact h'.canonical ∘ h.canonical

/-- One channel of either sweep, one not marked before. -/
theorem sweepOne_swept (ph : Phase) (tr : Bool) (v : Vector TriCfg 8) (f : Byte) (s : State) (c : Chan)
    (hf : extractBit f c = false) :
    ∃ new, Swept ph tr v [c] f s new (sweepOne ph tr v (f, s) c).1 (sweepOne ph tr v (f, s) c).2 := by
  unfold sweepOne
  cases hl : (v[c]).level with
  | none =>
    have hu : v[c] = .unset := by cases e : v[c] <;> simp_all [TriCfg.level]
    have hfil : ([c].filter fun c => v[c] != .unset) = [] := by rw [List.filter_cons, hu]; rfl
    refine ⟨[], by rw [hfil]; exact Traffic.refl _ _, rfl, fun _ _ => rfl, fun _ _ => ⟨rfl, rfl⟩, ?_, ?_, ?_,
      ⟨fun _ => 0, by rw [hfil]; rfl⟩, id⟩
    · intro j hj l' hl'
      rw [List.mem_singleton.1 hj, hl] at hl'
      cases hl'
    · intro j hj e
      rw [List.mem_singleton.1 hj, hf] at e
      cases e
    · intro j hj e
      rw [List.mem_singleton.1 hj] at e
      exact absurd hu e
  | some l =>
    have hu : v[c] ≠ .unset := by rintro e; rw [e] at hl; cases hl
    have hfil : ([c].filter fun c => v[c] != .unset) = [c] := by
      rw [List.filter_cons, if_pos (bne_iff_ne.2 hu)]; rfl
    have htr := doSwitch_traffic c l s
    have hw := doSwitch_wf c l s
    have hb := doSwitch_block c l s
    show ∃ new, Swept ph tr v [c] f s new (sweepSwitch ph tr c l (f, s)).1 (sweepSwitch ph tr c l (f, s)).2
    unfold sweepSwitch
    refine ⟨switchEvents ph s.block.addr s.block.devId (tr && extractBit s.block.trig c)
      (composeBits (target s.block c l)) c (s.drawAt 0).fail, ?_⟩
    have ev : ∃ val : Chan → Byte, switchEvents ph s.block.addr s.block.devId (tr && extractBit s.block.trig c)
        (composeBits (target s.block c l)) c (s.drawAt 0).fail = ([c].filter fun c => v[c] != .unset).flatMap fun j =>
          switchEvents ph s.block.addr s.block.devId (tr && extractBit s.block.trig j) (val j) j
            (s.drawAt (([c].filter fun c => v[c] != .unset).idxOf j)).fail :=
      ⟨fun _ => composeBits (target s.block c l), by rw [hfil]; simp⟩
    cases h : (s.drawAt 0).fail with
    | none =>
      rw [h] at htr ev
      rw [if_pos h, doSwitch_ok c l s h] at hb
      rw [doSwitch_ok c l s h] at htr hw ⊢
      generalize ((s.startTx.setDevice s.block.addr (composeBits (target s.block c l))).emit
        (.bus (.write s.block.addr (composeBits (target s.block c l)) none))).setBlock (cacheSet c l s.block) = u
        at htr hb hw ⊢
      simp only at htr hb hw ⊢
      generalize ht : (if tr && extractBit u.block.trig c then u.emit (.trig u.block.devId c) else u) = t
      have htb : t.block = cacheSet c l s.block := by rw [← ht, ← hb]; split <;> rfl
      constructor
      case traffic =>
        rw [hfil, ← ht, hb, cacheSet_trig, cacheSet_devId]
        cases tr && extractBit s.block.trig c with
        | false => exact htr
        | true => exact htr.emit (.trig s.block.devId c) rfl rfl
      case block => rw [htb]; rfl
      case others => intro j _; rfl
      case kept =>
        intro j hj
        have : j ≠ c := by
          rintro rfl
          rcases hj with hj | hj | hj
          · simp at hj
          · exact hu hj
          · rw [hf] at hj; cases hj
        simp [htb, this]
      case done =>
        intro j hj l' hl' _
        obtain rfl := List.mem_singleton.1 hj
        rw [hl] at hl'; cases hl'
        simp [htb]
      case onlySet => intro j hj _; rw [List.mem_singleton.1 hj]; exact hu
      case failed =>
        intro j hj _
        obtain rfl := List.mem_singleton.1 hj
        rw [hfil, hf]; simp [h]
      case events => exact ev
      case canonical => intro hc; rw [← ht]; split <;> exact hw hc
    | some e =>
      rw [h] at htr ev
      rw [if_neg (by simp [h]), doSwitch_error c l s h] at hb
      rw [doSwitch_error c l s h] at htr hw ⊢
      simp only at hb ⊢
      constructor
      case traffic => rw [hfil]; exact htr.emit (.report ph c (.busError e)) rfl rfl
      case block => rw [State.emit_block, hb]
      case others => intro j hj; simp [show j ≠ c by simpa using hj]
      case kept => intro j _; rw [State.emit_block, hb]; exact ⟨rfl, rfl⟩
      case done => simp
      case onlySet => intro j hj _; rw [List.mem_singleton.1 hj]; exact hu
      case failed =>
        intro j hj _
        obtain rfl := List.mem_singleton.1 hj
        rw [hfil]; simp [h]
      case events => exact ev
      case canonical => exact hw

/-- Either sweep over channels that are not marked yet. -/
theorem sweep_swept (ph : Phase) (tr : Bool) (v : Vector TriCfg 8) (cs : List Chan) :
    ∀ (f : Byte) (s : State), cs.Nodup → (∀ c ∈ cs, extractBit f c = false) →
      ∃ new, Swept ph tr v cs f s new (cs.foldl (sweepOne ph tr v) (f, s)).1 (cs.foldl (sweepOne ph tr v) (f, s)).2 := by
  induction cs with
  | nil => exact fun f s _ _ => ⟨[], Swept.nil ph tr v f s⟩
  | cons c cs ih =>
    intro f s hn hf
    obtain ⟨hc, hn⟩ := List.nodup_cons.1 hn
    obtain ⟨o, h⟩ := sweepOne_swept ph tr v f s c (hf c (by simp))
    obtain ⟨o', h'⟩ := ih _ _ hn (fun j hj => by
      rw [h.others j (by rintro hm; exact hc (List.mem_singleton.1 hm ▸ hj))]; exact hf j (by simp [hj]))
    exact ⟨o ++ o', h.cons hc h'⟩

/-- A switch answered Ok leaves the device as the shadow byte has it. -/
theorem shadowByte_cacheSet (b : Block) (c : Chan) (l : Bool) :
    shadowByte (cacheSet c l b) = composeBits (target b c l) := by
  apply byte_ext
  intro j
  rw [composeBits_target, shadowByte, extractBit_composeBits]
  unfold shadowBit Block.known phys
  rw [cacheSet_cv, cacheSet_cl, cacheSet_onState, cacheSet_lastRd, cacheSet_lastRdValid, extractBit_insertBit,
    extractBit_insertBit]
  by_cases h : j = c <;> simp [h]

/-- With every transaction answered Ok, a sweep marks nothing, and the device ends as the shadow byte has it
when it began so or the sweep switched a channel. -/
theorem sweep_mirrors (ph : Phase) (tr : Bool) (v : Vector TriCfg 8) (cs : List Chan) :
    ∀ (f : Byte) (s : State), s.answersOk (cs.filter fun c => v[c] != .unset).length →
      (s.device s.block.addr = shadowByte s.block ∨ 0 < (cs.filter fun c => v[c] != .unset).length) →
      (cs.foldl (sweepOne ph tr v) (f, s)).1 = f ∧
      (cs.foldl (sweepOne ph tr v) (f, s)).2.device s.block.addr =
        shadowByte (cs.foldl (sweepOne ph tr v) (f, s)).2.block := by
  induction cs with
  | nil => intro f s _ h; exact ⟨rfl, h.resolve_right (by simp)⟩
  | cons c cs ih =>
    intro f s hok h
    rw [List.foldl_cons]
    cases hl : (v[c]).level with
    | none =>
      have hn : (v[c] != .unset) = false := by cases e : v[c] <;> simp_all [TriCfg.level]
      rw [List.filter_cons, hn] at hok h
      have e : sweepOne ph tr v (f, s) c = (f, s) := by unfold sweepOne; rw [hl]
      rw [e]
      exact ih f s hok h
    | some l =>
      have hn : (v[c] != .unset) = true := by cases e : v[c] <;> simp_all [TriCfg.level]
      rw [List.filter_cons, hn] at hok
      have h0 : (s.drawAt 0).fail = none := hok 0 (by simp)
      obtain ⟨t, e, hb, hd, ht⟩ : ∃ t, sweepOne ph tr v (f, s) c = (f, t) ∧ t.block = cacheSet c l s.block ∧
          t.device s.block.addr = composeBits (target s.block c l) ∧ tookDraws 1 s t := by
        have e : sweepOne ph tr v (f, s) c = sweepSwitch ph tr c l (f, s) := by unfold sweepOne; rw [hl]
        rw [e, sweepSwitch, doSwitch_ok c l s h0]
        refine ⟨_, rfl, ?_, ?_, ?_⟩ <;> split <;> simp [tookDraws]
      rw [e]
      have ha : t.block.addr = s.block.addr := by rw [hb]; rfl
      have := ih f t (fun k hk => by
        rw [drawAt_of_tookDraws ht]; exact hok (1 + k) (by rw [if_pos rfl, List.length_cons]; omega))
        (.inl (by rw [ha, hd, hb, shadowByte_cacheSet]))
      rwa [ha] at this

/-- One channel of a sweep keeps the confirmed-state invariant (10_state.md rule R23). -/
theorem sweepOne_confirmed (ph : Phase) (tr : Bool) (v : Vector TriCfg 8) (f : Byte) (s : State) (c : Chan)
    (h : s.Confirmed) : (sweepOne ph tr v (f, s) c).2.Confirmed := by
  unfold sweepOne
  split
  · exact h
  · rename_i l _
    unfold sweepSwitch
    have quiet : ∀ (t : State) (o : Obs), o.okWrite? = none → t.Confirmed → (t.emit o).Confirmed := by
      intro t o ho ht j hj
      have := ht j hj
      rw [State.emit_trace, lastOkWrite_append]
      simpa [lastOkWrite, ho] using this
    have hs := doSwitch_confirmed c l s h
    split
    · rename_i heq
      rw [show (doSwitch c l s).2 = _ from congrArg Prod.snd heq] at hs
      split
      · exact quiet _ _ rfl hs
      · exact hs
    · rename_i heq
      rw [show (doSwitch c l s).2 = _ from congrArg Prod.snd heq] at hs
      exact quiet _ _ rfl hs

/-- A sweep keeps the confirmed-state invariant. -/
theorem sweep_confirmed (ph : Phase) (tr : Bool) (v : Vector TriCfg 8) (cs : List Chan) :
    ∀ (f : Byte) (s : State), s.Confirmed → (cs.foldl (sweepOne ph tr v) (f, s)).2.Confirmed := by
  induction cs with
  | nil => exact fun _ _ h => h
  | cons c cs ih => exact fun f s h => ih _ _ (sweepOne_confirmed ph tr v f s c h)

/-- The startup sweep is the shared one over the startup states. -/
theorem startup_fold (v : Vector TriCfg 8) (cs : List Chan) : ∀ (f : Byte) (s : State), s.block.startup = v →
    cs.foldl startupOne (f, s) = cs.foldl (sweepOne .startup true v) (f, s) := by
  induction cs with
  | nil => exact fun _ _ _ => rfl
  | cons c cs ih =>
    intro f s hv
    have e : startupOne (f, s) c = sweepOne .startup true v (f, s) c := by
      unfold startupOne sweepOne
      rw [hv]
      cases v[c] <;> simp [TriCfg.level, startupSwitch, sweepSwitch] <;>
        (rcases doSwitch c _ s with ⟨_ | _, _⟩ <;> rfl)
    rw [List.foldl_cons, List.foldl_cons, e, ← ih]
    unfold sweepOne
    split
    · exact hv
    · have hb := doSwitch_block c ‹Bool› s
      unfold sweepSwitch
      split
      all_goals rename_i heq; rw [show (doSwitch c _ s).2 = _ from congrArg Prod.snd heq] at hb
      · split <;> (simp only [State.emit_block]; rw [hb]; split <;> exact hv)
      · simp only [State.emit_block]; rw [hb]; split <;> exact hv

/-- The shutdown sweep is the shared one over the shutdown states. -/
theorem shutdown_fold (v : Vector TriCfg 8) (cs : List Chan) : ∀ (f : Byte) (s : State), s.block.shutdown = v →
    cs.foldl shutdownOne (f, s) = cs.foldl (sweepOne .shutdown false v) (f, s) := by
  induction cs with
  | nil => exact fun _ _ _ => rfl
  | cons c cs ih =>
    intro f s hv
    have e : shutdownOne (f, s) c = sweepOne .shutdown false v (f, s) c := by
      unfold shutdownOne sweepOne
      rw [hv]
      cases v[c] <;> simp [TriCfg.level, shutdownSwitch, sweepSwitch] <;>
        (rcases doSwitch c _ s with ⟨_ | _, _⟩ <;> rfl)
    rw [List.foldl_cons, List.foldl_cons, e, ← ih]
    unfold sweepOne
    split
    · exact hv
    · have hb := doSwitch_block c ‹Bool› s
      unfold sweepSwitch
      split
      all_goals rename_i heq; rw [show (doSwitch c _ s).2 = _ from congrArg Prod.snd heq] at hb
      · simp only [Bool.false_and, Bool.false_eq_true, if_false]; rw [hb]; split <;> exact hv
      · simp only [State.emit_block]; rw [hb]; split <;> exact hv

/-- What the startup sweep can do (R184). -/
theorem startupSweep_swept (s : State) :
    ∃ new, Swept .startup true s.block.startup channels 0 s new (startupSweep s).1 (startupSweep s).2 := by
  unfold startupSweep
  rw [startup_fold _ _ _ s rfl]
  exact sweep_swept _ _ _ _ _ _ channels_nodup (by simp)

/-- What the shutdown sweep can do (R189). -/
theorem shutdownSweep_swept (s : State) :
    ∃ new, Swept .shutdown false s.block.shutdown channels 0 s new (shutdownSweep s).1 (shutdownSweep s).2 := by
  unfold shutdownSweep
  rw [shutdown_fold _ _ _ s rfl]
  exact sweep_swept _ _ _ _ _ _ channels_nodup (by simp)

end Sys2Proof.Machine
end

