-- ==== Sys2Proof/Laws/Commands.lean ====
section
/-! SUPPORT. What each command can do to everything but the block: one lemma per shared shape, then one for
all commands; and what it does to the block. -/

namespace Sys2Proof.Machine

/-- A command served: `new` was put out with `n` transactions, all to the address latched at the end, and then
one response; `r` is how it ended. -/
abbrev Served (i : Instr) (n : Nat) (s t : State) (new : List Obs) (r : Result) : Prop :=
  ∃ u, t = respond i.idx r u ∧ Traffic u.block.addr n new s u

/-- `get_bit` is `port_read` (R130). -/
theorem getBit_state (c : Chan) (s : State) : (getBit c s).2 = (portRead s).2 := by
  unfold getBit; split <;> simp [*]

/-- `port_read` keeps the latches (R120). -/
theorem portRead_block (s : State) :
    (portRead s).2.block = if (s.drawAt 0).fail = none then s.block.setLastRd s.seenDevReg else s.block := by
  cases h : (s.drawAt 0).fail with
  | none => simp [portRead_ok s h]
  | some e => simp [portRead_error s h]

/-- `port_read` keeps `ADDR`. -/
@[simp] theorem portRead_addr (s : State) : (portRead s).2.block.addr = s.block.addr := by
  rw [portRead_block]; split <;> rfl

/-- What `port_read` answers. -/
theorem portRead_answer (s : State) :
    (portRead s).1 = match (s.drawAt 0).fail with | none => .ok s.seenDevReg | some e => .error e := by
  cases h : (s.drawAt 0).fail with
  | none => rw [portRead_ok s h]
  | some e => rw [portRead_error s h]

/-- `set_bit` after a read answered Ok (R132). -/
theorem setBit_ok (c : Chan) (b : Bool) (s : State) (h : (s.drawAt 0).fail = none) :
    setBit c b s = portWrite (insertBit s.seenDevReg c b) (portRead s).2 := by
  have e := portRead_answer s
  rw [h] at e
  have : portRead s = (.ok s.seenDevReg, (portRead s).2) := Prod.ext e rfl
  unfold setBit
  rw [this]

/-- `set_bit` after a read answered Err (R132). -/
theorem setBit_error (c : Chan) (b : Bool) (s : State) {e : Cause} (h : (s.drawAt 0).fail = some e) :
    setBit c b s = (.error e, (portRead s).2) := by
  have e' := portRead_answer s
  rw [h] at e'
  have : portRead s = (.error e, (portRead s).2) := Prod.ext e' rfl
  unfold setBit
  rw [this]

/-- What `set_bit` does to the block (R132): what its read does. -/
theorem setBit_block (c : Chan) (b : Bool) (s : State) : (setBit c b s).2.block = (portRead s).2.block := by
  cases h : (s.drawAt 0).fail with
  | none => rw [setBit_ok c b s h]; simp
  | some e => rw [setBit_error c b s h]

/-- The traffic of `set_bit` (R132): a read, and after an Ok a write. -/
theorem setBit_traffic (c : Chan) (b : Bool) (s : State) :
    ∃ new, Traffic s.block.addr (if (s.drawAt 0).fail = none then 2 else 1) new s (setBit c b s).2 := by
  have hr := portRead_traffic s
  cases h : (s.drawAt 0).fail with
  | none =>
    rw [setBit_ok c b s h]
    have hw := portWrite_traffic (insertBit s.seenDevReg c b) (portRead s).2
    rw [portRead_addr] at hw
    exact ⟨_, hr.trans hw⟩
  | some e =>
    rw [setBit_error c b s h]
    exact ⟨_, hr⟩

/-- The probe: its one read, then a report if it failed (R183). -/
theorem probe_spec (s : State) :
    probe s = match (s.drawAt 0).fail with
      | none => (false, (portRead s).2)
      | some e => (true, (portRead s).2.emit (.report .probe 0 (.busError e))) := by
  have e := portRead_answer s
  unfold probe
  cases h : (s.drawAt 0).fail with
  | none => rw [h] at e; rw [show portRead s = (.ok s.seenDevReg, (portRead s).2) from Prod.ext e rfl]
  | some c => rw [h] at e; rw [show portRead s = (.error c, (portRead s).2) from Prod.ext e rfl]

/-- What the probe does to the block. -/
theorem probe_block (s : State) : (probe s).2.block = (portRead s).2.block := by
  rw [probe_spec]; split <;> rfl

/-- The traffic of the probe: its one read, and right after it the report if it failed. -/
theorem probe_traffic (s : State) :
    Traffic s.block.addr 1
      (match (s.drawAt 0).fail with
        | none => [.bus (.read s.block.addr (.ok s.seenDevReg))]
        | some e => [.bus (.read s.block.addr (.error e)), .report .probe 0 (.busError e)]) s (probe s).2 := by
  have hr := portRead_traffic s
  rw [portRead_answer] at hr
  rw [probe_spec]
  cases h : (s.drawAt 0).fail with
  | none => rw [h] at hr; exact hr
  | some e => rw [h] at hr; exact hr.emit _ rfl rfl

/-- ATTACH once the address is valid (R181): the probe, then the sweep, and how it ends. -/
theorem attachRun_spec (s : State) :
    ∃ new, Swept .startup true s.block.startup channels 0 (probe s).2 new (startupSweep (probe s).2).1
        (startupSweep (probe s).2).2 ∧
      attachRun s = .next (respond 0 (.ok (attachRsp (startupSweep (probe s).2).1 (probe s).1))
        ((startupSweep (probe s).2).2.setBlock ((startupSweep (probe s).2).2.block.setSeq .ready))) := by
  obtain ⟨new, h⟩ := startupSweep_swept (probe s).2
  have : (probe s).2.block.startup = s.block.startup := by
    rw [probe_block, portRead_block]; split <;> rfl
  rw [this] at h
  exact ⟨new, h, rfl⟩

/-- ATTACH, in each case of R181. -/
theorem execAttach_cases (s : State) :
    (s.block.seq ≠ .uninitialized ∧ execAttach s = raise 0 .notReady s) ∨
    (s.block.seq = .uninitialized ∧ cfgWellFormed s.cfgIn.cfgWord = false ∧
      execAttach s = .refused .illFormedConfig) ∨
    (s.block.seq = .uninitialized ∧ cfgWellFormed s.cfgIn.cfgWord = true ∧
      ∃ up down, (∀ j : Chan, (up[j]).code = cfgStartup s.cfgIn.cfgWord j) ∧
        (∀ j : Chan, (down[j]).code = cfgShutdown s.cfgIn.cfgWord j) ∧
        ∃ b, b = { s.block with
            addr := cfgAddr s.cfgIn.cfgWord, devId := s.cfgIn.devId % 2 ^ s.params.devIdW,
            onState := composeBits (cfgOnState s.cfgIn.cfgWord), startup := up, shutdown := down,
            trig := composeBits (cfgTrig s.cfgIn.cfgWord), name := s.cfgIn.name } ∧
          ((cfgAddr s.cfgIn.cfgWord ∈ s.params.validAddrs ∧ execAttach s = attachRun (s.setBlock b)) ∨
            (cfgAddr s.cfgIn.cfgWord ∉ s.params.validAddrs ∧
              execAttach s = raise 0 .invalidChannel (s.setBlock b)))) := by
  by_cases hq : s.block.seq = .uninitialized
  · cases hw : cfgWellFormed s.cfgIn.cfgWord with
    | false =>
      refine .inr (.inl ⟨hq, rfl, ?_⟩)
      simp [execAttach, hq, latchConfig_illFormed _ _ _ hw]
    | true =>
      obtain ⟨up, down, hl, hu, hd⟩ := latchConfig_wellFormed s.params.devIdW s.cfgIn s.block hw
      refine .inr (.inr ⟨hq, rfl, up, down, hu, hd, _, rfl, ?_⟩)
      by_cases ha : cfgAddr s.cfgIn.cfgWord ∈ s.params.validAddrs
      · exact .inl ⟨ha, by simp only [execAttach, if_pos hq, hl, if_pos ha]⟩
      · exact .inr ⟨ha, by simp only [execAttach, if_pos hq, hl, if_neg ha]⟩
  · exact .inl ⟨hq, by simp only [execAttach, if_neg hq]⟩

/-- Nothing but a response. -/
theorem served_none (i : Instr) (s : State) (r : Result) : Served i 0 s (respond i.idx r s) [] r :=
  ⟨s, rfl, Traffic.refl _ _⟩

/-- A command that requires `Ready` and an index in range, and then is one bus operation. -/
theorem served_of_finish {i : Instr} {n : Nat} {s t u : State} {r : Except Cause (BitVec 16) × State} {new : List Obs}
    (ht : finish i.idx r = .next t) (hu : r.2 = u) (ha : u.block.addr = s.block.addr)
    (h : Traffic s.block.addr n new s u) : ∃ new q, Served i n s t new q := by
  obtain rfl := Host.Outcome.next.inj ht
  subst hu
  exact ⟨new, _, r.2, rfl, ha ▸ h⟩

/-- A command served, from its traffic. -/
theorem served_mk {i : Instr} {n : Nat} {s u : State} {new : List Obs} {r : Result}
    (h : Traffic u.block.addr n new s u) : ∃ new q, Served i n s (respond i.idx r u) new q :=
  ⟨new, r, u, rfl, h⟩

/-- STOP in `Ready` (R188): the sweep, and how it ends. -/
theorem execStop_ready {s : State} (h : s.block.seq = .ready) :
    execStop s = .next (respond 0 (.ok (byteRsp (shutdownSweep s).1))
      ((shutdownSweep s).2.setBlock ((shutdownSweep s).2.block.setSeq .stopped).invalidate)) := by
  unfold execStop requireReady
  rw [if_pos h]
  rfl

/-- STOP outside `Ready`. -/
theorem execStop_notReady {s : State} (h : s.block.seq ≠ .ready) : execStop s = raise 0 .notReady s := by
  unfold execStop requireReady
  rw [if_neg h]

/-- A command turned away by a check. -/
theorem served_turned {j : Instr} {k : ErrKind} {s t : State} (hz : txCount j s = 0) (h : raise j.idx k s = .next t) :
    ∃ new r, Served j (txCount j s) s t new r := by
  obtain rfl := Host.Outcome.next.inj h
  rw [hz]
  exact ⟨[], _, served_none j s _⟩

/-- A command behind the state check (R203). -/
theorem served_ready {j : Instr} {run : Host.Outcome State Fault Refusal} {s t : State} (hr : required j = some .ready)
    (h : requireReady j.idx s run = .next t)
    (k : stateOk j s = true → run = .next t → ∃ new r, Served j (txCount j s) s t new r) :
    ∃ new r, Served j (txCount j s) s t new r := by
  unfold requireReady at h
  split at h
  · rename_i hq
    exact k (by simp [stateOk, hr, hq]) h
  · rename_i hq
    exact served_turned (by simp [txCount, stateOk, hr, hq]) h

/-- A command behind the index check (R204). -/
theorem served_index {j : Instr} {run : Chan → Host.Outcome State Fault Refusal} {s t : State}
    (hz : 7 < j.idx.toNat → txCount j s = 0) (h : requireChan j.idx s run = .next t)
    (k : ∀ c, j.idx.toNat ≤ 7 → run c = .next t → ∃ new r, Served j (txCount j s) s t new r) :
    ∃ new r, Served j (txCount j s) s t new r := by
  by_cases h7 : j.idx.toNat ≤ 7
  · rw [requireChan, chan?_some h7] at h
    exact k _ h7 h
  · rw [requireChan, chan?_none (by omega)] at h
    exact served_turned (hz (by omega)) h

/-- ATTACH is served. -/
theorem attach_served {s t : State} (h : execAttach s = .next t) :
    ∃ new r, Served .attach (txCount .attach s) s t new r := by
  rcases execAttach_cases s with ⟨hq, e⟩ | ⟨hq, hw, e⟩ | ⟨hq, hw, up, down, hu, hd, b, hb, ⟨ha, e⟩ | ⟨ha, e⟩⟩
  · exact served_turned (j := .attach) (by simp [txCount, stateOk, required, hq]) (e ▸ h)
  · rw [e] at h; cases h
  · obtain ⟨new, hs, e'⟩ := attachRun_spec (s.setBlock b)
    rw [e, e'] at h
    have hp := probe_traffic (s.setBlock b)
    have hpa : (probe (s.setBlock b)).2.block.addr = (s.setBlock b).block.addr := by
      rw [probe_block, portRead_addr]
    have hn : (channels.filter fun c => (s.setBlock b).block.startup[c] != .unset).length =
        cfgConfigured s.cfgIn.cfgWord := by
      have : (s.setBlock b).block.startup = up := by rw [hb]; rfl
      rw [this]; exact configured_of_codes hu
    have hc : txCount .attach s = 1 + cfgConfigured s.cfgIn.cfgWord := by
      simp [txCount, stateOk, required, hq, ha]
    rw [hc]
    generalize startupSweep (probe (s.setBlock b)).2 = w at hs h
    generalize probe (s.setBlock b) = q at hs h hp hpa
    have hta : w.2.block.addr = q.2.block.addr := by rw [hs.block]
    have htr := hp.trans (hpa ▸ hs.traffic)
    rw [hn] at htr
    have hfin := htr.setBlock (w.2.block.setSeq .ready)
    rw [← hpa, ← hta] at hfin
    rw [← Host.Outcome.next.inj h]
    exact served_mk (i := .attach)
      ⟨hfin.inputs, hfin.draws, hfin.devices, hfin.trace, hfin.count, hfin.addrs, hfin.silent⟩
  · rw [e] at h
    rw [← Host.Outcome.next.inj h]
    have hc : txCount .attach s = 0 := by simp [txCount, stateOk, required, hq, ha]
    rw [hc]
    exact served_mk (i := .attach) ((Traffic.refl _ s).setBlock b)

/-- STOP is served. -/
theorem stop_served {s t : State} (h : execStop s = .next t) :
    ∃ new r, Served .stop (txCount .stop s) s t new r := by
  by_cases hq : s.block.seq = .ready
  · obtain ⟨new, hs⟩ := shutdownSweep_swept s
    rw [execStop_ready hq] at h
    generalize shutdownSweep s = w at hs h
    have hc : txCount .stop s = configured s.block.shutdown := by simp [txCount, stateOk, required, hq]
    rw [hc, ← Host.Outcome.next.inj h]
    have ha : w.2.block.addr = s.block.addr := by rw [hs.block]
    have hfin := hs.traffic.setBlock (w.2.block.setSeq .stopped).invalidate
    rw [← ha] at hfin
    exact served_mk (i := .stop) hfin
  · rw [execStop_notReady hq] at h
    exact served_turned (j := .stop) (by simp [txCount, stateOk, required, hq]) h

/-- SET_BIT is served. -/
theorem setBit_served {c : Idx} {b : Bool} {s t : State} (h : execSetBit c b s = .next t) :
    ∃ new r, Served (.setBit c b) (txCount (.setBit c b) s) s t new r := by
  refine served_ready (j := .setBit c b) rfl h fun hq hx => ?_
  refine served_index (j := .setBit c b)
    (by intro h7; change 7 < c.toNat at h7; simp [txCount, show ¬ c.toNat ≤ 7 by omega]) hx fun d h7 hr => ?_
  have hc : txCount (.setBit c b) s = if (s.drawAt 0).fail = none then 2 else 1 := by
    change c.toNat ≤ 7 at h7; simp [txCount, hq, h7]
  rw [hc]
  obtain ⟨new, ht⟩ := setBit_traffic d b s
  exact served_of_finish (i := .setBit c b) (u := (setBit d b s).2) hr rfl (by rw [setBit_block, portRead_addr]) ht

/-- SWITCH is served. -/
theorem switch_served {c : Idx} {l : Bool} {s t : State} (h : execSwitch c l s = .next t) :
    ∃ new r, Served (.switch c l) (txCount (.switch c l) s) s t new r := by
  refine served_ready (j := .switch c l) rfl h fun hq hx => ?_
  refine served_index (j := .switch c l)
    (by intro h7; change 7 < c.toNat at h7; simp [txCount, show ¬ c.toNat ≤ 7 by omega]) hx fun d h7 hr => ?_
  have hc : txCount (.switch c l) s = 1 := by change c.toNat ≤ 7 at h7; simp [txCount, hq, h7]
  rw [hc]
  exact served_of_finish (i := .switch c l) (u := (doSwitch d l s).2) hr rfl
    (by rw [doSwitch_block]; split <;> rfl) (doSwitch_traffic d l s)

/-- GET_BIT is served. -/
theorem getBit_served {c : Idx} {s t : State} (h : execGetBit c s = .next t) :
    ∃ new r, Served (.getBit c) (txCount (.getBit c) s) s t new r := by
  refine served_ready (j := .getBit c) rfl h fun hq hx => ?_
  refine served_index (j := .getBit c)
    (by intro h7; change 7 < c.toNat at h7; simp [txCount, show ¬ c.toNat ≤ 7 by omega]) hx fun d h7 hr => ?_
  have hc : txCount (.getBit c) s = 1 := by change c.toNat ≤ 7 at h7; simp [txCount, hq, h7]
  rw [hc]
  have ht := portRead_traffic s
  exact served_of_finish (i := .getBit c) hr (getBit_state d s) (portRead_addr s) ht

/-- Every command that answers a next state has put out the transactions R59 gives it, then one response. -/
theorem exec_served {i : Instr} {s t : State} (h : exec i s = .next t) :
    ∃ new r, Served i (txCount i s) s t new r := by
  cases i with
  | isReady =>
    obtain rfl := Host.Outcome.next.inj h
    exact ⟨[], _, served_none .isReady s _⟩
  | attach => exact attach_served h
  | stop => exact stop_served h
  | switch c l => exact switch_served h
  | getBit c => exact getBit_served h
  | setBit c b => exact setBit_served h
  | read c =>
    refine served_ready (j := .read c) rfl h fun hq hx => ?_
    refine served_index (j := .read c) (by simp [txCount]) hx fun d h7 hr => ?_
    obtain rfl := Host.Outcome.next.inj hr
    have hc : txCount (.read c) s = 0 := by simp [txCount]
    rw [hc]; exact ⟨[], _, served_none (.read c) s _⟩
  | readAll =>
    refine served_ready (j := .readAll) rfl h fun hq hx => ?_
    obtain rfl := Host.Outcome.next.inj hx
    have hc : txCount .readAll s = 0 := by simp [txCount]
    rw [hc]; exact ⟨[], _, served_none .readAll s _⟩
  | isOn c =>
    refine served_index (j := .isOn c) (by simp [txCount]) h fun d h7 hr => ?_
    obtain rfl := Host.Outcome.next.inj hr
    have hc : txCount (.isOn c) s = 0 := by simp [txCount]
    rw [hc]; exact ⟨[], _, served_none (.isOn c) s _⟩
  | portRead =>
    refine served_ready (j := .portRead) rfl h fun hq hx => ?_
    have hc : txCount .portRead s = 1 := by simp [txCount, hq]
    rw [hc]
    have hr := portRead_traffic s
    exact served_of_finish (i := .portRead) hx rfl (portRead_addr s) hr
  | portWrite v =>
    refine served_ready (j := .portWrite v) rfl h fun hq hx => ?_
    have hc : txCount (.portWrite v) s = 1 := by simp [txCount, hq]
    rw [hc]
    exact served_of_finish (i := .portWrite v) (u := (portWrite v s).2) hx rfl
      (by rw [portWrite_block]) (portWrite_traffic v s)
  | setAll v =>
    refine served_ready (j := .setAll v) rfl h fun hq hx => ?_
    have hc : txCount (.setAll v) s = 1 := by simp [txCount, hq]
    rw [hc]
    exact served_of_finish (i := .setAll v) (u := (portWrite (composeBits (extractBit v)) s).2) hx rfl
      (by rw [portWrite_block]) (portWrite_traffic _ s)

end Sys2Proof.Machine
end

