-- ==== Sys2Proof/Laws/Encoding.lean ====
section
/-! SUPPORT. The fields of a command word, and the bits of `DATA` of a one-bit operand. -/

namespace Sys2Proof

/-- Bit `k` of a word made of its fields. -/
theorem cmdWord_bit (opc idx : BitVec 4) (d : Byte) (k : Nat) :
    (cmdWord opc idx d).getLsbD k = if k < 8 then d.getLsbD k else if k - 8 < 4 then idx.getLsbD (k - 8) else opc.getLsbD (k - 12) := by
  simp only [cmdWord, BitVec.getLsbD_append]
  by_cases h1 : k < 8
  · simp [h1]
  · by_cases h2 : k - 8 < 4
    · simp [h1, h2]
    · simp [h1, h2, show k - 8 - 4 = k - 12 by omega]

/-- `OPC` of a word made of its fields. -/
@[simp] theorem opcField_cmdWord (opc idx : BitVec 4) (d : Byte) : opcField (cmdWord opc idx d) = opc := by
  apply BitVec.eq_of_getLsbD_eq; intro i hi
  simp only [opcField, BitVec.getLsbD_extractLsb', cmdWord_bit, hi, decide_true, Bool.true_and]
  rw [if_neg (by omega), if_neg (by omega)]; congr 1; omega

/-- `IDX` of a word made of its fields. -/
@[simp] theorem idxField_cmdWord (opc idx : BitVec 4) (d : Byte) : idxField (cmdWord opc idx d) = idx := by
  apply BitVec.eq_of_getLsbD_eq; intro i hi
  simp only [idxField, BitVec.getLsbD_extractLsb', cmdWord_bit, hi, decide_true, Bool.true_and]
  rw [if_neg (by omega), if_pos (by omega)]; congr 1; omega

/-- `DATA` of a word made of its fields. -/
@[simp] theorem dataField_cmdWord (opc idx : BitVec 4) (d : Byte) : dataField (cmdWord opc idx d) = d := by
  apply BitVec.eq_of_getLsbD_eq; intro i hi
  simp only [dataField, BitVec.getLsbD_extractLsb', cmdWord_bit, hi, decide_true, Bool.true_and]
  rw [if_pos (by omega)]; congr 1; omega

/-- `DATA[7:1]` of a word made of its fields. -/
@[simp] theorem levelBits_cmdWord (opc idx : BitVec 4) (d : Byte) : (cmdWord opc idx d).extractLsb' 1 7 = d.extractLsb' 1 7 := by
  apply BitVec.eq_of_getLsbD_eq; intro i hi
  simp only [BitVec.getLsbD_extractLsb', cmdWord_bit, hi, decide_true, Bool.true_and]
  rw [if_pos (by omega)]

/-- A word is made of its fields. -/
@[simp] theorem cmdWord_fields (w : CmdWord) : cmdWord (opcField w) (idxField w) (dataField w) = w := by
  apply BitVec.eq_of_getLsbD_eq; intro i hi
  rw [cmdWord_bit]
  simp only [opcField, idxField, dataField, BitVec.getLsbD_extractLsb']
  split
  · simp [*]
  · split
    · simp [*, show 8 + (i - 8) = i by omega]
    · simp [show i - 12 < 4 by omega, show 12 + (i - 12) = i by omega]

/-- Bit 0 of a word made of its fields. -/
@[simp] theorem levelBit_cmdWord (opc idx : BitVec 4) (d : Byte) :
    (cmdWord opc idx d).getLsbD 0 = d.getLsbD 0 := by simp only [cmdWord_bit]; rfl

/-- Bit 15, `OPC[3]`, of a word made of its fields. -/
@[simp] theorem groupBit_cmdWord (opc idx : BitVec 4) (d : Byte) :
    (cmdWord opc idx d).getLsbD 15 = opc.getLsbD 3 := by simp only [cmdWord_bit]; rfl

/-- The one-bit operand of a `DATA` field. -/
theorem bitData_bit (b : Bool) : (bitData b).extractLsb' 1 7 = 0 ∧ (bitData b).getLsbD 0 = b := by
  cases b <;> decide

/-- A `DATA` field with bits 7:1 zero is its bit 0. -/
theorem bitData_of_zero : ∀ d : Byte, d.extractLsb' 1 7 = 0 → bitData (d.getLsbD 0) = d := by decide

end Sys2Proof
end

