-- ==== Sys2Proof/Laws/PerInstr.lean ====
section
/-! SUPPORT. A statement about every command as syntax, one lemma per constructor: its word is of its row of the
opcode table (30_encoding.md rule R84), carries its index in bits 11:8 (R82), and has bit 15 set exactly for the
primitive group (R81). -/

namespace Sys2Proof.Laws.WordForm

/-- What the word of a command says about it (R81, R82, R84). -/
def Statement (i : Instr) : Prop :=
  i.row ∈ opcodeTable ∧ i.row.selects (encode i) = true ∧ idxField (encode i) = i.idx ∧
    (encode i).getLsbD 15 = i.primitive

/-- IS_READY. -/
theorem isReady : Statement (.isReady) := by
  unfold Statement; decide

/-- ATTACH. -/
theorem attach : Statement (.attach) := by
  unfold Statement; decide

/-- STOP. -/
theorem stop : Statement (.stop) := by
  unfold Statement; decide

/-- SWITCH. -/
theorem switch (channel : Idx) (desired : Bool) : Statement (.switch channel desired) := by
  unfold Statement; revert channel desired; decide

/-- READ. -/
theorem read (channel : Idx) : Statement (.read channel) := by
  unfold Statement; revert channel; decide

/-- READ_ALL. -/
theorem readAll : Statement (.readAll) := by
  unfold Statement; decide

/-- IS_ON. -/
theorem isOn (channel : Idx) : Statement (.isOn channel) := by
  unfold Statement; revert channel; decide

/-- PORT_READ. -/
theorem portRead : Statement (.portRead) := by
  unfold Statement; decide

/-- PORT_WRITE. -/
theorem portWrite (value : Byte) : Statement (.portWrite value) := by
  unfold Statement; revert value; decide

/-- GET_BIT. -/
theorem getBit (index : Idx) : Statement (.getBit index) := by
  unfold Statement; revert index; decide

/-- SET_BIT. -/
theorem setBit (index : Idx) (value : Bool) : Statement (.setBit index value) := by
  unfold Statement; revert index value; decide

/-- SET_ALL. -/
theorem setAll (values : Byte) : Statement (.setAll values) := by
  unfold Statement; revert values; decide

end Sys2Proof.Laws.WordForm
end

