-- ==== Sys2Proof/Tests/Slice0.lean ====
section
/-! SUPPORT. Tests on small states, each with the place in the spec its expected result comes from, and a witness
for the hypotheses of every statement. -/

namespace Sys2Proof.Tests

open Sys2Proof Sys2Proof.Machine

/-! ### Well-formedness: an ill-formed term for each check -/

theorem test_wf_sealed_primitive : (Instr.portRead).wellFormed .sealed = false := by decide
theorem test_wf_sealed_other : (Instr.isOn 15).wellFormed .sealed = true := by decide
/-- R90: reserved bit 7. -/
theorem test_wf_cfg_bit7 : cfgWellFormed 0x00555555555555A0 = false := by decide
/-- R90: reserved bits 63:56. -/
theorem test_wf_cfg_top : cfgWellFormed 0x0155555555555520 = false := by decide
/-- R87: a `STARTUP` field of 3 (channel 0, bits 10:9). -/
theorem test_wf_cfg_startup3 : cfgWellFormed 0x0055555555555720 = false := by decide
/-- R87: a `SHUTDOWN` field of 3 (channel 0, bits 12:11). -/
theorem test_wf_cfg_shutdown3 : cfgWellFormed 0x0055555555555D20 = false := by decide
theorem test_wf_cfg_good : cfgWellFormed 0x0055555555547320 = true := by decide
theorem test_wf_asm_index : (AsmLine.mk .read [.num false 16]).wellFormed = false := by decide
theorem test_wf_asm_index_hex : (AsmLine.mk .read [.num true 3]).wellFormed = false := by decide
theorem test_wf_asm_byte : (AsmLine.mk .portWrite [.num true 0x100]).wellFormed = false := by decide
theorem test_wf_asm_byte_decimal : (AsmLine.mk .portWrite [.num false 5]).wellFormed = false := by decide
theorem test_wf_asm_bit : (AsmLine.mk .setBit [.num false 3, .num false 2]).wellFormed = false := by decide
theorem test_wf_asm_bit_word : (AsmLine.mk .setBit [.num false 3, .level true]).wellFormed = false := by decide
theorem test_wf_asm_level : (AsmLine.mk .switch [.num false 3, .num false 2]).wellFormed = false := by decide
theorem test_wf_asm_arity : (AsmLine.mk .isReady [.num false 0]).wellFormed = false := by decide

/-! ### Decoding: words written out from the encoding table (R84, and 95_test_vectors.md B0) -/

theorem test_decode_is_ready : decode 0b0000000000000000 = .ok .isReady := by decide
theorem test_decode_attach : decode 0b0001000000000000 = .ok .attach := by decide
theorem test_decode_stop : decode 0b0010000000000000 = .ok .stop := by decide
theorem test_decode_switch : decode 0b0011001100000001 = .ok (.switch 3 true) := by decide
theorem test_decode_switch_off : decode 0b0011000000000000 = .ok (.switch 0 false) := by decide
theorem test_decode_read : decode 0b0100011100000000 = .ok (.read 7) := by decide
theorem test_decode_read_all : decode 0b0101000000000000 = .ok .readAll := by decide
theorem test_decode_is_on : decode 0b0110111100000000 = .ok (.isOn 15) := by decide
theorem test_decode_port_read : decode 0b1000000000000000 = .ok .portRead := by decide
theorem test_decode_port_write : decode 0b1001000010100101 = .ok (.portWrite 0xA5) := by decide
theorem test_decode_get_bit : decode 0b1010010100000000 = .ok (.getBit 5) := by decide
theorem test_decode_set_bit : decode 0b1011010100000001 = .ok (.setBit 5 true) := by decide
theorem test_decode_set_all : decode 0b1100000000001111 = .ok (.setAll 0x0F) := by decide
theorem test_decode_reserved_opcode : decode 0x7000 = .error .reservedOpcode := by decide
theorem test_decode_index_not_zero : decode 0x9100 = .error .indexNotZero := by decide
theorem test_decode_data_not_zero : decode 0x4301 = .error .dataNotZero := by decide
theorem test_decode_level_bits : decode 0x3302 = .error .levelBitsNotZero := by decide
theorem test_decode_sealed : decodePort .sealed 0x8000 = .error .primitiveSealed := by decide
theorem test_decode_truncated : decodeBytes [0x33] = .error .truncated := by rfl
theorem test_decode_table_word : decodeTableWord 16 0x3301 = some (.switch 3 true) := by decide

/-! ### Assembler text (95_test_vectors.md part C writes its programs so) -/

theorem test_asm_switch : assembleText "SWITCH 3, on".toList = some 0x3301 := by decide
theorem test_asm_lower_case : assembleText "port_write 0b10100101".toList = some 0x90A5 := by decide
theorem test_asm_pseudo : assembleText "OFF 3".toList = some 0x3300 := by decide
theorem test_asm_rejected : assembleText "SWITCH 16, on".toList = none := by decide

/-- R96 at the ends of its ranges. -/
theorem test_asm_ranges :
    (assemble ⟨.getBit, [.num false 15]⟩, assemble ⟨.getBit, [.num false 16]⟩) = (some (.getBit 15), none) ∧
      (assemble ⟨.setAll, [.num true 0xFF]⟩, assemble ⟨.setAll, [.num true 0x100]⟩) = (some (.setAll 0xFF), none) ∧
      (assemble ⟨.switch, [.num false 15, .num false 0]⟩, assemble ⟨.switch, [.num false 0, .num false 2]⟩) =
        (some (.switch 15 false), none) ∧
      (assemble ⟨.setBit, [.num false 0, .num false 1]⟩, assemble ⟨.setBit, [.num false 0, .level true]⟩) =
        (some (.setBit 0 true), none) := by decide
/-- The fields of a report event (R92). -/
theorem test_report_fields : reportFields .shutdown 7 (.busError .timeout) = ⟨2, 7, 2, 2⟩ := by decide

/-! ### States -/

/-- A transaction answered Ok, no other agent. -/
def okDraw : BusDraw := { foreign := none, fail := none, landed := false }

/-- A transaction answered Err. -/
def errDraw (c : Cause) (landed : Bool) : BusDraw := { foreign := none, fail := some c, landed := landed }

/-- The parameters of the test vectors. -/
def vecParams : Params :=
  { primPort := .exposed, extAgents := true, validAddrs := Config.defaultAddrs, devIdW := 32, devRegInit := 0 }

/-- A block at address 0x20, every `ON_STATE` 1, nothing known. -/
def blk (q : Seq) : Block := { Block.reset with seq := q, addr := 0x20, onState := 0xFF }

/-- A block in `Ready`, the device register and the draws as given. -/
def rdy (dev : Byte) (draws : List BusDraw) : State :=
  { State.reset with
    params := vecParams, block := blk .ready, bus := Memory.write 0 [] 0x20 dev, oracle := draws }

/-- The block of the example of R158: cells 0 to 2 valid, `LASTRD = 0xF0`. -/
def rdyKnown (draws : List BusDraw) : State :=
  (rdy 0 draws).setBlock
    { blk .ready with cv := 0b00000111, cl := 0b00000101, lastRdValid := true, lastRd := 0xF0 }

/-- A block before attach, its `cfg_in` and the device at 0x20 as given, no other agent. -/
def uni (cfg : BitVec 64) (dev : Byte) (draws : List BusDraw) : State :=
  { State.reset with
    params := { vecParams with extAgents := false }, cfgIn := { cfgWord := cfg, devId := 0x2A, name := Vector.replicate 8 [] },
    bus := Memory.write 0 [] 0x20 dev, oracle := draws }

/-- A stopped block. -/
def stp : State := (rdy 0 []).setBlock (blk .stopped)

/-- The next state, if there is one. -/
def next? : Host.Outcome State Fault Refusal → Option State
  | .next s => some s
  | .fault _ => none
  | .refused _ => none

/-- What a step from a state without output puts out. -/
def out (o : Host.Outcome State Fault Refusal) : Option (List Obs) := (next? o).map State.trace

/-- One command word served. -/
def serve1 (s : State) (w : Nat) : Host.Outcome State Fault Refusal := step (s.withFetchWord 16 w)

/-! ### One step each -/

/-- The example of R192. -/
theorem test_is_ready : out (serve1 (rdy 0 []) 0x0000) = some [.response 0x00000001] := by decide
theorem test_is_ready_stopped : out (serve1 stp 0x0000) = some [.response 0x00000000] := by decide
/-- 95_test_vectors.md V-S1. -/
theorem test_attach : out (serve1 (uni 0x0055555555547320 0xB6 [okDraw, okDraw, okDraw]) 0x1000) =
    some [.bus (.read 0x20 (.ok 0xB6)), .bus (.write 0x20 0xB7 none), .trig 0x2A 0, .bus (.write 0x20 0xB5 none),
      .response 0x00000000] := by decide
/-- 95_test_vectors.md V-S3: the probe is answered NACK. -/
theorem test_attach_probe_fails :
    out (serve1 (uni 0x0055555555547320 0xB6 [errDraw .nack false, okDraw, okDraw]) 0x1000) =
    some [.bus (.read 0x20 (.error .nack)), .report .probe 0 (.busError .nack), .bus (.write 0x20 0x01 none),
      .trig 0x2A 0, .bus (.write 0x20 0x01 none), .response 0x00000100] := by decide
/-- The example of R188: `SHUTDOWN[0]` is Off. -/
theorem test_stop :
    out (serve1 ((rdy 0 [okDraw]).setBlock
      { blk .ready with cv := 0b00000011, cl := 0b00000011, lastRdValid := true, lastRd := 0xF0,
                        shutdown := #v[.off, .unset, .unset, .unset, .unset, .unset, .unset, .unset] }) 0x2000) =
    some [.bus (.write 0x20 0xF2 none), .response 0x00000000] := by decide
/-- 95_test_vectors.md V-S8. -/
theorem test_stop_before_attach : out (serve1 (uni 0 0 []) 0x2000) = some [.response 0x60000000] := by decide
/-- The example of R158. -/
theorem test_switch : out (serve1 (rdyKnown [okDraw]) 0x3301) =
    some [.bus (.write 0x20 0xFD none), .response 0x01800000] := by decide
/-- 95_test_vectors.md B7: NACK on channel 3. -/
theorem test_switch_nack : ((next? (serve1 (rdyKnown [errDraw .nack true]) 0x3301)).map
      fun t => (t.trace.getLast?, t.block.cv, t.devReg)) =
    some (some (.response 0x49800000), 0b00000111, 0xFD) := by decide
/-- The example of R160, cell 3 unknown. -/
theorem test_read_unknown : out (serve1 (rdyKnown []) 0x4300) = some [.response 0x01800002] := by decide
/-- The example of R162. -/
theorem test_read_all : out (serve1 ((rdyKnown []).setBlock { blk .ready with cv := 0b11, cl := 0b01 }) 0x5000) =
    some [.response 0x0000AAA1] := by decide
/-- The examples of R164. -/
theorem test_is_on_before_attach : out (serve1 (uni 0 0 []) 0x6300) = some [.response 0x01800002] := by decide
theorem test_is_on_index : out (serve1 (uni 0 0 []) 0x6900) = some [.response 0x24800000] := by decide
/-- The example of R122. -/
theorem test_port_read : ((next? (serve1 (rdy 0xA5 [okDraw]) 0x8000)).map
      fun t => (t.trace, t.block.lastRd, t.block.lastRdValid)) =
    some ([.bus (.read 0x20 (.ok 0xA5)), .response 0x000000A5], 0xA5, true) := by decide
/-- The example of R124. -/
theorem test_port_write : ((next? (serve1 (rdy 0 [okDraw]) 0x90A5)).map fun t => (t.trace, t.devReg)) =
    some ([.bus (.write 0x20 0xA5 none), .response 0x00000000], 0xA5) := by decide
/-- The examples of R131. -/
theorem test_get_bit : out (serve1 (rdy 0b00100000 [okDraw]) 0xA500) =
    some [.bus (.read 0x20 (.ok 0x20)), .response 0x02800001] := by decide
theorem test_get_bit_index : out (serve1 (rdy 0 []) 0xA800) = some [.response 0x24000000] := by decide
/-- The example of R134. -/
theorem test_set_bit : out (serve1 (rdy 0x01 [okDraw, okDraw]) 0xB501) =
    some [.bus (.read 0x20 (.ok 0x01)), .bus (.write 0x20 0x21 none), .response 0x02800000] := by decide
/-- R132: another agent's change between the two transactions is lost (0x41 put between them). -/
theorem test_set_bit_race :
    ((next? (serve1 (rdy 0x01 [okDraw, { okDraw with foreign := some 0x41 }]) 0xB501)).map State.devReg) =
      some 0x21 := by decide
/-- The example of R137. -/
theorem test_set_all : ((next? (serve1 (rdy 0 [okDraw]) 0xC00F)).map fun t => (t.trace, t.devReg)) =
    some ([.bus (.write 0x20 0x0F none), .response 0x00000000], 0x0F) := by decide
/-- 95_test_vectors.md B6: the first failing check decides. -/
theorem test_illegal_first : out (serve1 stp 0x3802) = some [.response 0x84000000] := by decide
theorem test_state_before_index : out (serve1 stp 0x3801) = some [.response 0x64000000] := by decide
/-- R87, U2: an ill-formed record is refused by name. -/
theorem test_attach_ill_formed : exec .attach (uni 0x0055555555555720 0 []) = .refused .illFormedConfig := by rfl
/-- R240: reset forgets, and leaves the device. -/
theorem test_rst : ((next? (step ((rdyKnown []).setInput [.rst]))).map fun t => (t.block.seq, t.block.cv, t.bus)) =
    some (.uninitialized, 0, (rdyKnown []).bus) := by decide

/-! ### Witnesses: for each statement with hypotheses, states and operands that meet them -/

theorem witness_DecodeOfEncode : (Instr.setAll 0xFF).wellFormed .exposed = true ∧ (Instr.isOn 15).wellFormed .sealed = true := by
  decide
theorem witness_EncodeOfDecode : decode 0xAF00 = .ok (.getBit 15) := by decide
theorem witness_RowSelected : decode 0xCFFF = .error .indexNotZero ∧ decode 0xC0FF = .ok (.setAll 0xFF) := by decide
theorem witness_IllegalWords :
    ((rdy 0 []).setInput [.command 0x7FFF]).input = [.command 0x7FFF] ∧
      decodePort (rdy 0 []).params.primPort 0x7FFF = .error .reservedOpcode := by decide
theorem witness_OneResponse :
    ∃ t, ((rdy 0 []).setInput [.command 0x5000]).input = [.command 0x5000] ∧
      step ((rdy 0 []).setInput [.command 0x5000]) = .next t := ⟨_, rfl, rfl⟩
theorem witness_PolarityMap :
    extractBit (blk .ready).onState 7 = true ∧ extractBit Block.reset.onState 0 = false := by decide
theorem witness_ShadowByte :
    extractBit (rdyKnown []).block.cv 2 = true ∧
      (extractBit (rdyKnown []).block.cv 3 = false ∧ (rdyKnown []).block.lastRdValid = true) ∧
      (extractBit (blk .ready).cv 7 = false ∧ (blk .ready).lastRdValid = false) := by decide
theorem witness_SwitchTarget :
    ((0 : Chan) ≠ 3 ∧ extractBit (rdyKnown []).block.cv 0 = true) ∧
      ((7 : Chan) ≠ 3 ∧ extractBit (rdyKnown []).block.cv 7 = false ∧ (rdyKnown []).block.lastRdValid = true) ∧
      ((7 : Chan) ≠ 3 ∧ extractBit (blk .ready).cv 7 = false ∧ (blk .ready).lastRdValid = false) := by decide
theorem witness_IllegalClauses :
    (opcField 0x0001 = 0x0 ∧ (0x0001 : CmdWord) ≠ 0x0000) ∧ (opcField 0x4F01 = 0x4 ∧ dataField 0x4F01 ≠ 0) ∧
      (opcField 0x6080 = 0x6 ∧ dataField 0x6080 ≠ 0) ∧ (opcField 0x5100 = 0x5 ∧ (0x5100 : CmdWord) ≠ 0x5000) ∧
      (opcField 0x8001 = 0x8 ∧ (0x8001 : CmdWord) ≠ 0x8000) ∧ (opcField 0x9100 = 0x9 ∧ idxField 0x9100 ≠ 0) ∧
      (opcField 0xCF00 = 0xC ∧ idxField 0xCF00 ≠ 0) ∧ (opcField 0xA001 = 0xA ∧ dataField 0xA001 ≠ 0) := by decide
/-- The index clauses of READ, IS_ON, GET_BIT, SET_BIT, SWITCH meet at 7 and 8. -/
theorem witness_Index :
    (rdy 0 []).block.seq = .ready ∧ (7 : Idx).toNat ≤ 7 ∧ 7 < (8 : Idx).toNat ∧ 7 < (15 : Idx).toNat := by decide
theorem witness_NotReady :
    stp.block.seq ≠ .ready ∧ (uni 0 0 []).block.seq ≠ .ready ∧ stp.block.seq ≠ .uninitialized := by decide
/-- PORT_READ, PORT_WRITE, SET_ALL, GET_BIT, SWITCH, and the read of SET_BIT: the first transaction Ok, or Err. -/
theorem witness_FirstAnswer :
    ((rdy 0 [okDraw]).block.seq = .ready ∧ ((rdy 0 [okDraw]).drawAt 0).fail = none) ∧
      ((rdy 0 [errDraw .ioFault true]).block.seq = .ready ∧
        ((rdy 0 [errDraw .ioFault true]).drawAt 0).fail = some .ioFault) := by decide
/-- SET_BIT: both Ok, or the write Err. -/
theorem witness_SecondAnswer :
    (((rdy 0 [okDraw, okDraw]).drawAt 0).fail = none ∧ ((rdy 0 [okDraw, okDraw]).drawAt 1).fail = none) ∧
      (((rdy 0 [okDraw, errDraw .nack false]).drawAt 0).fail = none ∧
        ((rdy 0 [okDraw, errDraw .nack false]).drawAt 1).fail = some .nack) := by decide
theorem witness_SwitchIsIdempotent :
    ∃ t u, (rdyKnown [okDraw, okDraw]).block.seq = .ready ∧ ((rdyKnown [okDraw, okDraw]).drawAt 0).fail = none ∧
      ((rdyKnown [okDraw, okDraw]).drawAt 1).fail = none ∧
      exec (.switch (BitVec.ofNat 4 (7 : Chan).val) false) (rdyKnown [okDraw, okDraw]) = .next t ∧
      exec (.switch (BitVec.ofNat 4 (7 : Chan).val) false) t = .next u :=
  ⟨_, _, by decide, by decide, by decide, rfl, rfl⟩
/-- The record of V-S1, accepted. -/
theorem witness_AttachCompletes :
    (uni 0x0055555555547320 0xB6 []).block.seq = .uninitialized ∧ (uni 0x0055555555547320 0xB6 []).block.cv = 0 ∧
      cfgWellFormed 0x0055555555547320 = true ∧
      cfgAddr 0x0055555555547320 ∈ (uni 0x0055555555547320 0xB6 []).params.validAddrs := by decide
/-- A bad address (V-S6), and an ill-formed record. -/
theorem witness_AttachTurnedAway :
    (cfgWellFormed 0x0055555555555510 = true ∧
      cfgAddr 0x0055555555555510 ∉ (uni 0x0055555555555510 0 []).params.validAddrs) ∧
      cfgWellFormed 0x00555555555555A0 = false := by decide
theorem witness_StartupExample :
    (uni 0x0055555555547320 0xB6 [okDraw, okDraw, okDraw]).params.extAgents = false ∧
      (∀ k, k < 3 → ((uni 0x0055555555547320 0xB6 [okDraw, okDraw, okDraw]).drawAt k).fail = none) ∧
      cfgStartup 0x0055555555547320 0 = 1 ∧ cfgTrig 0x0055555555547320 0 = true ∧
      cfgStartup 0x0055555555547320 1 = 0 ∧ cfgTrig 0x0055555555547320 1 = false ∧
      ∀ c : Chan, 2 ≤ c.val → cfgStartup 0x0055555555547320 c = 2 := by decide
theorem witness_StartupPreservesUnsetPins :
    ∀ k, k < 9 → ((uni 0x0055555555547320 0xB6 (List.replicate 9 okDraw)).drawAt k).fail = none := by decide
theorem witness_TriggersOnlyAtStartup_others : ∃ t, Instr.stop ≠ .attach ∧ exec .stop (rdy 0 []) = .next t :=
  ⟨_, by decide, rfl⟩
theorem witness_TriggersOnlyAtStartup_attach :
    ∃ t pre post, exec .attach (uni 0x0055555555547320 0xB6 [okDraw, okDraw, okDraw]) = .next t ∧
      t.block.seq = .ready ∧
      t.trace = (uni 0x0055555555547320 0xB6 [okDraw, okDraw, okDraw]).trace ++ (pre ++ .trig 0x2A 0 :: post) :=
  ⟨_, [.bus (.read 0x20 (.ok 0xB6)), .bus (.write 0x20 0xB7 none)],
    [.bus (.write 0x20 0xB5 none), .response 0x00000000], rfl, rfl, by decide⟩
/-- A block with one shutdown state and every answer Ok. -/
def stoppable : State :=
  { (rdy 0 (List.replicate 8 okDraw)).setBlock
      { blk .ready with shutdown := #v[.unset, .unset, .unset, .unset, .unset, .unset, .unset, .on] } with
    params := { vecParams with extAgents := false } }
theorem witness_ShutdownFinalByte :
    stoppable.block.seq = .ready ∧ stoppable.params.extAgents = false ∧
      (∀ k, k < 8 → (stoppable.drawAt k).fail = none) ∧ 0 < configured stoppable.block.shutdown := by decide
/-- A block with two shutdown states, the first switch answered Timeout and the second NACK. -/
def stopFails : State :=
  (rdy 0 [errDraw .timeout false, errDraw .nack false]).setBlock
    { blk .ready with shutdown := #v[.unset, .on, .unset, .unset, .unset, .unset, .unset, .on] }
/-- R189: two failed writes, two reports, `FAIL` has bits 1 and 7. -/
theorem witness_StopCompletes_reports :
    ∃ t, stopFails.block.seq = .ready ∧ exec .stop stopFails = .next t ∧
      t.trace = stopFails.trace ++ ([.bus (.write 0x20 0x02 (some .timeout))] ++ .report .shutdown 1 (.busError .timeout) ::
        [.bus (.write 0x20 0x80 (some .nack)), .report .shutdown 7 (.busError .nack)]) ++
        [.response (rspWord 0 (.ok ((0x82 : Byte).setWidth 16)))] :=
  ⟨_, by decide, rfl, by decide⟩
/-- R183, R184: the probe and the switch of channel 0 fail. -/
theorem witness_AttachCompletes_reports :
    ∃ t, exec .attach (uni 0x0055555555547320 0xB6 [errDraw .nack false, errDraw .ioFault false, okDraw]) = .next t ∧
      t.trace = [.bus (.read 0x20 (.error .nack))] ++ .report .probe 0 (.busError .nack) ::
        [.bus (.write 0x20 0x01 (some .ioFault)), .report .startup 0 (.busError .ioFault),
          .bus (.write 0x20 0x00 none), .response (rspWord 0 (.ok (attachRsp 0x01 true)))] :=
  ⟨_, rfl, by decide⟩
theorem witness_SweepsAreSwitches_stop : ∃ t, stoppable.block.seq = .ready ∧ exec .stop stoppable = .next t :=
  ⟨_, by decide, rfl⟩
theorem witness_SweepsAreSwitches_attach :
    ∃ t, exec .attach (uni 0x0055555555547320 0xB6 [okDraw, okDraw, okDraw]) = .next t ∧ t.block.seq = .ready :=
  ⟨_, rfl, rfl⟩
theorem witness_StateCheck :
    Instr.setAll 0 ≠ .attach ∧ Instr.setAll 0 ≠ .isReady ∧ (∀ c, Instr.setAll 0 ≠ .isOn c) ∧ stp.block.seq ≠ .ready := by
  decide
theorem witness_FirstFailingCheck :
    decodePort stp.params.primPort 0x3802 = .error .levelBitsNotZero ∧
      (decodePort stp.params.primPort 0x3801 = .ok (.switch 8 true) ∧ stateOk (.switch 8 true) stp = false) ∧
      (stateOk (.switch 8 true) (rdy 0 []) = true ∧ 7 < (Instr.switch 8 true).idx.toNat) := by decide
theorem witness_ErrorsArePrecise_turnedAway :
    ∃ t, exec (.read 8) (rdy 0 []) = .next t ∧
      t.trace = (rdy 0 []).trace ++ [] ++ [.response (rspWord 8 (.err .invalidChannel))] ∧
      (∀ c, ErrKind.invalidChannel ≠ .busError c) ∧ Instr.read 8 ≠ .attach :=
  ⟨_, rfl, by decide, by simp, by decide⟩
theorem witness_ErrorsArePrecise_bus :
    ∃ t, exec .portRead (rdy 0 [errDraw .timeout false]) = .next t ∧
      t.trace = (rdy 0 [errDraw .timeout false]).trace ++ [.bus (.read 0x20 (.error .timeout))] ++
        [.response (rspWord 0 (.err (.busError .timeout)))] :=
  ⟨_, rfl, by decide⟩
theorem witness_StepServes :
    ((rdy 0 []).setInput [.command 0x6700]).input = [.command 0x6700] ∧
      decodePort (rdy 0 []).params.primPort 0x6700 = .ok (.isOn 7) ∧
      (Instr.setBit 15 true).wellFormed (rdy 0 []).params.primPort = true := by decide
theorem witness_StepsWithoutCommand :
    (rdy 0 []).input = [] ∧ ((rdy 0 []).setInput [.rst]).input = [.rst] ∧
      ((rdy 0 []).setInput [.config CfgIn.initial]).input = [.config CfgIn.initial] ∧
      ((rdy 0 []).setInput [.foreign 0x7F 1]).input = [.foreign 0x7F 1] := by decide
/-- Every statement of the form "if `exec` answers next" for a command that is no sweep and no switch. -/
theorem witness_ExecNext :
    ∃ t, exec (.setBit 0 true) (rdy 0 [okDraw, okDraw]) = .next t ∧
      (∀ c l, Instr.setBit 0 true ≠ .switch c l) ∧ Instr.setBit 0 true ≠ .attach ∧ Instr.setBit 0 true ≠ .stop :=
  ⟨_, rfl, by simp, by decide, by decide⟩
theorem witness_TransactionCounts_other :
    ∃ t, ((rdy 0 []).setInput [.rst]).nextCommand? = none ∧ step ((rdy 0 []).setInput [.rst]) = .next t :=
  ⟨_, rfl, rfl⟩
theorem witness_ConfigurationIsLatchedOnce :
    ∃ t, step ((rdy 0 []).setInput [.command 0x1000]) = .next t ∧
      ((rdy 0 []).setInput [.command 0x1000]).block.seq ≠ .uninitialized ∧
      ((rdy 0 []).setInput [.command 0x1000]).nextIsReset = false :=
  ⟨_, rfl, by decide, rfl⟩
theorem witness_SequencerEdges : ∃ t, step ((rdy 0 []).setInput [.command 0x2000]) = .next t := ⟨_, rfl⟩
theorem witness_StoppedIsForGood :
    ∃ t, (stp.setInput [.command 0x1000, .command 0x2000]).block.seq = .stopped ∧
      (∀ e ∈ (stp.setInput [.command 0x1000, .command 0x2000]).input, e ≠ .rst) ∧
      runSteps 3 (stp.setInput [.command 0x1000, .command 0x2000]) = .next t :=
  ⟨_, by decide, by decide, rfl⟩
/-- The invariant and the confirmed-state invariant hold in a state with a valid cell, after one switch. -/
def confirmed : State :=
  { (rdyKnown [okDraw]) with
    block := { blk .ready with cv := 0b10000000, cl := 0b10000000, lastRdValid := true, lastRd := 0xF0 },
    trace := [.bus (.write 0x20 0xF0 none)], input := [.command 0x3301] }
theorem witness_StepKeepsTheMachineInvariant : ∃ t, confirmed.Inv ∧ step confirmed = .next t := by
  refine ⟨_, ⟨by decide, by decide, by decide, ?_⟩, rfl⟩
  exact Nat.two_pow_pos _
theorem witness_StepKeepsConfirmedState :
    confirmed.Confirmed ∧ confirmed.block.known 7 = true ∧
      ∀ i, confirmed.nextCommand? = some i → i.primitiveWrite = false := by
  refine ⟨by decide, by decide, fun i h => ?_⟩
  cases (show confirmed.nextCommand? = some (.switch 3 true) from rfl).symm.trans h
  rfl
/-- Two states that differ only in what the spec leaves unspecified. -/
theorem witness_UnspecifiedValuesAreNeverSeen :
    (uni 0 0 []).visible = ((uni 0 0 []).setBlock { Block.reset with cl := 0xFF, lastRd := 0x5A, trig := 0xFF }).visible ∧
      uni 0 0 [] ≠ (uni 0 0 []).setBlock { Block.reset with cl := 0xFF, lastRd := 0x5A, trig := 0xFF } := by
  refine ⟨rfl, fun h => ?_⟩
  have := congrArg (fun s : State => s.block.trig) h
  revert this
  decide
theorem witness_SwitchNeverLooks :
    ∃ t u, exec (.switch 3 true) (rdyKnown [okDraw]) = .next t ∧
      exec (.switch 3 true) ((rdyKnown [okDraw]).setBus [(0x20, 0xFF)]) = .next u := ⟨_, _, rfl, rfl⟩
theorem witness_SetBitRace :
    (rdy 1 []).params.extAgents = true ∧ (rdy 1 []).block.seq = .ready ∧ okDraw.fail = none := by decide

end Sys2Proof.Tests
end

section
/-! SUPPORT. What one step can do: a command as the state in which its response is sent, and everything else that
arrives at the ports. Every invariant of 10_state.md is derived from these two lists. -/

namespace Sys2Proof.Machine

/-! ### What a command can do -/

/-- The state in which a command sends its response, in every case in which it answers one. A command that was
turned away by a check, or only looks, is `unchanged`. -/
inductive Effect (s : State) : Instr → State → Prop
  /-- Turned away, or answered from the block alone. -/
  | unchanged {i : Instr} (hattach : i = .attach → s.block.seq ≠ .uninitialized)
      (hstop : i = .stop → s.block.seq ≠ .ready) : Effect s i s
  /-- PORT_READ, GET_BIT, and SET_BIT when its read fails. -/
  | read {i : Instr} (hattach : i ≠ .attach) (hstop : i ≠ .stop) (hq : s.block.seq = .ready) :
      Effect s i (portRead s).2
  /-- PORT_WRITE and SET_ALL. -/
  | write {i : Instr} (v : Byte) (hi : i.primitiveWrite = true) (hq : s.block.seq = .ready) :
      Effect s i (portWrite v s).2
  /-- SET_BIT when its read is answered Ok. -/
  | readWrite {i : Instr} (v : Byte) (hi : i.primitiveWrite = true) (hq : s.block.seq = .ready) :
      Effect s i (portWrite v (portRead s).2).2
  /-- SWITCH. -/
  | switch (i : Idx) (c : Chan) (l : Bool) (hq : s.block.seq = .ready) :
      Effect s (.switch i l) (doSwitch c l s).2
  /-- ATTACH that finds an illegal address in the record it latched (R181 b). -/
  | attachRefused (b : Block) (hq : s.block.seq = .uninitialized)
      (hl : latchConfig s.params.devIdW s.cfgIn s.block = some b) (ha : b.addr ∉ s.params.validAddrs) :
      Effect s .attach (s.setBlock b)
  /-- ATTACH (R181). -/
  | attach (b : Block) (hq : s.block.seq = .uninitialized)
      (hl : latchConfig s.params.devIdW s.cfgIn s.block = some b) (ha : b.addr ∈ s.params.validAddrs) :
      Effect s .attach ((startupSweep (probe (s.setBlock b)).2).2.setBlock
        ((startupSweep (probe (s.setBlock b)).2).2.block.setSeq .ready))
  /-- STOP (R188). -/
  | stop (hq : s.block.seq = .ready) :
      Effect s .stop ((shutdownSweep s).2.setBlock ((shutdownSweep s).2.block.setSeq .stopped).invalidate)

/-- The outcome is the response of `i` sent in a state that `Effect` lists. -/
def Ends (i : Instr) (s : State) (o : Host.Outcome State Fault Refusal) : Prop :=
  ∀ t, o = .next t → ∃ u r, t = respond i.idx r u ∧ Effect s i u

/-- A response sent in a listed state. -/
theorem ends_respond {i : Instr} {s u : State} (r : Result) (h : Effect s i u) :
    Ends i s (.next (respond i.idx r u)) := by
  rintro t ⟨⟩
  exact ⟨u, r, rfl, h⟩

/-- A command behind the state check (R203). -/
theorem ends_requireReady {i : Instr} {s : State} {run : Host.Outcome State Fault Refusal} (hi : i ≠ .attach)
    (h : s.block.seq = .ready → Ends i s run) : Ends i s (requireReady i.idx s run) := by
  unfold requireReady
  split
  · exact h ‹_›
  · exact ends_respond _ (.unchanged (fun e => absurd e hi) fun _ => ‹_›)

/-- A command behind the index check (R204). -/
theorem ends_requireChan {i : Instr} {s : State} {run : Chan → Host.Outcome State Fault Refusal} (hi : i ≠ .attach)
    (hs : i ≠ .stop) (h : ∀ c, Ends i s (run c)) : Ends i s (requireChan i.idx s run) := by
  unfold requireChan
  split
  · exact ends_respond _ (.unchanged (fun e => absurd e hi) fun e => absurd e hs)
  · exact h _

/-- SET_BIT past its checks (R132): its read alone, or the read and a write. -/
theorem setBit_effect {s : State} (i : Idx) (c : Chan) (b : Bool) (hq : s.block.seq = .ready) :
    Effect s (.setBit i b) (setBit c b s).2 := by
  cases h : (s.drawAt 0).fail with
  | none => rw [setBit_ok c b s h]; exact .readWrite _ rfl hq
  | some e => rw [setBit_error c b s h]; exact .read nofun nofun hq

/-- ATTACH, in each case of R181. -/
theorem ends_attach (s : State) : Ends .attach s (execAttach s) := by
  unfold execAttach
  split
  · rename_i hq
    split
    · exact nofun
    · rename_i b hl
      split
      · rename_i ha
        exact ends_respond (i := .attach) _ (.attach b hq hl ha)
      · rename_i ha
        exact ends_respond (i := .attach) _ (.attachRefused b hq hl ha)
  · rename_i hq
    exact ends_respond (i := .attach) _ (.unchanged (fun _ => hq) nofun)

/-- Every command that answers a next state has done what `Effect` lists, and then sent its response. -/
theorem exec_effect (i : Instr) (s : State) : Ends i s (exec i s) := by
  have looks {j : Instr} (ha : j ≠ .attach) (hs : j ≠ .stop) (r : Result) :
      Ends j s (.next (respond j.idx r s)) :=
    ends_respond r (.unchanged (fun e => absurd e ha) fun e => absurd e hs)
  cases i with
  | isReady => exact looks (j := .isReady) nofun nofun _
  | attach => exact ends_attach s
  | stop => exact ends_requireReady (i := .stop) nofun fun hq => ends_respond (i := .stop) _ (.stop hq)
  | switch c l =>
    exact ends_requireReady (i := .switch c l) nofun fun hq => ends_requireChan (i := .switch c l) nofun nofun
      fun d => ends_respond (i := .switch c l) _ (.switch c d l hq)
  | read c =>
    exact ends_requireReady (i := .read c) nofun fun _ => ends_requireChan (i := .read c) nofun nofun
      fun d => looks (j := .read c) nofun nofun _
  | readAll => exact ends_requireReady (i := .readAll) nofun fun _ => looks (j := .readAll) nofun nofun _
  | isOn c => exact ends_requireChan (i := .isOn c) nofun nofun fun d => looks (j := .isOn c) nofun nofun _
  | portRead =>
    exact ends_requireReady (i := .portRead) nofun fun hq => ends_respond (i := .portRead) _ (.read nofun nofun hq)
  | portWrite v =>
    exact ends_requireReady (i := .portWrite v) nofun fun hq => ends_respond (i := .portWrite v) _ (.write v rfl hq)
  | getBit n =>
    exact ends_requireReady (i := .getBit n) nofun fun hq => ends_requireChan (i := .getBit n) nofun nofun
      fun c => ends_respond (i := .getBit n) _ (getBit_state c s ▸ .read nofun nofun hq)
  | setBit n b =>
    exact ends_requireReady (i := .setBit n b) nofun fun hq => ends_requireChan (i := .setBit n b) nofun nofun
      fun c => ends_respond (i := .setBit n b) _ (setBit_effect n c b hq)
  | setAll v =>
    exact ends_requireReady (i := .setAll v) nofun fun hq => ends_respond (i := .setAll v) _ (.write _ rfl hq)

/-! ### What a step can do -/

/-- What a step that serves no legal command and is no reset does: at most one response, and devices. -/
structure PortOnly (s t : State) : Prop where
  params : t.params = s.params
  block : t.block = s.block
  trace : ∃ rs : List RspWord, t.trace = s.trace ++ rs.map .response
  canonical : s.busCanonical → t.busCanonical

/-- Every step is a reset, serves a legal command, or does only what the ports do by themselves. -/
theorem step_cases {s t : State} (h : step s = .next t) :
    (∃ rest, s.nextIsReset = true ∧ s.nextCommand? = none ∧ t = (s.setInput rest).setBlock Block.reset) ∨
    (∃ i rest, s.nextIsReset = false ∧ s.nextCommand? = some i ∧ exec i (s.setInput rest) = .next t) ∨
    (s.nextIsReset = false ∧ s.nextCommand? = none ∧ PortOnly s t) := by
  unfold step at h
  unfold State.nextIsReset State.nextCommand?
  cases hin : s.input with
  | nil =>
    rw [hin] at h
    cases h
    exact .inr (.inr ⟨rfl, rfl, rfl, rfl, ⟨[], by simp⟩, id⟩)
  | cons e rest =>
    rw [hin] at h
    cases e with
    | command w =>
      dsimp only at h
      unfold serve at h
      rw [State.setInput_params] at h
      cases hd : decodePort s.params.primPort w with
      | error e =>
        rw [hd] at h
        cases h
        exact .inr (.inr ⟨rfl, by simp [hd], rfl, rfl, ⟨[_], rfl⟩, id⟩)
      | ok i =>
        rw [hd] at h
        exact .inr (.inl ⟨i, rest, rfl, by simp [hd], h⟩)
    | config c =>
      cases h
      exact .inr (.inr ⟨rfl, rfl, rfl, rfl, ⟨[], by simp⟩, id⟩)
    | rst =>
      cases h
      exact .inl ⟨rest, rfl, rfl, rfl⟩
    | foreign a v =>
      cases h
      refine .inr (.inr ⟨rfl, rfl, ?_⟩)
      split
      · exact ⟨rfl, rfl, ⟨[], by simp⟩, fun hc => (s.setInput rest).setDevice_wf a v hc⟩
      · exact ⟨rfl, rfl, ⟨[], by simp⟩, id⟩

end Sys2Proof.Machine
end

section
/-! SUPPORT. What an effect keeps of the configuration (R27, R28), and the sequencer state it leaves (R180). -/

namespace Sys2Proof.Machine

/-! ### The configuration record as latches -/

/-- The latches of `l` in a block that is otherwise `b`. -/
def Block.withLatches (b l : Block) : Block :=
  { l with seq := b.seq, cv := b.cv, cl := b.cl, lastRdValid := b.lastRdValid, lastRd := b.lastRd }

/-- Whether a record is latched, and what the latches then hold, does not depend on the block. -/
theorem latchConfig_map (k : Nat) (c : CfgIn) (b b' : Block) :
    latchConfig k c b' = (latchConfig k c b).map b'.withLatches := by
  unfold latchConfig
  split
  · split <;> rfl
  · rfl

/-- What a latched record leaves (R181): only the latches are new. -/
theorem latchConfig_some {k : Nat} {c : CfgIn} {b l : Block} (h : latchConfig k c b = some l) :
    l = b.withLatches l ∧ l.addr = cfgAddr c.cfgWord ∧ l.devId = c.devId % 2 ^ k := by
  unfold latchConfig at h
  split at h
  · split at h
    · cases h
      exact ⟨rfl, rfl, rfl⟩
    · cases h
  · cases h

/-! ### What keeps parameters, sequencer state and latches -/

/-- No latch changes. -/
theorem sameLatches_refl (b : Block) : sameLatches b b := ⟨rfl, rfl, rfl, rfl, rfl, rfl, rfl⟩

/-- The parameters, `SEQ` and the latches are kept. -/
structure SameConfig (s t : State) : Prop where
  params : t.params = s.params
  seq : t.block.seq = s.block.seq
  latches : sameLatches s.block t.block

/-- One after another. -/
theorem SameConfig.trans {s t u : State} (h : SameConfig s t) (h' : SameConfig t u) : SameConfig s u := by
  obtain ⟨a1, a2, a3, a4, a5, a6, a7⟩ := h.latches
  obtain ⟨b1, b2, b3, b4, b5, b6, b7⟩ := h'.latches
  exact ⟨h'.params.trans h.params, h'.seq.trans h.seq, b1.trans a1, b2.trans a2, b3.trans a3, b4.trans a4,
    b5.trans a5, b6.trans a6, b7.trans a7⟩

/-- `port_read` writes the last-read latch only (R120). -/
theorem portRead_sameConfig (s : State) : SameConfig s (portRead s).2 := by
  refine ⟨(portRead_traffic s).inputs.1, ?_, ?_⟩ <;> rw [portRead_block] <;> split
  · rfl
  · rfl
  · exact sameLatches_refl s.block
  · exact sameLatches_refl s.block

/-- `port_write` writes nothing in the block (R121). -/
theorem portWrite_sameConfig (v : Byte) (s : State) : SameConfig s (portWrite v s).2 := by
  refine ⟨(portWrite_traffic v s).inputs.1, ?_, ?_⟩ <;> rw [portWrite_block]
  exact sameLatches_refl s.block

/-- `do_switch` writes one cell only (R157). -/
theorem doSwitch_sameConfig (c : Chan) (l : Bool) (s : State) : SameConfig s (doSwitch c l s).2 := by
  refine ⟨(doSwitch_traffic c l s).inputs.1, ?_, ?_⟩ <;> rw [doSwitch_block] <;> split
  · rfl
  · rfl
  · exact sameLatches_refl s.block
  · exact sameLatches_refl s.block

/-- A sweep writes cells only. -/
theorem Swept.sameConfig {ph : Phase} {tr : Bool} {v : Vector TriCfg 8} {cs : List Chan} {f g : Byte} {s t : State}
    {new : List Obs} (h : Swept ph tr v cs f s new g t) : SameConfig s t := by
  refine ⟨h.traffic.inputs.1, ?_, ?_⟩ <;> rw [h.block]
  exact sameLatches_refl s.block

/-- The probe is `port_read` and, if that failed, a report (R183). -/
theorem probe_eq (s : State) :
    (probe s).2 = (portRead s).2 ∨ ∃ e, (probe s).2 = (portRead s).2.emit (.report .probe 0 (.busError e)) := by
  rw [probe_spec]
  cases (s.drawAt 0).fail with
  | none => exact .inl rfl
  | some e => exact .inr ⟨e, rfl⟩

/-- The probe writes the last-read latch only. -/
theorem probe_sameConfig (s : State) : SameConfig s (probe s).2 := by
  obtain ⟨hp, hq, hl⟩ := portRead_sameConfig s
  rw [← probe_block] at hq hl
  exact ⟨(probe_traffic s).inputs.1, hq, hl⟩

/-- ATTACH's probe and sweep keep the configuration just latched. -/
theorem startup_sameConfig (s : State) : SameConfig s (startupSweep (probe s).2).2 := by
  obtain ⟨_, h⟩ := startupSweep_swept (probe s).2
  exact (probe_sameConfig s).trans h.sameConfig

/-- STOP's sweep keeps the configuration. -/
theorem shutdown_sameConfig (s : State) : SameConfig s (shutdownSweep s).2 := by
  obtain ⟨_, h⟩ := shutdownSweep_swept s
  exact h.sameConfig

/-! ### The edges of the sequencer, and the latches past `Uninitialized` -/

/-- The sequencer's table (R180): the state a command leaves. -/
def nextSeq (i : Option Instr) (s : State) : Seq :=
  match i, s.block.seq with
  | some .attach, .uninitialized =>
    if cfgAddr s.cfgIn.cfgWord ∈ s.params.validAddrs then .ready else .uninitialized
  | some .stop, .ready => .stopped
  | _, q => q

/-- Only ATTACH in `Uninitialized` and STOP in `Ready` leave another state. -/
theorem nextSeq_same {i : Instr} {s : State} (ha : i = .attach → s.block.seq ≠ .uninitialized)
    (hs : i = .stop → s.block.seq ≠ .ready) : nextSeq (some i) s = s.block.seq := by
  unfold nextSeq
  split
  · rename_i he hq; exact absurd hq (ha (Option.some.inj he))
  · rename_i he hq; exact absurd hq (hs (Option.some.inj he))
  · rfl

/-- A primitive write is neither ATTACH nor STOP. -/
theorem nextSeq_primitiveWrite {i : Instr} (s : State) (hi : i.primitiveWrite = true) :
    nextSeq (some i) s = s.block.seq :=
  nextSeq_same (by rintro rfl; cases hi) (by rintro rfl; cases hi)

/-- Every effect leaves the sequencer state of the table. -/
theorem Effect.seq {s u : State} {i : Instr} (h : Effect s i u) : u.block.seq = nextSeq (some i) s := by
  cases h with
  | unchanged ha hs => exact (nextSeq_same ha hs).symm
  | read ha hs hq =>
    rw [nextSeq_same (fun e => absurd e ha) fun e => absurd e hs]
    exact (portRead_sameConfig s).seq
  | write v hi hq =>
    rw [nextSeq_primitiveWrite s hi]
    exact (portWrite_sameConfig v s).seq
  | readWrite v hi hq =>
    rw [nextSeq_primitiveWrite s hi]
    exact ((portRead_sameConfig s).trans (portWrite_sameConfig v _)).seq
  | switch n c l hq =>
    rw [nextSeq_same (i := .switch n l) nofun nofun]
    exact (doSwitch_sameConfig c l s).seq
  | attachRefused b hq hl ha =>
    obtain ⟨hb, hbaddr, -⟩ := latchConfig_some hl
    rw [State.setBlock_block, hb]
    simp [nextSeq, hq, ← hbaddr, ha, Block.withLatches]
  | attach b hq hl ha =>
    obtain ⟨-, hbaddr, -⟩ := latchConfig_some hl
    simp [nextSeq, hq, ← hbaddr, ha]
  | stop hq => simp [nextSeq, hq]

/-- Past `Uninitialized` no command changes a latch (R28). -/
theorem Effect.sameLatches {s u : State} {i : Instr} (h : Effect s i u) (hn : s.block.seq ≠ .uninitialized) :
    sameLatches s.block u.block := by
  cases h with
  | unchanged => exact sameLatches_refl _
  | read => exact (portRead_sameConfig s).latches
  | write v => exact (portWrite_sameConfig v s).latches
  | readWrite v => exact ((portRead_sameConfig s).trans (portWrite_sameConfig v _)).latches
  | switch n c l => exact (doSwitch_sameConfig c l s).latches
  | attachRefused b hq => exact absurd hq hn
  | attach b hq => exact absurd hq hn
  | stop =>
    have hw := (shutdown_sameConfig s).latches
    generalize (shutdownSweep s).2 = w at hw ⊢
    exact hw

/-- Settles O46: a command leaves the state of the table, and nothing else but a reset touches `SEQ`. -/
theorem sequencerEdges : Obligations.SequencerEdges := by
  intro s t h
  rcases step_cases h with ⟨rest, hr, hc, rfl⟩ | ⟨i, rest, hr, hc, he⟩ | ⟨hr, hc, hp⟩
  · rw [hr]; rfl
  · obtain ⟨u, r, rfl, hu⟩ := exec_effect i _ t he
    rw [hr, hc]
    exact hu.seq
  · rw [hr, hc, hp.block]; rfl

/-- Settles O45: a command keeps the latches past `Uninitialized`, and the ports keep the whole block. -/
theorem configurationIsLatchedOnce : Obligations.ConfigurationIsLatchedOnce := by
  intro s t h hn hnr
  rcases step_cases h with ⟨rest, hr, -⟩ | ⟨i, rest, -, -, he⟩ | ⟨-, -, hp⟩
  · rw [hr] at hnr; cases hnr
  · obtain ⟨u, r, rfl, hu⟩ := exec_effect i _ t he
    exact hu.sameLatches hn
  · rw [hp.block]; exact sameLatches_refl _

end Sys2Proof.Machine
end

section
/-! SUPPORT. The last-read latch (R25), the machine invariant (R24, R28, R34) and the confirmed-state invariant
(R23): what each effect does to them. -/

namespace Sys2Proof.Machine

/-! ### The last-read latch -/

/-- From `s` to `t` the last-read latch followed the reads answered Ok (R25). -/
def ReadsFollowed (s t : State) : Prop :=
  ∃ new, t.trace = s.trace ++ new ∧
    match lastOkRead new with
    | some v => t.block.lastRd = v ∧ t.block.lastRdValid = true
    | none => t.block.lastRd = s.block.lastRd ∧ t.block.lastRdValid = s.block.lastRdValid

/-- Output without a read answered Ok, the latch as it was. -/
theorem ReadsFollowed.of_noRead {s t : State} {new : List Obs} (ht : t.trace = s.trace ++ new)
    (hn : lastOkRead new = none) (hv : t.block.lastRd = s.block.lastRd)
    (hb : t.block.lastRdValid = s.block.lastRdValid) : ReadsFollowed s t :=
  ⟨new, ht, by rw [hn]; exact ⟨hv, hb⟩⟩

/-- One after another. -/
theorem ReadsFollowed.trans {s t u : State} (h : ReadsFollowed s t) (h' : ReadsFollowed t u) : ReadsFollowed s u := by
  obtain ⟨o, ht, hm⟩ := h
  obtain ⟨o', hu, hm'⟩ := h'
  refine ⟨o ++ o', by rw [hu, ht, List.append_assoc], ?_⟩
  rw [lastOkRead_append]
  cases ho' : lastOkRead o' with
  | some v => rw [ho'] at hm'; exact hm'
  | none =>
    rw [ho'] at hm'
    obtain ⟨hv, hb⟩ := hm'
    rw [Option.none_or, hv, hb]
    exact hm

/-- An event that is no read. -/
theorem ReadsFollowed.emit {s t : State} (h : ReadsFollowed s t) {o : Obs} (ho : o.okRead? = none) :
    ReadsFollowed s (t.emit o) :=
  h.trans (.of_noRead (new := [o]) rfl (by simp [lastOkRead, ho]) rfl rfl)

/-- `port_read` writes the byte it read (R120). -/
theorem portRead_readsFollowed (s : State) : ReadsFollowed s (portRead s).2 := by
  cases h : (s.drawAt 0).fail with
  | none =>
    rw [portRead_ok s h]
    exact ⟨[.bus (.read s.block.addr (.ok s.seenDevReg))], by simp, rfl, rfl⟩
  | some e =>
    rw [portRead_error s h]
    exact .of_noRead (new := [.bus (.read s.block.addr (.error e))]) (by simp) rfl (by simp) (by simp)

/-- `port_write` reads nothing (R121). -/
theorem portWrite_readsFollowed (v : Byte) (s : State) : ReadsFollowed s (portWrite v s).2 := by
  refine .of_noRead (portWrite_traffic v s).trace ?_ ?_ ?_
  · cases (s.drawAt 0).fail <;> rfl
  · rw [portWrite_block]
  · rw [portWrite_block]

/-- `do_switch` reads nothing (R157). -/
theorem doSwitch_readsFollowed (c : Chan) (l : Bool) (s : State) : ReadsFollowed s (doSwitch c l s).2 := by
  refine .of_noRead (doSwitch_traffic c l s).trace ?_ ?_ ?_
  · cases (s.drawAt 0).fail <;> rfl
  · rw [doSwitch_block]; split <;> rfl
  · rw [doSwitch_block]; split <;> rfl

/-- The probe's read counts as any other (R183). -/
theorem probe_readsFollowed (s : State) : ReadsFollowed s (probe s).2 := by
  rcases probe_eq s with h | ⟨e, h⟩ <;> rw [h]
  · exact portRead_readsFollowed s
  · exact (portRead_readsFollowed s).emit rfl

/-- The startup sweep reads nothing (R184). -/
theorem startupSweep_readsFollowed (s : State) : ReadsFollowed s (startupSweep s).2 := by
  obtain ⟨new, h⟩ := startupSweep_swept s
  exact .of_noRead h.traffic.trace h.noRead (by rw [h.block]) (by rw [h.block])

/-- Every command but STOP lets the latch follow its reads. -/
theorem Effect.readsFollowed {s u : State} {i : Instr} (h : Effect s i u) (hi : i ≠ .stop) : ReadsFollowed s u := by
  cases h with
  | unchanged => exact .of_noRead (new := []) (by simp) rfl rfl rfl
  | read => exact portRead_readsFollowed s
  | write v => exact portWrite_readsFollowed v s
  | readWrite v => exact (portRead_readsFollowed s).trans (portWrite_readsFollowed v _)
  | switch n c l => exact doSwitch_readsFollowed c l s
  | attachRefused b hq hl =>
    obtain ⟨hb, -⟩ := latchConfig_some hl
    exact .of_noRead (new := []) (by simp) rfl (by rw [State.setBlock_block, hb]; rfl)
      (by rw [State.setBlock_block, hb]; rfl)
  | attach b hq hl =>
    obtain ⟨hb, -⟩ := latchConfig_some hl
    have latched : ReadsFollowed s (s.setBlock b) :=
      .of_noRead (new := []) (by simp) rfl (by rw [State.setBlock_block, hb]; rfl)
        (by rw [State.setBlock_block, hb]; rfl)
    have run := (probe_readsFollowed (s.setBlock b)).trans (startupSweep_readsFollowed _)
    generalize (startupSweep (probe (s.setBlock b)).2).2 = w at run ⊢
    exact (latched.trans run).trans (.of_noRead (new := []) (by simp) rfl rfl rfl)
  | stop => exact absurd rfl hi

/-- Settles O44: the latch follows the reads of what the command did, and the response is no read. -/
theorem lastReadLatch : Obligations.LastReadLatch := by
  intro i s t h hi
  obtain ⟨u, r, rfl, hu⟩ := exec_effect i s t h
  exact (hu.readsFollowed hi).emit rfl

/-! ### The machine invariant -/

/-- In `Ready` the invariant is canonical registers, a legal address and an identity in its width. -/
theorem State.Inv.of_sameConfig {s t : State} (h : s.Inv) (hq : s.block.seq = .ready) (hc : SameConfig s t)
    (hb : t.busCanonical) : t.Inv := by
  obtain ⟨-, -, haddr, hdev⟩ := h
  obtain ⟨hp, hs, ha, hd, -⟩ := hc
  refine ⟨hb, fun hn => absurd (hs.trans hq) hn, fun _ => ?_, ?_⟩
  · rw [ha, hp]; exact haddr hq
  · unfold State.devIdFits; rw [hd, hp]; exact hdev

/-- The registers stay canonical over the probe. -/
theorem probe_wf (s : State) (h : s.busCanonical) : (probe s).2.busCanonical := by
  rcases probe_eq s with e | ⟨_, e⟩ <;> rw [e] <;> exact portRead_wf s h

/-- The registers stay canonical over ATTACH's probe and sweep. -/
theorem startup_wf (s : State) (h : s.busCanonical) : (startupSweep (probe s).2).2.busCanonical := by
  obtain ⟨_, hs⟩ := startupSweep_swept (probe s).2
  exact hs.canonical (probe_wf s h)

/-- Every effect keeps the invariant. -/
theorem Effect.inv {s u : State} {i : Instr} (h : Effect s i u) (hi : s.Inv) : u.Inv := by
  have hbus : s.busCanonical := hi.1
  cases h with
  | unchanged => exact hi
  | read _ _ hq => exact State.Inv.of_sameConfig hi hq (portRead_sameConfig s) (portRead_wf s hbus)
  | write v _ hq => exact State.Inv.of_sameConfig hi hq (portWrite_sameConfig v s) (portWrite_wf v s hbus)
  | readWrite v _ hq =>
    exact State.Inv.of_sameConfig hi hq ((portRead_sameConfig s).trans (portWrite_sameConfig v _))
      (portWrite_wf v _ (portRead_wf s hbus))
  | switch n c l hq => exact State.Inv.of_sameConfig hi hq (doSwitch_sameConfig c l s) (doSwitch_wf c l s hbus)
  | attachRefused b hq hl ha =>
    obtain ⟨hb, -, hd⟩ := latchConfig_some hl
    obtain ⟨-, hcache, -, -⟩ := hi
    have hbq : b.seq = .uninitialized := by rw [hb]; exact hq
    refine ⟨hbus, fun _ => ?_, fun hr => ?_, ?_⟩
    · rw [State.setBlock_block, hb]
      exact hcache (by simp [hq])
    · rw [State.setBlock_block, hbq] at hr; cases hr
    · change b.devId < _
      rw [hd]; exact Nat.mod_lt _ (Nat.two_pow_pos _)
  | attach b hq hl ha =>
    obtain ⟨-, -, hd⟩ := latchConfig_some hl
    have hw := startup_wf (s.setBlock b) hbus
    obtain ⟨hp, -, haddr, hdev, -⟩ := startup_sameConfig (s.setBlock b)
    generalize (startupSweep (probe (s.setBlock b)).2).2 = w at hw hp haddr hdev ⊢
    refine ⟨hw, fun hn => absurd rfl hn, fun _ => ?_, ?_⟩
    · change w.block.addr ∈ w.params.validAddrs
      rw [haddr, hp]; exact ha
    · change w.block.devId < 2 ^ w.params.devIdW
      rw [hdev, hp, State.setBlock_block, hd]; exact Nat.mod_lt _ (Nat.two_pow_pos _)
  | stop hq =>
    obtain ⟨_, hs⟩ := shutdownSweep_swept s
    obtain ⟨-, -, -, hfits⟩ := hi
    obtain ⟨hp, -, -, hdev, -⟩ := hs.sameConfig
    have hw := hs.canonical hbus
    generalize (shutdownSweep s).2 = w at hw hp hdev ⊢
    refine ⟨hw, fun _ => ⟨rfl, rfl⟩, nofun, ?_⟩
    change w.block.devId < 2 ^ w.params.devIdW
    rw [hdev, hp]; exact hfits

/-- Settles O48: reset clears what the invariant speaks of, every effect keeps it, and the ports touch devices only
by canonical writes. -/
theorem stepKeepsTheMachineInvariant : Obligations.StepKeepsTheMachineInvariant := by
  intro s t hi h
  rcases step_cases h with ⟨rest, -, -, rfl⟩ | ⟨i, rest, -, -, he⟩ | ⟨-, -, hp, hb, -, hc⟩
  · exact ⟨hi.1, fun _ => ⟨rfl, rfl⟩, nofun, Nat.two_pow_pos _⟩
  · obtain ⟨u, r, rfl, hu⟩ := exec_effect i _ t he
    exact hu.inv hi
  · obtain ⟨hbus, hcache, haddr, hdev⟩ := hi
    refine ⟨hc hbus, ?_, ?_, ?_⟩
    · unfold State.cacheOnlyInReady; rw [hb]; exact hcache
    · unfold State.addrLegal; rw [hb, hp]; exact haddr
    · unfold State.devIdFits; rw [hb, hp]; exact hdev

/-! ### The confirmed-state invariant -/

/-- A block without a valid cell. -/
theorem State.Confirmed.of_noCell {s : State} (h : s.block.cv = 0) : s.Confirmed := by
  intro c hc
  simp [Block.known, h] at hc

/-- Output without a write answered Ok, cells and polarity as they were. -/
theorem State.Confirmed.of_noWrite {s t : State} {new : List Obs} (h : s.Confirmed) (ht : t.trace = s.trace ++ new)
    (hn : lastOkWrite new = none) (hv : t.block.cv = s.block.cv) (hl : t.block.cl = s.block.cl)
    (ho : t.block.onState = s.block.onState) : t.Confirmed := by
  intro c hc
  unfold Block.known at hc
  rw [hv] at hc
  rw [ht, lastOkWrite_append, hn, Option.none_or, phys, hl, ho]
  exact h c hc

/-- An event that is no write. -/
theorem State.Confirmed.emit {s : State} (h : s.Confirmed) {o : Obs} (ho : o.okWrite? = none) : (s.emit o).Confirmed :=
  State.Confirmed.of_noWrite (new := [o]) h rfl (by simp [lastOkWrite, ho]) rfl rfl rfl

/-- `port_read` writes nothing to the device and no cell. -/
theorem portRead_confirmed (s : State) (h : s.Confirmed) : (portRead s).2.Confirmed := by
  refine State.Confirmed.of_noWrite h (portRead_traffic s).trace rfl ?_ ?_ ?_ <;> rw [portRead_block] <;> split <;> rfl

/-- Nor does the probe. -/
theorem probe_confirmed (s : State) (h : s.Confirmed) : (probe s).2.Confirmed := by
  rcases probe_eq s with e | ⟨_, e⟩ <;> rw [e]
  · exact portRead_confirmed s h
  · exact State.Confirmed.emit (portRead_confirmed s h) rfl

/-- The startup sweep, by its shared body. -/
theorem startupSweep_confirmed (s : State) (h : s.Confirmed) : (startupSweep s).2.Confirmed := by
  unfold startupSweep
  rw [startup_fold _ _ _ s rfl]
  exact sweep_confirmed _ _ _ _ _ _ h

/-- Every effect of a command that is no primitive write keeps the confirmed-state invariant; ATTACH, which brings
a new polarity, starts without a valid cell (R24). -/
theorem Effect.confirmed {s u : State} {i : Instr} (h : Effect s i u) (hi : s.Inv) (hc : s.Confirmed)
    (hw : i.primitiveWrite = false) : u.Confirmed := by
  have noCell {b : Block} (hq : s.block.seq = .uninitialized)
      (hl : latchConfig s.params.devIdW s.cfgIn s.block = some b) : (s.setBlock b).Confirmed := by
    obtain ⟨hb, -⟩ := latchConfig_some hl
    obtain ⟨-, hcache, -, -⟩ := hi
    apply State.Confirmed.of_noCell
    rw [State.setBlock_block, hb]
    exact (hcache (by simp [hq])).1
  cases h with
  | unchanged => exact hc
  | read => exact portRead_confirmed s hc
  | write v hp => rw [hw] at hp; cases hp
  | readWrite v hp => rw [hw] at hp; cases hp
  | switch n c l => exact doSwitch_confirmed c l s hc
  | attachRefused b hq hl => exact noCell hq hl
  | attach b hq hl =>
    have run := startupSweep_confirmed _ (probe_confirmed _ (noCell hq hl))
    generalize (startupSweep (probe (s.setBlock b)).2).2 = w at run ⊢
    exact run
  | stop => exact State.Confirmed.of_noCell rfl

/-- Settles O50: reset leaves no valid cell, no other effect of a command that is no primitive write breaks the
invariant, and what the ports put out is no write. -/
theorem stepKeepsConfirmedState : Obligations.StepKeepsConfirmedState := by
  intro s t hi hc hw h
  rcases step_cases h with ⟨rest, -, -, rfl⟩ | ⟨i, rest, -, hn, he⟩ | ⟨-, -, -, hb, ⟨rs, ht⟩, -⟩
  · exact State.Confirmed.of_noCell rfl
  · obtain ⟨u, r, rfl, hu⟩ := exec_effect i _ t he
    exact State.Confirmed.emit (hu.confirmed hi hc (hw i hn)) rfl
  · have quiet : lastOkWrite (rs.map .response) = none := by simp [lastOkWrite, Obs.okWrite?]
    exact State.Confirmed.of_noWrite hc ht quiet (by rw [hb]) (by rw [hb]) (by rw [hb])

end Sys2Proof.Machine
end

section
/-! SUPPORT. What the spec leaves unspecified (R22, R33, R40) is never seen. Two relations on states: `visible`
equal, which outside `Ready` says nothing of the latches, and `Alike`, which says that the latches are equal too.
Every bus operation answers alike in `Alike` states and leads to `Alike` states. -/

namespace Sys2Proof.Machine

/-! ### Blocks that differ only in what is unspecified -/

/-- Equal but for the latches, the level of a cell that is not valid, and `LASTRD` while never read. -/
structure Block.CellsAlike (b b' : Block) : Prop where
  seq : b.seq = b'.seq
  cv : b.cv = b'.cv
  cl : b.cl &&& b.cv = b'.cl &&& b'.cv
  lastRdValid : b.lastRdValid = b'.lastRdValid
  lastRd : b.lastRdValid = true → b.lastRd = b'.lastRd

/-- The latches that some rule reads are equal; no rule reads `NAME` (R33). -/
structure Block.LatchesAlike (b b' : Block) : Prop where
  addr : b.addr = b'.addr
  onState : b.onState = b'.onState
  startup : b.startup = b'.startup
  shutdown : b.shutdown = b'.shutdown
  trig : b.trig = b'.trig
  devId : b.devId = b'.devId

/-- Equal but for what has no meaning in any state of the sequencer. -/
structure Block.Alike (b b' : Block) : Prop extends Block.CellsAlike b b', Block.LatchesAlike b b'

/-- `visible` compares the cells, and in `Ready` the latches. -/
theorem Block.visible_eq_iff {b b' : Block} :
    b.visible = b'.visible ↔ b.CellsAlike b' ∧ (b.seq = .ready → b.LatchesAlike b') := by
  constructor
  · intro h
    simp only [Block.visible, Block.mk.injEq] at h
    obtain ⟨hseq, hcv, hcl, hvalid, hrd, haddr, hon, hup, hdown, htrig, -, hdev⟩ := h
    refine ⟨⟨hseq, hcv, hcl, hvalid, fun hv => ?_⟩, fun hq => ?_⟩
    · rwa [if_pos hv, if_pos (hvalid ▸ hv)] at hrd
    · have hq' : b'.seq = .ready := hseq ▸ hq
      simp only [hq, hq', beq_self_eq_true, if_true] at haddr hon hup hdown htrig hdev
      exact ⟨haddr, hon, hup, hdown, htrig, hdev⟩
  · rintro ⟨⟨hseq, hcv, hcl, hvalid, hrd⟩, hl⟩
    have hrd' : (if b.lastRdValid then b.lastRd else 0) = if b'.lastRdValid then b'.lastRd else 0 := by
      rw [← hvalid]
      split
      · exact hrd ‹_›
      · rfl
    simp only [Block.visible]
    rw [hrd', hcl, hseq, hcv, hvalid]
    by_cases hq : b.seq = .ready
    · obtain ⟨haddr, hon, hup, hdown, htrig, hdev⟩ := hl hq
      rw [haddr, hon, hup, hdown, htrig, hdev]
    · have hq' : b'.seq ≠ .ready := hseq ▸ hq
      simp only [beq_eq_false_iff_ne.2 hq', Bool.false_eq_true, if_false]

/-- Alike blocks are visibly equal. -/
theorem Block.Alike.visible {b b' : Block} (h : b.Alike b') : b.visible = b'.visible :=
  Block.visible_eq_iff.2 ⟨h.toCellsAlike, fun _ => h.toLatchesAlike⟩

namespace Block.CellsAlike
variable {b b' : Block}

/-- The same cells are valid. -/
theorem known (h : b.CellsAlike b') (c : Chan) : b.known c = b'.known c := by
  unfold Block.known; rw [h.cv]

/-- A valid cell has the same level. -/
theorem level (h : b.CellsAlike b') {c : Chan} (hk : b.known c = true) : extractBit b.cl c = extractBit b'.cl c := by
  have hk' : b'.known c = true := h.known c ▸ hk
  unfold Block.known at hk hk'
  have hc := congrArg (extractBit · c) h.cl
  simpa only [extractBit_and, hk, hk', Bool.and_true] using hc

/-- `cache_get` answers the same (R145). -/
theorem cacheGet (h : b.CellsAlike b') : cacheGet b = cacheGet b' := by
  funext c
  unfold Machine.cacheGet
  rw [← h.known c]
  split
  · rw [h.level ‹_›]
  · rfl

end Block.CellsAlike

namespace Block.Alike
variable {b b' : Block}

/-- The polarity map is the same (R155). -/
theorem phys (h : b.Alike b') (c : Chan) (l : Bool) : phys b c l = phys b' c l := by
  unfold Machine.phys; rw [h.onState]

/-- The shadow byte is the same (R26). -/
theorem shadowBit (h : b.Alike b') (c : Chan) : shadowBit b c = shadowBit b' c := by
  unfold Machine.shadowBit
  rw [← h.known c, ← h.lastRdValid]
  split
  · rw [h.phys, h.level ‹_›]
  · split
    · rw [h.lastRd ‹_›]
    · rfl

/-- A switch writes the same byte (R156). -/
theorem target (h : b.Alike b') (c : Chan) (l : Bool) : target b c l = target b' c l := by
  funext j
  unfold Machine.target
  rw [h.phys, h.shadowBit]

/-- The same byte read. -/
theorem setLastRd (h : b.Alike b') (v : Byte) : (b.setLastRd v).Alike (b'.setLastRd v) :=
  { h with lastRdValid := rfl, lastRd := fun _ => rfl }

/-- The same cell set. -/
theorem cacheSet (h : b.Alike b') (c : Chan) (l : Bool) : (cacheSet c l b).Alike (cacheSet c l b') := by
  refine { h with cv := ?_, cl := byte_ext fun j => ?_ }
  · rw [cacheSet_cv, cacheSet_cv, h.cv]
  · have hj := congrArg (extractBit · j) h.cl
    simp only [extractBit_and] at hj
    simp only [cacheSet_cv, cacheSet_cl, extractBit_and, extractBit_insertBit]
    split
    · rfl
    · exact hj

/-- The same sequencer state set. -/
theorem setSeq (h : b.Alike b') (q : Seq) : (b.setSeq q).Alike (b'.setSeq q) := { h with seq := rfl }

/-- Both invalidated (R190). -/
theorem invalidate (h : b.Alike b') : b.invalidate.Alike b'.invalidate :=
  { h with cv := rfl, cl := by simp, lastRdValid := rfl, lastRd := nofun }

end Block.Alike

/-! ### States and answers that differ only in what is unspecified -/

/-- Equal but for a block that is alike. -/
def State.Alike (s t : State) : Prop := ∃ b, t = s.setBlock b ∧ s.block.Alike b

/-- The same answer, and alike states. -/
def AlikeAnswer {α : Type} (r r' : α × State) : Prop := r.1 = r'.1 ∧ r.2.Alike r'.2

/-- The two answers as pairs. -/
theorem AlikeAnswer.pairs {α : Type} {r r' : α × State} (h : AlikeAnswer r r') :
    ∃ a u u', r = (a, u) ∧ r' = (a, u') ∧ u.Alike u' :=
  ⟨r.1, r.2, r'.2, rfl, Prod.ext h.1.symm rfl, h.2⟩

/-- Visibly equal states are equal but for a visibly equal block. -/
theorem State.visible_eq_iff {s t : State} :
    s.visible = t.visible ↔ ∃ b, t = s.setBlock b ∧ s.block.visible = b.visible := by
  constructor
  · intro h
    refine ⟨t.block, ?_, congrArg State.block h⟩
    exact State.ext_fields (congrArg State.params h).symm rfl (congrArg State.cfgIn h).symm
      (congrArg State.bus h).symm (congrArg State.oracle h).symm (congrArg State.drawn h).symm
      (congrArg State.input h).symm (congrArg State.trace h).symm
  · rintro ⟨b, rfl, h⟩
    exact congrArg s.setBlock h

namespace State.Alike
variable {s t : State}

/-- The blocks are alike. -/
theorem block (h : s.Alike t) : s.block.Alike t.block := by
  obtain ⟨b, rfl, hb⟩ := h
  exact hb

/-- No observer tells alike states apart. -/
theorem visible (h : s.Alike t) : s.visible = t.visible := by
  obtain ⟨b, rfl, hb⟩ := h
  exact State.visible_eq_iff.2 ⟨b, rfl, hb.visible⟩

/-- The same event put out. -/
theorem emit (h : s.Alike t) (o : Obs) : (s.emit o).Alike (t.emit o) := by
  obtain ⟨b, rfl, hb⟩ := h
  exact ⟨b, rfl, hb⟩

/-- Alike blocks put in. -/
theorem setBlock (h : s.Alike t) {b b' : Block} (hb : b.Alike b') : (s.setBlock b).Alike (t.setBlock b') := by
  obtain ⟨c, rfl, -⟩ := h
  exact ⟨b', rfl, hb⟩

/-- In `Ready`, visibly equal states are alike. -/
theorem of_ready (h : s.visible = t.visible) (hq : s.block.seq = .ready) : s.Alike t := by
  obtain ⟨b, rfl, hb⟩ := State.visible_eq_iff.1 h
  obtain ⟨hc, hl⟩ := Block.visible_eq_iff.1 hb
  exact ⟨b, rfl, { hc, hl hq with }⟩

end State.Alike

/-! ### The bus operations -/

/-- A transaction starts the same whatever the block holds, but for `ADDR`. -/
theorem State.startTx_setBlock (s : State) {b : Block} (h : b.addr = s.block.addr) :
    (s.setBlock b).startTx = s.startTx.setBlock b := by
  have hf (v : Option Byte) : (s.setBlock b).foreignStep v = (s.foreignStep v).setBlock b := by
    unfold State.foreignStep
    rw [State.setBlock_params, State.setBlock_block, h]
    split <;> rfl
  change ((s.setBlock b).foreignStep s.nextDraw.foreign).takeDraw = _
  rw [hf]
  rfl

/-- What the device is seen to hold depends on the block by `ADDR` only. -/
theorem State.seenDevReg_setBlock (s : State) {b : Block} (h : b.addr = s.block.addr) :
    (s.setBlock b).seenDevReg = s.seenDevReg := by
  rw [← s.startTx_device_self, ← h, ← State.device_setBlock s.startTx b, ← s.startTx_setBlock h]
  exact (State.startTx_device_self (s.setBlock b)).symm

section
variable {s t : State}

/-- Only `ADDR` decides what `port_read` answers. -/
theorem portRead_alike (h : s.Alike t) : AlikeAnswer (portRead s) (portRead t) := by
  obtain ⟨b, rfl, hb⟩ := h
  have ha := hb.addr.symm
  have hd : (s.setBlock b).drawAt 0 = s.drawAt 0 := rfl
  cases hf : (s.drawAt 0).fail with
  | none =>
    rw [portRead_ok s hf, portRead_ok _ (hd ▸ hf), s.startTx_setBlock ha, s.seenDevReg_setBlock ha,
      State.setBlock_block, ha]
    exact ⟨rfl, _, rfl, hb.setLastRd _⟩
  | some e =>
    rw [portRead_error s hf, portRead_error _ (hd ▸ hf), s.startTx_setBlock ha, State.setBlock_block, ha]
    exact ⟨rfl, b, rfl, by simpa using hb⟩

/-- Only `ADDR` decides what `port_write` answers. -/
theorem portWrite_alike (h : s.Alike t) (v : Byte) : AlikeAnswer (portWrite v s) (portWrite v t) := by
  obtain ⟨b, rfl, hb⟩ := h
  have ha := hb.addr.symm
  have hd : (s.setBlock b).drawAt 0 = s.drawAt 0 := rfl
  unfold portWrite
  cases hf : (s.drawAt 0).fail with
  | none =>
    rw [memWrite_ok v s hf, memWrite_ok v _ (hd ▸ hf), s.startTx_setBlock ha, State.setBlock_block, ha]
    exact ⟨rfl, b, rfl, by simpa using hb⟩
  | some e =>
    rw [memWrite_error v s hf, memWrite_error v _ (hd ▸ hf), s.startTx_setBlock ha, State.setBlock_block, ha, hd]
    refine ⟨rfl, b, ?_, ?_⟩
    · split <;> rfl
    · split <;> simpa using hb

/-- `get_bit` (R130). -/
theorem getBit_alike (h : s.Alike t) (c : Chan) : AlikeAnswer (getBit c s) (getBit c t) := by
  obtain ⟨a, u, u', e, e', hs⟩ := (portRead_alike h).pairs
  unfold getBit
  rw [e, e']
  cases a <;> exact ⟨rfl, hs⟩

/-- `set_bit`: the byte read, and so the byte written, is the same (R132). -/
theorem setBit_alike (h : s.Alike t) (c : Chan) (b : Bool) : AlikeAnswer (setBit c b s) (setBit c b t) := by
  obtain ⟨a, u, u', e, e', hs⟩ := (portRead_alike h).pairs
  unfold setBit
  rw [e, e']
  cases a with
  | ok v => exact portWrite_alike hs _
  | error e => exact ⟨rfl, hs⟩

/-- `do_switch`: the byte written and the cell set are the same (R157). -/
theorem doSwitch_alike (h : s.Alike t) (c : Chan) (l : Bool) : AlikeAnswer (doSwitch c l s) (doSwitch c l t) := by
  obtain ⟨a, u, u', e, e', hs⟩ := (portWrite_alike h (composeBits (target s.block c l))).pairs
  unfold doSwitch setAll
  rw [← h.block.target c l, e, e']
  cases a with
  | ok v => exact ⟨rfl, hs.setBlock (hs.block.cacheSet c l)⟩
  | error e => exact ⟨rfl, hs⟩

/-- The probe (R183). -/
theorem probe_alike (h : s.Alike t) : AlikeAnswer (probe s) (probe t) := by
  obtain ⟨a, u, u', e, e', hs⟩ := (portRead_alike h).pairs
  unfold probe
  rw [e, e']
  cases a with
  | ok v => exact ⟨rfl, hs⟩
  | error e => exact ⟨rfl, hs.emit _⟩

/-- One switch of a sweep: the trigger event is the same because `TRIG` and `DEV_ID` are. -/
theorem sweepSwitch_alike (ph : Phase) (tr : Bool) (c : Chan) (l : Bool) (f : Byte) (h : s.Alike t) :
    AlikeAnswer (sweepSwitch ph tr c l (f, s)) (sweepSwitch ph tr c l (f, t)) := by
  obtain ⟨a, u, u', e, e', hs⟩ := (doSwitch_alike h c l).pairs
  unfold sweepSwitch
  dsimp only
  rw [e, e']
  cases a with
  | ok v =>
    refine ⟨rfl, ?_⟩
    dsimp only
    rw [← hs.block.trig, ← hs.block.devId]
    split
    · exact hs.emit _
    · exact hs
  | error e => exact ⟨rfl, hs.emit _⟩

/-- One channel of a sweep. -/
theorem sweepOne_alike (ph : Phase) (tr : Bool) (v : Vector TriCfg 8) (c : Chan) (f : Byte) (h : s.Alike t) :
    AlikeAnswer (sweepOne ph tr v (f, s) c) (sweepOne ph tr v (f, t) c) := by
  unfold sweepOne
  split
  · exact ⟨rfl, h⟩
  · exact sweepSwitch_alike ph tr c _ f h

end

/-- A sweep over any channels. -/
theorem sweep_alike (ph : Phase) (tr : Bool) (v : Vector TriCfg 8) (cs : List Chan) :
    ∀ (f : Byte) {s t : State}, s.Alike t →
      AlikeAnswer (cs.foldl (sweepOne ph tr v) (f, s)) (cs.foldl (sweepOne ph tr v) (f, t)) := by
  induction cs with
  | nil => exact fun f s t h => ⟨rfl, h⟩
  | cons c cs ih =>
    intro f s t h
    obtain ⟨g, u, u', e, e', hs⟩ := (sweepOne_alike ph tr v c f h).pairs
    rw [List.foldl_cons, List.foldl_cons, e, e']
    exact ih g hs

/-- The startup sweep (R184). -/
theorem startupSweep_alike {s t : State} (h : s.Alike t) : AlikeAnswer (startupSweep s) (startupSweep t) := by
  unfold startupSweep
  rw [startup_fold s.block.startup _ _ s rfl, startup_fold s.block.startup _ _ t h.block.startup.symm]
  exact sweep_alike _ _ _ _ _ h

/-- The shutdown sweep (R189). -/
theorem shutdownSweep_alike {s t : State} (h : s.Alike t) : AlikeAnswer (shutdownSweep s) (shutdownSweep t) := by
  unfold shutdownSweep
  rw [shutdown_fold s.block.shutdown _ _ s rfl, shutdown_fold s.block.shutdown _ _ t h.block.shutdown.symm]
  exact sweep_alike _ _ _ _ _ h

/-! ### The commands -/

section
variable {s t : State}

/-- Visibly equal states have the same valid cells, levels and sequencer state. -/
theorem cellsAlike_of_visible (h : s.visible = t.visible) : s.block.CellsAlike t.block :=
  (Block.visible_eq_iff.1 (congrArg State.block h)).1

/-- The same response from visibly equal states. -/
theorem respond_same (ch : Idx) (r : Result) (h : s.visible = t.visible) :
    sameToObserver (.next (respond ch r s)) (.next (respond ch r t)) := by
  obtain ⟨b, rfl, hb⟩ := State.visible_eq_iff.1 h
  exact State.visible_eq_iff.2 ⟨b, rfl, hb⟩

/-- The end of a bus operation that answered the same. -/
theorem finish_same {α : Type} (ch : Idx) (data : α → BitVec 16) {r r' : Except Cause α × State}
    (h : AlikeAnswer r r') : sameToObserver (finish ch (withData r data)) (finish ch (withData r' data)) := by
  obtain ⟨a, u⟩ := r
  obtain ⟨a', u'⟩ := r'
  obtain ⟨rfl, hs⟩ := h
  exact respond_same ch _ hs.visible

/-- Behind the state check the states are alike (R203). -/
theorem requireReady_same (ch : Idx) (h : s.visible = t.visible) {run run' : Host.Outcome State Fault Refusal}
    (hr : s.block.seq = .ready → s.Alike t → sameToObserver run run') :
    sameToObserver (requireReady ch s run) (requireReady ch t run') := by
  unfold requireReady
  rw [← (cellsAlike_of_visible h).seq]
  split
  · rename_i hready
    exact hr hready (.of_ready h hready)
  · exact respond_same ch _ h

/-- The index check does not look at the state (R204). -/
theorem requireChan_same (i : Idx) (h : s.visible = t.visible) {run run' : Chan → Host.Outcome State Fault Refusal}
    (hr : ∀ c, sameToObserver (run c) (run' c)) : sameToObserver (requireChan i s run) (requireChan i t run') := by
  unfold requireChan
  split
  · exact respond_same i _ h
  · exact hr _

/-- ATTACH once the address is valid. -/
theorem attachRun_same (h : s.Alike t) : sameToObserver (attachRun s) (attachRun t) := by
  obtain ⟨hp, hps⟩ := probe_alike h
  obtain ⟨hf, hs⟩ := startupSweep_alike hps
  unfold attachRun
  dsimp only
  rw [hp, hf]
  exact respond_same 0 _ (hs.setBlock (hs.block.setSeq .ready)).visible

/-- ATTACH: the record overwrites every latch, so that past it the states are alike. -/
theorem execAttach_same (h : s.visible = t.visible) : sameToObserver (execAttach s) (execAttach t) := by
  have hc := cellsAlike_of_visible h
  obtain ⟨b, rfl, -⟩ := State.visible_eq_iff.1 h
  unfold execAttach
  rw [State.setBlock_params, State.setBlock_cfgIn, State.setBlock_block, ← show s.block.seq = b.seq from hc.seq,
    latchConfig_map s.params.devIdW s.cfgIn s.block b]
  split
  · cases hl : latchConfig s.params.devIdW s.cfgIn s.block with
    | none => rfl
    | some l =>
      obtain ⟨hb, -⟩ := latchConfig_some hl
      have latched : (s.setBlock l).Alike ((s.setBlock b).setBlock (b.withLatches l)) := by
        refine ⟨b.withLatches l, rfl, ?_⟩
        rw [State.setBlock_block, hb]
        exact ⟨⟨hc.seq, hc.cv, hc.cl, hc.lastRdValid, hc.lastRd⟩, ⟨rfl, rfl, rfl, rfl, rfl, rfl⟩⟩
      dsimp only [Option.map_some]
      rw [show (b.withLatches l).addr = l.addr from rfl]
      split
      · exact attachRun_same latched
      · exact respond_same 0 _ latched.visible
  · exact respond_same 0 _ h

/-- A command from visibly equal states is refused alike or leads to visibly equal states. -/
theorem exec_same (i : Instr) (h : s.visible = t.visible) : sameToObserver (exec i s) (exec i t) := by
  have hc := cellsAlike_of_visible h
  cases i with
  | isReady =>
    change sameToObserver (execIsReady s) (execIsReady t)
    unfold execIsReady Block.isReady
    rw [hc.seq]
    exact respond_same 0 _ h
  | attach => exact execAttach_same h
  | stop =>
    refine requireReady_same 0 h fun _ ha => ?_
    obtain ⟨hf, hs⟩ := shutdownSweep_alike ha
    rw [hf]
    exact respond_same 0 _ (hs.setBlock (hs.block.setSeq .stopped).invalidate).visible
  | switch c l =>
    exact requireReady_same c h fun _ ha => requireChan_same c h fun d => finish_same c _ (doSwitch_alike ha d l)
  | read c =>
    refine requireReady_same c h fun _ _ => requireChan_same c h fun d => ?_
    rw [hc.cacheGet]
    exact respond_same c _ h
  | readAll =>
    refine requireReady_same 0 h fun _ _ => ?_
    rw [hc.cacheGet]
    exact respond_same 0 _ h
  | isOn c =>
    refine requireChan_same c h fun d => ?_
    rw [hc.cacheGet]
    exact respond_same c _ h
  | portRead => exact requireReady_same 0 h fun _ ha => finish_same 0 _ (portRead_alike ha)
  | portWrite v => exact requireReady_same 0 h fun _ ha => finish_same 0 _ (portWrite_alike ha v)
  | getBit n =>
    exact requireReady_same n h fun _ ha => requireChan_same n h fun c => finish_same n _ (getBit_alike ha c)
  | setBit n b =>
    exact requireReady_same n h fun _ ha => requireChan_same n h fun c => finish_same n _ (setBit_alike ha c b)
  | setAll v => exact requireReady_same 0 h fun _ ha => finish_same 0 _ (portWrite_alike ha _)

/-! ### The ports -/

/-- A command word is decoded from the parameters and itself alone. -/
theorem serve_same (w : CmdWord) (h : s.visible = t.visible) : sameToObserver (serve w s) (serve w t) := by
  unfold serve
  rw [← show s.params = t.params from (congrArg State.params h :)]
  split
  · exact respond_same _ _ h
  · exact exec_same _ h

/-- Another agent does not look at the block. -/
theorem applyForeign_same (a : BusAddr) (v : Byte) (h : s.visible = t.visible) :
    sameToObserver (applyForeign a v s) (applyForeign a v t) := by
  obtain ⟨b, rfl, hb⟩ := State.visible_eq_iff.1 h
  unfold applyForeign
  rw [State.setBlock_params]
  split
  · exact State.visible_eq_iff.2 ⟨b, rfl, hb⟩
  · exact h

end

/-- Settles O53: the ports do not look at the block, and a command sees only what is visible. -/
theorem unspecifiedValuesAreNeverSeen : Obligations.UnspecifiedValuesAreNeverSeen := by
  intro s t h
  unfold step
  rw [← show s.input = t.input from (congrArg State.input h :)]
  cases s.input with
  | nil => exact h
  | cons e rest =>
    obtain ⟨b, rfl, hb⟩ := State.visible_eq_iff.1 h
    have taken : (s.setInput rest).visible = ((s.setBlock b).setInput rest).visible :=
      State.visible_eq_iff.2 ⟨b, rfl, hb⟩
    cases e with
    | command w => exact serve_same w taken
    | config c => exact State.visible_eq_iff.2 ⟨b, rfl, hb⟩
    | rst => rfl
    | foreign a v => exact applyForeign_same a v taken

end Sys2Proof.Machine
end

section
/-! SUPPORT. The shadow byte bit by bit (R26), and the state after reset (R40) with its two invariants. -/

namespace Sys2Proof.Machine

/-- Bit `j` of the shadow byte. -/
theorem extractBit_shadowByte (b : Block) (j : Chan) : extractBit (shadowByte b) j = shadowBit b j :=
  extractBit_composeBits _ j

/-- Settles O12: the three cases of a shadow bit. -/
theorem shadowByteBits : Obligations.ShadowByteBits := by
  intro b j
  rw [extractBit_shadowByte]
  unfold shadowBit Block.known
  refine ⟨fun hv => ?_, fun hv hr => ?_, fun hv hr => ?_⟩
  · rw [if_pos hv]
  · simp [hv, hr]
  · simp [hv, hr]

/-- Settles O40: nothing is listed, so every register reads as an unlisted one. -/
theorem resetState : Obligations.ResetState :=
  ⟨rfl, rfl, rfl, rfl, rfl, fun _ => rfl⟩

/-- Settles O49: outside `Ready` the invariant asks for cleared validity bits, canonical registers and `DEV_ID` 0. -/
theorem resetMeetsTheMachineInvariant : Obligations.ResetMeetsTheMachineInvariant :=
  ⟨State.reset_bus_wf, fun _ => ⟨rfl, rfl⟩, nofun, Nat.two_pow_pos _⟩

/-- Settles O51: no cell is valid after reset. -/
theorem resetIsConfirmed : Obligations.ResetIsConfirmed := State.Confirmed.of_noCell rfl

end Sys2Proof.Machine
end

section
/-! SUPPORT. The words of commands: the command of a word has its `IDX` in bits 11:8 (R82), and the command port of an
implementation reads the word of a command it has as that command (R84, R93 f). -/

namespace Sys2Proof

/-! ### The index of a decoded word -/

/-- Without operands the checked `IDX` is 0. -/
theorem decodePlain_idx {w : CmdWord} {i j : Instr} (hi : i.idx = 0) (h : decodePlain w i = .ok j) :
    j.idx = idxField w := by
  unfold decodePlain at h
  split at h
  · cases h
  · rename_i hz
    split at h
    · cases h
    · cases h
      rw [hi, Decidable.not_not.1 hz]

/-- An index operand is `IDX`. -/
theorem decodeIdx_idx {w : CmdWord} {k : Idx → Instr} {j : Instr} (hk : ∀ n, (k n).idx = n)
    (h : decodeIdx w k = .ok j) : j.idx = idxField w := by
  unfold decodeIdx at h
  split at h
  · cases h
  · cases h
    exact hk _

/-- An index operand is `IDX`, beside a bit too. -/
theorem decodeIdxBit_idx {w : CmdWord} {k : Idx → Bool → Instr} {j : Instr} (hk : ∀ n b, (k n b).idx = n)
    (h : decodeIdxBit w k = .ok j) : j.idx = idxField w := by
  unfold decodeIdxBit at h
  split at h
  · cases h
  · cases h
    exact hk _ _

/-- With a byte operand the checked `IDX` is 0. -/
theorem decodeByte_idx {w : CmdWord} {k : Byte → Instr} {j : Instr} (hk : ∀ v, (k v).idx = 0)
    (h : decodeByte w k = .ok j) : j.idx = idxField w := by
  unfold decodeByte at h
  split at h
  · cases h
  · rename_i hz
    cases h
    rw [hk, Decidable.not_not.1 hz]

/-- The index of a decoded command is the word's bits 11:8 (R82). -/
theorem decode_idx {w : CmdWord} {i : Instr} (h : decode w = .ok i) : i.idx = idxField w := by
  unfold decode at h
  split at h
  · exact decodePlain_idx rfl h
  · exact decodePlain_idx rfl h
  · exact decodePlain_idx rfl h
  · exact decodeIdxBit_idx (fun _ _ => rfl) h
  · exact decodeIdx_idx (fun _ => rfl) h
  · exact decodePlain_idx rfl h
  · exact decodeIdx_idx (fun _ => rfl) h
  · exact decodePlain_idx rfl h
  · exact decodeByte_idx (fun _ => rfl) h
  · exact decodeIdx_idx (fun _ => rfl) h
  · exact decodeIdxBit_idx (fun _ _ => rfl) h
  · exact decodeByte_idx (fun _ => rfl) h
  · cases h

/-- A word the port accepts decodes to its command. -/
theorem decode_of_decodePort {p : PrimPort} {w : CmdWord} {i : Instr} (h : decodePort p w = .ok i) :
    decode w = .ok i := by
  unfold decodePort at h
  split at h
  · cases h
  · exact h

/-! ### The word of a command -/

/-- A word without operands passes its checks. -/
theorem decodePlain_cmdWord (opc : BitVec 4) (i : Instr) : decodePlain (cmdWord opc 0#4 0#8) i = .ok i := by
  simp [decodePlain]

/-- An index operand is read back. -/
theorem decodeIdx_cmdWord (opc n : BitVec 4) (k : Idx → Instr) : decodeIdx (cmdWord opc n 0#8) k = .ok (k n) := by
  simp [decodeIdx]

/-- An index and a bit are read back. -/
theorem decodeIdxBit_cmdWord (opc n : BitVec 4) (b : Bool) (k : Idx → Bool → Instr) :
    decodeIdxBit (cmdWord opc n (bitData b)) k = .ok (k n b) := by
  obtain ⟨hz, hb⟩ := bitData_bit b
  rw [decodeIdxBit, levelBits_cmdWord, hz, if_neg (by simp), idxField_cmdWord, levelBit_cmdWord, hb]

/-- A byte operand is read back. -/
theorem decodeByte_cmdWord (opc : BitVec 4) (v : Byte) (k : Byte → Instr) :
    decodeByte (cmdWord opc 0#4 v) k = .ok (k v) := by
  simp [decodeByte]

/-- The word of a command decodes to it (R84). -/
theorem decode_encode (i : Instr) : decode (encode i) = .ok i := by
  unfold decode
  cases i with
  | isReady => simp [encode, decodePlain_cmdWord]
  | attach => simp [encode, decodePlain_cmdWord]
  | stop => simp [encode, decodePlain_cmdWord]
  | switch c d => simp [encode, decodeIdxBit_cmdWord]
  | read c => simp [encode, decodeIdx_cmdWord]
  | readAll => simp [encode, decodePlain_cmdWord]
  | isOn c => simp [encode, decodeIdx_cmdWord]
  | portRead => simp [encode, decodePlain_cmdWord]
  | portWrite v => simp [encode, decodeByte_cmdWord]
  | getBit n => simp [encode, decodeIdx_cmdWord]
  | setBit n b => simp [encode, decodeIdxBit_cmdWord]
  | setAll v => simp [encode, decodeByte_cmdWord]

/-- Bit 15 of a command's word marks the primitive group (R81). -/
theorem encode_groupBit (i : Instr) : (encode i).getLsbD 15 = i.primitive := by
  cases i <;> exact groupBit_cmdWord _ _ _

/-- At the command port the word of a command the implementation has decodes to it (R93 f). -/
theorem decodePort_encode {p : PrimPort} {i : Instr} (h : i.wellFormed p = true) : decodePort p (encode i) = .ok i := by
  unfold decodePort
  rw [encode_groupBit, decode_encode, if_neg]
  rintro ⟨rfl, hp⟩
  simp [Instr.wellFormed, hp] at h

/-- All 16 bits of a word are kept. -/
theorem tableWord_toNat (w : CmdWord) : tableWord 16 w.toNat = w := by
  simp [tableWord, Nat.mod_eq_of_lt w.isLt]

end Sys2Proof
end

section
/-! SUPPORT. The memory rules (20_memory.md): a step by what the host presents (R57), the traffic of a command with its
one response (R58, R59), and what writes the shadow cache (R62). -/

namespace Sys2Proof.Machine

/-! ### A step, by what the host presents -/

/-- With nothing presented the block waits (R208). -/
theorem step_nil {s : State} (h : s.input = []) : step s = .next s := by
  unfold step; rw [h]; rfl

/-- A new record stands on `cfg_in` (R27). -/
theorem step_config {s : State} {c : CfgIn} {rest : List HostEvent} (h : s.input = .config c :: rest) :
    step s = .next ((s.setInput rest).setCfgIn c) := by
  unfold step; rw [h]; rfl

/-- `rst` replaces the block (R240). -/
theorem step_rst {s : State} {rest : List HostEvent} (h : s.input = .rst :: rest) :
    step s = .next ((s.setInput rest).setBlock Block.reset) := by
  unfold step; rw [h]; rfl

/-- Another agent's write is applied on the state without it (R66). -/
theorem step_foreign {s : State} {a : BusAddr} {v : Byte} {rest : List HostEvent} (h : s.input = .foreign a v :: rest) :
    step s = applyForeign a v (s.setInput rest) := by
  unfold step; rw [h]

/-- A command word is served on the state without it. -/
theorem step_command {s : State} {w : CmdWord} {rest : List HostEvent} (h : s.input = .command w :: rest) :
    step s = serve w (s.setInput rest) := by
  unfold step; rw [h]

/-- A legal word is executed. -/
theorem serve_ok {s : State} {w : CmdWord} {i : Instr} (h : decodePort s.params.primPort w = .ok i) :
    serve w s = exec i s := by
  unfold serve; rw [h]

/-- An illegal word is answered (R93). -/
theorem serve_error {s : State} {w : CmdWord} {e : DecodeError} (h : decodePort s.params.primPort w = .error e) :
    serve w s = .next (respond (idxField w) (.err .illegalCommand) s) := by
  unfold serve; rw [h]; rfl

/-- Another agent between commands takes no draw. -/
theorem applyForeign_took {s t : State} {a : BusAddr} {v : Byte} (h : applyForeign a v s = .next t) :
    tookDraws 0 s t := by
  cases h
  split
  · exact tookDraws_refl s
  · exact tookDraws_refl s

/-- A step that serves no command takes no draw. -/
theorem step_took_of_noCommand {s t : State} (hn : s.nextCommand? = none) (h : step s = .next t) :
    tookDraws 0 s t := by
  cases hin : s.input with
  | nil =>
    rw [step_nil hin] at h
    cases h
    exact tookDraws_refl s
  | cons e rest =>
    cases e with
    | command w =>
      rw [step_command hin] at h
      cases hd : decodePort s.params.primPort w with
      | error e =>
        rw [serve_error (s := s.setInput rest) hd] at h
        cases h
        exact tookDraws_refl s
      | ok i => simp [State.nextCommand?, hin, hd] at hn
    | config c =>
      rw [step_config hin] at h
      cases h
      exact tookDraws_refl s
    | rst =>
      rw [step_rst hin] at h
      cases h
      exact tookDraws_refl s
    | foreign a v =>
      rw [step_foreign hin] at h
      exact applyForeign_took (s := s.setInput rest) h

/-- A step that serves no command puts out at most responses. -/
theorem step_trace_of_noCommand {s t : State} (hn : s.nextCommand? = none) (h : step s = .next t) :
    ∃ rs : List RspWord, t.trace = s.trace ++ rs.map .response := by
  rcases step_cases h with ⟨rest, -, -, rfl⟩ | ⟨i, rest, -, hi, -⟩ | ⟨-, -, hp⟩
  · exact ⟨[], by simp⟩
  · rw [hn] at hi; cases hi
  · exact hp.trace

/-- Responses are no transactions. -/
theorem busTxs_map_response (rs : List RspWord) : busTxs (rs.map .response) = [] := by
  simp [busTxs, Obs.tx?]

/-! ### A command's response -/

/-- A command's response comes after everything else it puts out. -/
theorem Served.trace {i : Instr} {n : Nat} {s t : State} {new : List Obs} {r : Result} (h : Served i n s t new r) :
    t.trace = s.trace ++ (new ++ [.response (rspWord i.idx r)]) := by
  obtain ⟨u, rfl, hu⟩ := h
  rw [respond, State.emit_trace, hu.trace, List.append_assoc]

/-- Only SWITCH, ATTACH and STOP have an effect on a cell. -/
theorem Effect.cells {s u : State} {i : Instr} (h : Effect s i u) (hw : ∀ c l, i ≠ .switch c l) (ha : i ≠ .attach)
    (hs : i ≠ .stop) : u.block.cv = s.block.cv ∧ u.block.cl = s.block.cl := by
  have read : (portRead s).2.block.cv = s.block.cv ∧ (portRead s).2.block.cl = s.block.cl := by
    rw [portRead_block]
    split
    · exact ⟨rfl, rfl⟩
    · exact ⟨rfl, rfl⟩
  cases h with
  | unchanged => exact ⟨rfl, rfl⟩
  | read => exact read
  | write v => rw [portWrite_block]; exact ⟨rfl, rfl⟩
  | readWrite v => rw [portWrite_block]; exact read
  | switch n c l => exact absurd rfl (hw n l)
  | attachRefused => exact absurd rfl ha
  | attach => exact absurd rfl ha
  | stop => exact absurd rfl hs

/-! ### The obligations -/

/-- Settles O9: an illegal word is answered with its own bits 11:8, a legal one with its command's index, which is
the same bits. -/
theorem oneResponseEndsEveryCommand : Obligations.OneResponseEndsEveryCommand := by
  intro s t w rest hin h
  rw [step_command hin] at h
  cases hd : decodePort s.params.primPort w with
  | error e =>
    rw [serve_error (s := s.setInput rest) hd] at h
    cases h
    exact ⟨[], .err .illegalCommand, by simp [respond], rfl⟩
  | ok i =>
    rw [serve_ok (s := s.setInput rest) hd] at h
    obtain ⟨new, r, hserved⟩ := exec_served h
    have htrace := hserved.trace
    obtain ⟨u, -, hu⟩ := hserved
    rw [decode_idx (decode_of_decodePort hd), ← List.append_assoc] at htrace
    exact ⟨new, r, htrace, hu.silent⟩

/-- Settles O41: a command's traffic has the count of R59 and its response is no transaction; what serves no command
puts out at most responses. -/
theorem transactionCounts : Obligations.TransactionCounts := by
  refine ⟨fun i s t h => ?_, fun s t hn h => ?_⟩
  · obtain ⟨new, r, hserved⟩ := exec_served h
    have htrace := hserved.trace
    obtain ⟨u, rfl, hu⟩ := hserved
    exact ⟨_, htrace, by simpa using hu.count, hu.draws⟩
  · obtain ⟨rs, ht⟩ := step_trace_of_noCommand hn h
    exact ⟨_, ht, busTxs_map_response rs, step_took_of_noCommand hn h⟩

/-- Settles O42: a command's traffic is all to the address latched at its end, and its response changes nothing. -/
theorem onlyTheAttachedDevice : Obligations.OnlyTheAttachedDevice := by
  intro i s t h
  obtain ⟨new, r, hserved⟩ := exec_served h
  have htrace := hserved.trace
  obtain ⟨u, rfl, hu⟩ := hserved
  exact ⟨hu.devices, hu.inputs, _, htrace, by simpa [respond] using hu.addrs⟩

/-- Settles O43: no other effect touches a cell, and neither does the response. -/
theorem cacheWrittenOnlyBySwitches : Obligations.CacheWrittenOnlyBySwitches := by
  intro i s t h hw ha hs
  obtain ⟨u, r, rfl, hu⟩ := exec_effect i s t h
  exact hu.cells hw ha hs

/-- Settles O38: a legal word is executed on the state with it taken, and a command's own word is legal. -/
theorem stepServesTheCommand : Obligations.StepServesTheCommand := by
  refine ⟨fun s w rest i hin hd => ?_, fun s i hi => ?_⟩
  · rw [step_command hin]
    exact serve_ok hd
  · unfold State.withFetchWord
    rw [tableWord_toNat, step_command (s := presentFirst (encode i) s) (rest := s.input) rfl]
    exact serve_ok (decodePort_encode hi)

end Sys2Proof.Machine
end

section
/-! SUPPORT. The decoder backwards, and the opcode table (30_encoding.md rules R80, R84): a decoded word is its command's
only word, and the words that select a row are the words of the row's commands. -/

namespace Sys2Proof

/-! ### A decoded word is made of its command's fields -/

/-- Without operands every bit below `OPC` is checked. -/
theorem encode_of_decodePlain {w : CmdWord} {n : Nat} {i j : Instr} (hi : encode i = cmdWord (BitVec.ofNat 4 n) 0 0)
    (ho : (opcField w).toNat = n) (h : decodePlain w i = .ok j) : encode j = w := by
  unfold decodePlain at h
  split at h
  · cases h
  · rename_i hidx
    split at h
    · cases h
    · rename_i hdata
      cases h
      rw [hi, ← ho, BitVec.ofNat_toNat, BitVec.setWidth_eq, ← Decidable.not_not.1 hidx,
        ← Decidable.not_not.1 hdata, cmdWord_fields]

/-- With an index operand all of `DATA` is checked. -/
theorem encode_of_decodeIdx {w : CmdWord} {n : Nat} {k : Idx → Instr} {j : Instr}
    (hk : ∀ c, encode (k c) = cmdWord (BitVec.ofNat 4 n) c 0) (ho : (opcField w).toNat = n)
    (h : decodeIdx w k = .ok j) : encode j = w := by
  unfold decodeIdx at h
  split at h
  · cases h
  · rename_i hdata
    cases h
    rw [hk, ← ho, BitVec.ofNat_toNat, BitVec.setWidth_eq, ← Decidable.not_not.1 hdata, cmdWord_fields]

/-- `DATA[7:1]` of a word are bits of its `DATA`. -/
theorem levelBits_eq (w : CmdWord) : w.extractLsb' 1 7 = (dataField w).extractLsb' 1 7 := by
  rw [← levelBits_cmdWord (opcField w) (idxField w), cmdWord_fields]

/-- `DATA[0]` of a word is a bit of its `DATA`. -/
theorem levelBit_eq (w : CmdWord) : w.getLsbD 0 = (dataField w).getLsbD 0 := by
  rw [← levelBit_cmdWord (opcField w) (idxField w), cmdWord_fields]

/-- With an index and a bit `DATA[7:1]` is checked. -/
theorem encode_of_decodeIdxBit {w : CmdWord} {n : Nat} {k : Idx → Bool → Instr} {j : Instr}
    (hk : ∀ c b, encode (k c b) = cmdWord (BitVec.ofNat 4 n) c (bitData b)) (ho : (opcField w).toNat = n)
    (h : decodeIdxBit w k = .ok j) : encode j = w := by
  unfold decodeIdxBit at h
  split at h
  · cases h
  · rename_i hlevel
    rw [levelBits_eq] at hlevel
    cases h
    rw [hk, ← ho, BitVec.ofNat_toNat, BitVec.setWidth_eq, levelBit_eq,
      bitData_of_zero _ (Decidable.not_not.1 hlevel), cmdWord_fields]

/-- With a byte operand `IDX` is checked. -/
theorem encode_of_decodeByte {w : CmdWord} {n : Nat} {k : Byte → Instr} {j : Instr}
    (hk : ∀ v, encode (k v) = cmdWord (BitVec.ofNat 4 n) 0 v) (ho : (opcField w).toNat = n)
    (h : decodeByte w k = .ok j) : encode j = w := by
  unfold decodeByte at h
  split at h
  · cases h
  · rename_i hidx
    cases h
    rw [hk, ← ho, BitVec.ofNat_toNat, BitVec.setWidth_eq, ← Decidable.not_not.1 hidx, cmdWord_fields]

/-- A word that decodes is the word of its command: R84 checks or keeps every bit. -/
theorem encode_of_decode {w : CmdWord} {i : Instr} (h : decode w = .ok i) : encode i = w := by
  unfold decode at h
  split at h
  case h_1 ho | h_2 ho | h_3 ho | h_6 ho | h_8 ho => exact encode_of_decodePlain rfl ho h
  case h_4 ho | h_11 ho => exact encode_of_decodeIdxBit (fun _ _ => rfl) ho h
  case h_5 ho | h_7 ho | h_10 ho => exact encode_of_decodeIdx (fun _ => rfl) ho h
  case h_9 ho | h_12 ho => exact encode_of_decodeByte (fun _ => rfl) ho h
  case h_13 => cases h

/-! ### The rows of the opcode table -/

/-- What the word of every command says about it (R81, R82, R84). -/
theorem wordForm (i : Instr) : Laws.WordForm.Statement i := by
  cases i with
  | isReady => exact Laws.WordForm.isReady
  | attach => exact Laws.WordForm.attach
  | stop => exact Laws.WordForm.stop
  | switch c d => exact Laws.WordForm.switch c d
  | read c => exact Laws.WordForm.read c
  | readAll => exact Laws.WordForm.readAll
  | isOn c => exact Laws.WordForm.isOn c
  | portRead => exact Laws.WordForm.portRead
  | portWrite v => exact Laws.WordForm.portWrite v
  | getBit n => exact Laws.WordForm.getBit n
  | setBit n b => exact Laws.WordForm.setBit n b
  | setAll v => exact Laws.WordForm.setAll v

/-- A decoded word selects the row of its command (R84). -/
theorem row_selects_of_decode {w : CmdWord} {i : Instr} (h : decode w = .ok i) :
    i.row ∈ opcodeTable ∧ i.row.selects w = true := by
  obtain ⟨hmem, hsel, -, -⟩ := wordForm i
  rw [encode_of_decode h] at hsel
  exact ⟨hmem, hsel⟩

/-- A row is selected field by field. -/
theorem OpRow.fields_of_selects {r : OpRow} {w : CmdWord} (h : r.selects w = true) :
    opcField w &&& opcField r.mask = opcField r.pattern ∧ idxField w &&& idxField r.mask = idxField r.pattern ∧
      dataField w &&& dataField r.mask = dataField r.pattern := by
  have hw : w &&& r.mask = r.pattern := by simpa [OpRow.selects] using h
  rw [← hw]
  exact ⟨BitVec.extractLsb'_and.symm, BitVec.extractLsb'_and.symm, BitVec.extractLsb'_and.symm⟩

/-- Every row compares the whole of `OPC` (R84). -/
theorem opcField_of_selects {r : OpRow} {w : CmdWord} (hr : r ∈ opcodeTable) (h : r.selects w = true) :
    opcField w = opcField r.pattern := by
  have hmask : ∀ r ∈ opcodeTable, opcField r.mask = BitVec.allOnes 4 := by decide
  obtain ⟨hopc, -, -⟩ := OpRow.fields_of_selects h
  rwa [hmask r hr, BitVec.and_allOnes] at hopc

/-- A row that compares `IDX` gives it. -/
theorem idxField_of_selects {r : OpRow} {w : CmdWord} (h : r.selects w = true)
    (hmask : idxField r.mask = BitVec.allOnes 4) : idxField w = idxField r.pattern := by
  obtain ⟨-, hidx, -⟩ := OpRow.fields_of_selects h
  rwa [hmask, BitVec.and_allOnes] at hidx

/-- A row that compares `DATA` gives it. -/
theorem dataField_of_selects {r : OpRow} {w : CmdWord} (h : r.selects w = true)
    (hmask : dataField r.mask = BitVec.allOnes 8) : dataField w = dataField r.pattern := by
  obtain ⟨-, -, hdata⟩ := OpRow.fields_of_selects h
  rwa [hmask, BitVec.and_allOnes] at hdata

/-- A row that compares `DATA[7:1]` with zero leaves one bit. -/
theorem bitData_of_selects {r : OpRow} {w : CmdWord} (h : r.selects w = true) (hmask : dataField r.mask = 0xFE)
    (hpattern : dataField r.pattern = 0) : ∃ b, dataField w = bitData b := by
  have one_bit : ∀ d : Byte, d &&& 0xFE = 0 → ∃ b, d = bitData b := by decide
  obtain ⟨-, -, hdata⟩ := OpRow.fields_of_selects h
  rw [hmask, hpattern] at hdata
  exact one_bit _ hdata

/-- The words that select a row of the table are words of commands. -/
theorem exists_encode_of_selects {r : OpRow} {w : CmdWord} (hr : r ∈ opcodeTable) (h : r.selects w = true) :
    ∃ i : Instr, encode i = w := by
  have of_fields (i : Instr) (hi : encode i = cmdWord (opcField r.pattern) (idxField w) (dataField w)) :
      ∃ i : Instr, encode i = w := by
    rw [← opcField_of_selects hr h, cmdWord_fields] at hi
    exact ⟨i, hi⟩
  have idx := idxField_of_selects h
  have data := dataField_of_selects h
  have bit := bitData_of_selects h
  simp only [opcodeTable, List.mem_cons, List.not_mem_nil, or_false] at hr
  rcases hr with rfl | rfl | rfl | rfl | rfl | rfl | rfl | rfl | rfl | rfl | rfl | rfl
  · exact of_fields .isReady (by rw [idx rfl, data rfl]; rfl)
  · exact of_fields .attach (by rw [idx rfl, data rfl]; rfl)
  · exact of_fields .stop (by rw [idx rfl, data rfl]; rfl)
  · obtain ⟨b, hb⟩ := bit rfl rfl
    exact of_fields (.switch (idxField w) b) (by rw [hb]; rfl)
  · exact of_fields (.read (idxField w)) (by rw [data rfl]; rfl)
  · exact of_fields .readAll (by rw [idx rfl, data rfl]; rfl)
  · exact of_fields (.isOn (idxField w)) (by rw [data rfl]; rfl)
  · exact of_fields .portRead (by rw [idx rfl, data rfl]; rfl)
  · exact of_fields (.portWrite (dataField w)) (by rw [idx rfl]; rfl)
  · exact of_fields (.getBit (idxField w)) (by rw [data rfl]; rfl)
  · obtain ⟨b, hb⟩ := bit rfl rfl
    exact of_fields (.setBit (idxField w) b) (by rw [hb]; rfl)
  · exact of_fields (.setAll (dataField w)) (by rw [idx rfl]; rfl)

/-- The words the decoder refuses are those no row selects (R84). -/
theorem decode_error_iff_no_row (w : CmdWord) :
    (∃ e, decode w = .error e) ↔ ∀ r ∈ opcodeTable, r.selects w = false := by
  constructor
  · rintro ⟨e, he⟩ r hr
    by_contra hsel
    obtain ⟨i, rfl⟩ := exists_encode_of_selects hr (Bool.not_eq_false _ ▸ hsel)
    rw [decode_encode] at he
    cases he
  · intro hnone
    cases hd : decode w with
    | error e => exact ⟨e, rfl⟩
    | ok i =>
      obtain ⟨hmem, hsel⟩ := row_selects_of_decode hd
      rw [hnone _ hmem] at hsel
      cases hsel

/-! ### The words of R93 -/

/-- Without operands the refused words have an `IDX` or a `DATA` (R93 b). -/
theorem decodePlain_error_iff (w : CmdWord) (i : Instr) :
    (∃ e, decodePlain w i = .error e) ↔ idxField w ≠ 0 ∨ dataField w ≠ 0 := by
  unfold decodePlain
  split
  · rename_i hidx
    exact iff_of_true ⟨_, rfl⟩ (.inl hidx)
  · rename_i hidx
    split
    · rename_i hdata
      exact iff_of_true ⟨_, rfl⟩ (.inr hdata)
    · rename_i hdata
      exact iff_of_false nofun (not_or.2 ⟨hidx, hdata⟩)

/-- With an index operand the refused words have a `DATA` (R93 d). -/
theorem decodeIdx_error_iff (w : CmdWord) (k : Idx → Instr) :
    (∃ e, decodeIdx w k = .error e) ↔ dataField w ≠ 0 := by
  unfold decodeIdx
  split
  · exact iff_of_true ⟨_, rfl⟩ ‹_›
  · exact iff_of_false nofun ‹_›

/-- With an index and a bit the refused words have a `DATA[7:1]` (R93 c). -/
theorem decodeIdxBit_error_iff (w : CmdWord) (k : Idx → Bool → Instr) :
    (∃ e, decodeIdxBit w k = .error e) ↔ w.extractLsb' 1 7 ≠ 0 := by
  unfold decodeIdxBit
  split
  · exact iff_of_true ⟨_, rfl⟩ ‹_›
  · exact iff_of_false nofun ‹_›

/-- With a byte operand the refused words have an `IDX` (R93 e). -/
theorem decodeByte_error_iff (w : CmdWord) (k : Byte → Instr) :
    (∃ e, decodeByte w k = .error e) ↔ idxField w ≠ 0 := by
  unfold decodeByte
  split
  · exact iff_of_true ⟨_, rfl⟩ ‹_›
  · exact iff_of_false nofun ‹_›

/-- The words of R93 (a) to (e). -/
def IllegalWord (w : CmdWord) : Prop :=
  (opcField w = 0x7 ∨ opcField w = 0xD ∨ opcField w = 0xE ∨ opcField w = 0xF) ∨
  ((opcField w = 0x0 ∨ opcField w = 0x1 ∨ opcField w = 0x2 ∨ opcField w = 0x5 ∨ opcField w = 0x8) ∧
    (idxField w ≠ 0 ∨ dataField w ≠ 0)) ∨
  ((opcField w = 0x3 ∨ opcField w = 0xB) ∧ w.extractLsb' 1 7 ≠ 0) ∨
  ((opcField w = 0x4 ∨ opcField w = 0x6 ∨ opcField w = 0xA) ∧ dataField w ≠ 0) ∨
  ((opcField w = 0x9 ∨ opcField w = 0xC) ∧ idxField w ≠ 0)

/-- The decoder refuses the words of R93 (a) to (e), opcode by opcode. -/
theorem decode_error_iff (w : CmdWord) : (∃ e, decode w = .error e) ↔ IllegalWord w := by
  have opc {n : Nat} (ho : (opcField w).toNat = n) : opcField w = BitVec.ofNat 4 n := by
    rw [← ho, BitVec.ofNat_toNat, BitVec.setWidth_eq]
  unfold decode IllegalWord
  split
  case h_1 ho | h_2 ho | h_3 ho | h_6 ho | h_8 ho => rw [decodePlain_error_iff]; simp [opc ho]
  case h_4 ho | h_11 ho => rw [decodeIdxBit_error_iff]; simp [opc ho]
  case h_5 ho | h_7 ho | h_10 ho => rw [decodeIdx_error_iff]; simp [opc ho]
  case h_9 ho | h_12 ho => rw [decodeByte_error_iff]; simp [opc ho]
  case h_13 =>
    have reserved : opcField w = 0x7 ∨ opcField w = 0xD ∨ opcField w = 0xE ∨ opcField w = 0xF := by
      simp only [imp_false] at *
      bv_omega
    exact iff_of_true ⟨_, rfl⟩ (.inl reserved)

/-- The command port refuses, beside those, the primitive group where it is sealed (R93 f). -/
theorem decodePort_error_iff (p : PrimPort) (w : CmdWord) :
    (∃ e, decodePort p w = .error e) ↔ IllegalWord w ∨ (p = .sealed ∧ w.getLsbD 15 = true) := by
  rw [← decode_error_iff]
  unfold decodePort
  split
  · rename_i hsealed
    exact iff_of_true ⟨_, rfl⟩ (.inr hsealed)
  · rename_i hsealed
    exact (or_iff_left hsealed).symm

/-! ### The obligations -/

/-- Settles O1: each word is the word of its command. -/
theorem knownWordsDecode : Obligations.KnownWordsDecode :=
  ⟨decode_encode .isReady, decode_encode .attach, decode_encode .stop, decode_encode (.switch 3 true),
    decode_encode (.switch 8 true), decode_encode (.read 7), decode_encode .readAll, decode_encode (.isOn 15),
    decode_encode .portRead, decode_encode (.portWrite 0xA5), decode_encode (.getBit 5),
    decode_encode (.setBit 5 true), decode_encode (.setAll 0x0F)⟩

/-- Settles O2: bit 15 marks the primitive group, so only commands a sealed block has not are turned away. -/
theorem decodeOfEncodeIsTheCommand : Obligations.DecodeOfEncodeIsTheCommand := fun _ _ => decodePort_encode

/-- Settles O3: every bit of a decoded word is `OPC`, an operand or checked to be zero. -/
theorem encodeOfDecodeIsTheWord : Obligations.EncodeOfDecodeIsTheWord := fun _ _ => encode_of_decode

/-- Settles O4: the two bytes together are the word again. -/
theorem bytesMostSignificantFirst : Obligations.BytesMostSignificantFirst := by
  intro i rest
  have hword : wordOfBytes ((encode i).extractLsb' 8 8) ((encode i).extractLsb' 0 8) = encode i :=
    BitVec.extractLsb'_append_extractLsb'
  refine ⟨rfl, ?_⟩
  simp only [encodeBytes, List.cons_append, List.nil_append, decodeBytes, hword, decode_encode]

/-- Settles O5: a selected row has the word's `OPC`, and the rows' are all different. -/
theorem eachWordSelectsAtMostOneRow : Obligations.EachWordSelectsAtMostOneRow := by
  have hdistinct : opcodeTable.Pairwise fun r r' => opcField r.pattern ≠ opcField r'.pattern := by decide
  refine ⟨fun w => hdistinct.imp_of_mem fun hr hr' hne hboth => ?_, fun w i => row_selects_of_decode⟩
  obtain ⟨hsel, hsel'⟩ := hboth
  exact hne ((opcField_of_selects hr hsel).symm.trans (opcField_of_selects hr' hsel'))

end Sys2Proof
end

section
/-! SUPPORT. The checks of a command in their order (30_encoding.md rule R100): an illegal word (R93), the state (R203), the
index (R204). -/

namespace Sys2Proof.Machine

/-- An illegal word is taken and answered, and nothing else happens (R93). -/
theorem step_of_illegal {s : State} {w : CmdWord} {rest : List HostEvent} {e : DecodeError}
    (hin : s.input = .command w :: rest) (he : decodePort s.params.primPort w = .error e) :
    step s = .next ((s.setInput rest).emit (.response (rspWord (idxField w) (.err .illegalCommand)))) := by
  rw [step_command hin, serve_error (s := s.setInput rest) he, respond]

/-- A legal word is taken and its command executed (R57). -/
theorem step_of_legal {s : State} {w : CmdWord} {rest : List HostEvent} {i : Instr}
    (hin : s.input = .command w :: rest) (hi : decodePort s.params.primPort w = .ok i) :
    step s = exec i (s.setInput rest) := by
  rw [step_command hin, serve_ok (s := s.setInput rest) hi]

/-! ### The state check -/

/-- The state check fails where the command requires another state (R203). -/
theorem stateOk_eq_false_iff {i : Instr} {s : State} :
    stateOk i s = false ↔ ∃ q, required i = some q ∧ s.block.seq ≠ q := by
  unfold stateOk
  split <;> simp [*]

/-- Outside `Ready` a command that requires it is turned away. -/
theorem requireReady_of_ne {s : State} (hq : s.block.seq ≠ .ready) (ch : Idx) (run : Host.Outcome State Fault Refusal) :
    requireReady ch s run = raise ch .notReady s := if_neg hq

/-- In `Ready` a command that requires it goes on. -/
theorem requireReady_of_ready {s : State} (hq : s.block.seq = .ready) (ch : Idx) (run : Host.Outcome State Fault Refusal) :
    requireReady ch s run = run := if_pos hq

/-- A command whose state check fails ends with `NotReady`, whatever its index (R203, R207). -/
theorem exec_of_stateOk_false {i : Instr} {s : State} (h : stateOk i s = false) :
    exec i s = raise i.idx .notReady s := by
  obtain ⟨q, hreq, hq⟩ := stateOk_eq_false_iff.1 h
  cases i with
  | isReady | isOn => cases hreq
  | attach => cases hreq; exact if_neg hq
  | stop | switch | read | readAll | portRead | portWrite | getBit | setBit | setAll =>
    cases hreq
    exact requireReady_of_ne hq _ _

/-! ### The index check -/

/-- An index above 7 is turned away (R204). -/
theorem requireChan_of_gt {i : Idx} (hi : 7 < i.toNat) (s : State) (run : Chan → Host.Outcome State Fault Refusal) :
    requireChan i s run = raise i .invalidChannel s := by
  rw [requireChan, chan?_none hi]

/-- A command that requires `Ready` and an index, in `Ready` with an index above 7. -/
theorem requireReady_requireChan_of_gt {i : Idx} {s : State} (hq : s.block.seq = .ready) (hi : 7 < i.toNat)
    (run : Chan → Host.Outcome State Fault Refusal) :
    requireReady i s (requireChan i s run) = raise i .invalidChannel s := by
  rw [requireReady_of_ready hq, requireChan_of_gt hi]

/-- Past the state check a command with an index above 7 ends with `InvalidChannel` (R204, R207). -/
theorem exec_of_idx_gt {i : Instr} {s : State} (h : stateOk i s = true) (hi : 7 < i.idx.toNat) :
    exec i s = raise i.idx .invalidChannel s := by
  have ready (hreq : required i = some .ready) : s.block.seq = .ready := by
    by_contra hq
    rw [stateOk_eq_false_iff.2 ⟨_, hreq, hq⟩] at h
    cases h
  cases i with
  | switch | read | getBit | setBit => exact requireReady_requireChan_of_gt (ready rfl) hi _
  | isOn => exact requireChan_of_gt hi s _
  | isReady | attach | stop | readAll | portRead | portWrite | setAll => cases hi

/-! ### The obligations -/

/-- Settles O6: the cases of R93 stand in the decoder's branches, and an illegal word is only answered. -/
theorem illegalWordsExactlyAsListed : Obligations.IllegalWordsExactlyAsListed := by
  refine ⟨fun p w => ?_, decode_error_iff_no_row, fun _ _ _ _ => step_of_illegal⟩
  rw [decodePort_error_iff]
  simp only [IllegalWord, or_assoc]

/-- Settles O36: a decoded command's index is the word's bits 11:8, and `exec` checks the state, then the index. -/
theorem firstFailingCheckDecides : Obligations.FirstFailingCheckDecides := by
  intro s w rest hin
  refine ⟨fun e => step_of_illegal hin, fun i hd hs => ?_, fun i hd hs hi => ?_, fun i => step_of_legal hin⟩
  · rw [step_of_legal hin hd, exec_of_stateOk_false (s := s.setInput rest) hs, decode_idx (decode_of_decodePort hd)]
    rfl
  · rw [step_of_legal hin hd, exec_of_idx_gt (s := s.setInput rest) hs hi, decode_idx (decode_of_decodePort hd)]
    rfl

end Sys2Proof.Machine
end

section
/-! SUPPORT. The fields of the response word, of its `DATA`, and of a report event (30_encoding.md rules R86 to R92, R99). -/

namespace Sys2Proof.Machine

/-! ### The response word -/

/-- Bits 31:29 of a response word (R86). -/
theorem rspWord_status (ch : Idx) (r : Result) : (rspWord ch r).extractLsb' 29 3 = r.status := by
  unfold rspWord
  rw [BitVec.extractLsb'_append_eq_of_le (by decide), BitVec.extractLsb'_append_eq_of_le (by decide),
    BitVec.extractLsb'_append_eq_of_le (by decide)]
  exact BitVec.extractLsb'_append_eq_left

/-- Bits 28:27 of a response word (R86). -/
theorem rspWord_causeField (ch : Idx) (r : Result) : (rspWord ch r).extractLsb' 27 2 = r.causeField := by
  unfold rspWord
  rw [BitVec.extractLsb'_append_eq_of_le (by decide), BitVec.extractLsb'_append_eq_of_le (by decide),
    BitVec.extractLsb'_append_eq_of_le (by decide)]
  exact BitVec.extractLsb'_append_eq_right

/-- Bits 26:23 of a response word (R86). -/
theorem rspWord_ch (ch : Idx) (r : Result) : (rspWord ch r).extractLsb' 23 4 = ch := by
  unfold rspWord
  rw [BitVec.extractLsb'_append_eq_of_le (by decide), BitVec.extractLsb'_append_eq_of_le (by decide)]
  exact BitVec.extractLsb'_append_eq_right

/-- Bits 22:16 of a response word (R86). -/
theorem rspWord_reserved (ch : Idx) (r : Result) : (rspWord ch r).extractLsb' 16 7 = 0 := by
  unfold rspWord
  rw [BitVec.extractLsb'_append_eq_of_le (by decide)]
  exact BitVec.extractLsb'_append_eq_right

/-- Bits 15:0 of a response word (R86). -/
theorem rspWord_data (ch : Idx) (r : Result) : (rspWord ch r).extractLsb' 0 16 = r.data :=
  BitVec.extractLsb'_append_eq_right

/-- Settles O7: the response word is its five fields, each with the codes of R88 and R89. -/
theorem responseWordFields : Obligations.ResponseWordFields := by
  intro ch r
  rw [rspWord_status, rspWord_causeField, rspWord_ch, rspWord_reserved, rspWord_data]
  refine ⟨?_, ?_, rfl, rfl, ?_, rfl⟩
  · cases r with
    | ok d => rfl
    | err k => cases k <;> rfl
  · cases r with
    | ok d => rfl
    | err k =>
      cases k with
      | busError c => cases c <;> rfl
      | invalidChannel | notReady | illegalCommand => rfl
  · cases r <;> rfl

/-! ### `DATA` -/

/-- Channel `c` of a READ_ALL response is in bits 2c+1:2c (R99). -/
theorem triAllRsp_lane (f : Chan → CacheLevel) (c : Chan) : (triAllRsp f).extractLsb' (2 * c.val) 2 = (f c).code := by
  have above {n k : Nat} (x : BitVec n) (y : BitVec 2) :
      (x ++ y).extractLsb' (k + 2) 2 = x.extractLsb' k 2 := BitVec.extractLsb'_append_eq_of_le (Nat.le_add_left 2 k)
  unfold triAllRsp
  fin_cases c
  -- channel 7 is the outermost field
  pick_goal 8
  · iterate 7 refine (above _ _).trans ?_
    exact BitVec.extractLsb'_eq_self
  all_goals
    repeat refine (above _ _).trans ?_
    exact BitVec.extractLsb'_append_eq_right

/-- Settles O8: each layout is a concatenation of its fields. -/
theorem responseDataLayout : Obligations.ResponseDataLayout := by
  refine ⟨fun v => ⟨?_, ?_⟩, fun v => ⟨?_, ?_⟩, triAllRsp_lane, fun fail pf => ⟨?_, ?_, ?_⟩⟩
  · exact BitVec.extractLsb'_append_eq_right
  · exact BitVec.extractLsb'_append_eq_left
  · exact BitVec.extractLsb'_append_eq_right
  · exact BitVec.extractLsb'_append_eq_left
  · exact BitVec.extractLsb'_append_eq_right
  · simp only [attachRsp, BitVec.getLsbD_append]
    simp
  · unfold attachRsp
    rw [BitVec.extractLsb'_append_eq_of_le (by decide)]
    exact BitVec.extractLsb'_append_eq_left

/-! ### Report events -/

/-- Settles O58: a channel fits 3 bits, and the codes are those of R92, R88 and R89. -/
theorem reportEventFields : Obligations.ReportEventFields := by
  intro p c k
  refine ⟨?_, ?_, ?_, ?_⟩
  · cases p <;> rfl
  · exact (BitVec.toNat_ofNat _ _).trans (Nat.mod_eq_of_lt c.isLt)
  · cases k <;> rfl
  · cases k with
    | busError c => cases c <;> rfl
    | invalidChannel | notReady | illegalCommand => rfl

end Sys2Proof.Machine
end

section
/-! SUPPORT. Assembler text (30_encoding.md rules R96, R97): the operand forms with their ranges and values, the lines
accepted, and a line for every command. -/

namespace Sys2Proof.Machine

/-! ### Operands -/

/-- The channel and index operands (R96). -/
theorem isIndex_iff {o : AsmOperand} : o.isIndex = true ↔ ∃ n, n ≤ 15 ∧ o = .num false n := by
  cases o with
  | num hex n => cases hex <;> simp [AsmOperand.isIndex]
  | level b => simp [AsmOperand.isIndex]

/-- The byte operands (R96). -/
theorem isByte_iff {o : AsmOperand} : o.isByte = true ↔ ∃ n, n ≤ 0xFF ∧ o = .num true n := by
  cases o with
  | num hex n => cases hex <;> simp [AsmOperand.isByte]
  | level b => simp [AsmOperand.isByte]

/-- A decimal number up to 15 is a channel or index operand. -/
theorem isIndex_num {n : Nat} (hn : n ≤ 15) : (AsmOperand.num false n).isIndex = true :=
  isIndex_iff.2 ⟨n, hn, rfl⟩

/-- A number up to 0xFF in hex or binary is a byte operand. -/
theorem isByte_num {n : Nat} (hn : n ≤ 0xFF) : (AsmOperand.num true n).isByte = true :=
  isByte_iff.2 ⟨n, hn, rfl⟩

/-- A number that is 0 or 1, as a bit. -/
theorem le_one_and_iff {n : Nat} {b : Bool} : n ≤ 1 ∧ (n == 1) = b ↔ (n = 0 ∧ b = false) ∨ (n = 1 ∧ b = true) := by
  rcases n with _ | _ | n <;> cases b <;> simp

/-- The bit operands with their values (R96). -/
theorem isBit_iff {o : AsmOperand} {b : Bool} :
    o.isBit = true ∧ (asmValue o == 1) = b ↔ (o, b) ∈ [(.num false 0, false), (.num false 1, true)] := by
  cases o with
  | num hex n => cases hex <;> simp [AsmOperand.isBit, asmValue, le_one_and_iff]
  | level l => simp [AsmOperand.isBit]

/-- The level operands with their values (R96, R87). -/
theorem isLevel_iff {o : AsmOperand} {d : Bool} :
    o.isLevel = true ∧ (asmValue o == 1) = d ↔
      (o, d) ∈ [(.level true, true), (.level false, false), (.num false 1, true), (.num false 0, false)] := by
  cases o with
  | num hex n => cases hex <;> simp [AsmOperand.isLevel, asmValue, le_one_and_iff, or_comm]
  | level l => cases l <;> simp [AsmOperand.isLevel, asmValue]

/-! ### Lines -/

/-- A line assembles when it is well formed, to the command it stands for (R96). -/
theorem assemble_eq_some {l : AsmLine} {i : Instr} :
    assemble l = some i ↔ l.wellFormed = true ∧ lineInstr? l = some i := by
  unfold assemble
  split <;> simp [*]

/-- Lines with the same check and the same command assemble alike. -/
theorem assemble_congr {l l' : AsmLine} (hw : l.wellFormed = l'.wellFormed) (hi : lineInstr? l = lineInstr? l') :
    assemble l = assemble l' := by
  rw [assemble, assemble, hw, hi]

/-- Settles O56: a pseudo-instruction has its expansion's operand check and command. -/
theorem pseudoInstructions : Obligations.PseudoInstructions := fun _ =>
  ⟨assemble_congr (Bool.and_true _).symm rfl, assemble_congr (Bool.and_true _).symm rfl, rfl, rfl⟩

/-- A line of a command: its mnemonic with its operands in the forms R96 gives them. -/
def lineOf : Instr → AsmLine
  | .isReady => ⟨.isReady, []⟩
  | .attach => ⟨.attach, []⟩
  | .stop => ⟨.stop, []⟩
  | .switch c d => ⟨.switch, [.num false c.toNat, .level d]⟩
  | .read c => ⟨.read, [.num false c.toNat]⟩
  | .readAll => ⟨.readAll, []⟩
  | .isOn c => ⟨.isOn, [.num false c.toNat]⟩
  | .portRead => ⟨.portRead, []⟩
  | .portWrite v => ⟨.portWrite, [.num true v.toNat]⟩
  | .getBit n => ⟨.getBit, [.num false n.toNat]⟩
  | .setBit n b => ⟨.setBit, [.num false n.toNat, .num false b.toNat]⟩
  | .setAll v => ⟨.setAll, [.num true v.toNat]⟩

/-- The line of a command assembles to it. -/
theorem assemble_lineOf (i : Instr) : assemble (lineOf i) = some i := by
  have index (c : Idx) : (AsmOperand.num false c.toNat).isIndex = true := isIndex_num (Nat.le_of_lt_succ c.isLt)
  have byte (v : Byte) : (AsmOperand.num true v.toNat).isByte = true := isByte_num (Nat.le_of_lt_succ v.isLt)
  rw [assemble_eq_some]
  cases i with
  | isReady | attach | stop | readAll | portRead => exact ⟨rfl, rfl⟩
  | switch c d => cases d <;> simp [lineOf, AsmLine.wellFormed, index, AsmOperand.isLevel, lineInstr?, asmValue]
  | read c | isOn c | getBit c => simp [lineOf, AsmLine.wellFormed, index, lineInstr?, asmValue]
  | portWrite v | setAll v => simp [lineOf, AsmLine.wellFormed, byte, lineInstr?, asmValue]
  | setBit n b => cases b <;> simp [lineOf, AsmLine.wellFormed, index, AsmOperand.isBit, lineInstr?, asmValue]

/-- Settles O57: the cases of well-formedness, with their operands' ranges, are the lines listed. -/
theorem assemblerAcceptsWellFormedLines : Obligations.AssemblerAcceptsWellFormedLines := by
  refine ⟨fun l i => ?_, fun i => ⟨lineOf i, assemble_lineOf i⟩⟩
  rw [assemble_eq_some]
  constructor
  · obtain ⟨op, os⟩ := l
    rintro ⟨hw, hi⟩
    unfold AsmLine.wellFormed at hw
    dsimp only at hw
    split at hw
    -- SWITCH, then SET_BIT: an index and a second operand
    case h_4 c o =>
      obtain ⟨hc, ho⟩ := (Bool.and_eq_true _ _).mp hw
      obtain ⟨n, hn, rfl⟩ := isIndex_iff.1 hc
      cases hi
      have hlevel := isLevel_iff.1 ⟨ho, rfl⟩
      iterate 3 refine .inr ?_
      exact .inl ⟨n, o, _, hn, hlevel, rfl, rfl⟩
    case h_11 c o =>
      obtain ⟨hc, ho⟩ := (Bool.and_eq_true _ _).mp hw
      obtain ⟨n, hn, rfl⟩ := isIndex_iff.1 hc
      cases hi
      have hbit := isBit_iff.1 ⟨ho, rfl⟩
      iterate 12 refine .inr ?_
      exact .inl ⟨n, o, _, hn, hbit, rfl, rfl⟩
    -- one index: READ, IS_ON, GET_BIT, ON, OFF; one byte: PORT_WRITE, SET_ALL; then no well-formed line
    case h_5 | h_7 | h_10 | h_13 | h_14 =>
      obtain ⟨n, hn, rfl⟩ := isIndex_iff.1 hw
      cases hi
      simp [asmValue, hn]
    case h_9 | h_12 =>
      obtain ⟨n, hn, rfl⟩ := isByte_iff.1 hw
      cases hi
      simp [asmValue, hn]
    case h_17 => cases hw
    all_goals
      cases hi
      simp
  · rintro (⟨rfl, rfl⟩ | ⟨rfl | rfl, rfl⟩ | ⟨rfl | rfl, rfl⟩ | ⟨c, o, d, hc, ho, rfl, rfl⟩ | ⟨c, hc, rfl, rfl⟩ |
      ⟨c, hc, rfl, rfl⟩ | ⟨c, hc, rfl, rfl⟩ | ⟨rfl, rfl⟩ | ⟨c, hc, rfl, rfl⟩ | ⟨rfl, rfl⟩ | ⟨v, hv, rfl, rfl⟩ |
      ⟨n, hn, rfl, rfl⟩ | ⟨n, o, b, hn, ho, rfl, rfl⟩ | ⟨v, hv, rfl, rfl⟩)
    · exact ⟨rfl, rfl⟩
    · exact ⟨rfl, rfl⟩
    · exact ⟨rfl, rfl⟩
    · exact ⟨rfl, rfl⟩
    · exact ⟨rfl, rfl⟩
    · obtain ⟨hlevel, rfl⟩ := isLevel_iff.2 ho
      exact ⟨(Bool.and_eq_true _ _).mpr ⟨isIndex_num hc, hlevel⟩, rfl⟩
    · exact ⟨isIndex_num hc, rfl⟩
    · exact ⟨isIndex_num hc, rfl⟩
    · exact ⟨isIndex_num hc, rfl⟩
    · exact ⟨rfl, rfl⟩
    · exact ⟨isIndex_num hc, rfl⟩
    · exact ⟨rfl, rfl⟩
    · exact ⟨isByte_num hv, rfl⟩
    · exact ⟨isIndex_num hn, rfl⟩
    · obtain ⟨hbit, rfl⟩ := isBit_iff.2 ho
      exact ⟨(Bool.and_eq_true _ _).mpr ⟨isIndex_num hn, hbit⟩, rfl⟩
    · exact ⟨isByte_num hv, rfl⟩

end Sys2Proof.Machine
end

section
/-! SUPPORT. The words of the primitive group (30_encoding.md rules R81, R93 f): the command port reads them only where it
is exposed. -/

namespace Sys2Proof

/-- A word is made of given fields exactly if it has them. -/
theorem eq_cmdWord_iff {w : CmdWord} {opc idx : BitVec 4} {d : Byte} :
    w = cmdWord opc idx d ↔ opcField w = opc ∧ idxField w = idx ∧ dataField w = d := by
  constructor
  · rintro rfl
    simp
  · rintro ⟨rfl, rfl, rfl⟩
    exact (cmdWord_fields w).symm

/-- Bit 15 of a word is `OPC[3]` (R81). -/
theorem groupBit_eq (w : CmdWord) : w.getLsbD 15 = (opcField w).getLsbD 3 := by
  rw [← groupBit_cmdWord (opcField w) (idxField w) (dataField w), cmdWord_fields]

/-- The port reads as a primitive command its one word, where it is exposed. -/
theorem decodePort_primitive_iff {p : PrimPort} {w : CmdWord} {i : Instr} (hi : i.primitive = true) :
    decodePort p w = .ok i ↔ p = .exposed ∧ w = encode i := by
  constructor
  · intro h
    obtain rfl := encode_of_decode (decode_of_decodePort h)
    cases p with
    | exposed => exact ⟨rfl, rfl⟩
    | sealed => rw [decodePort, if_pos ⟨rfl, (encode_groupBit i).trans hi⟩] at h; cases h
  · rintro ⟨rfl, rfl⟩
    exact decodePort_encode rfl

/-- A word of the primitive group is refused by a sealed port, and by every port where R93 (a) to (e) lists it. -/
theorem decodePort_primitive_error {p : PrimPort} {w : CmdWord} (hg : (opcField w).getLsbD 3 = true)
    (h : p = .sealed ∨ IllegalWord w) : ∃ e, decodePort p w = .error e := by
  rw [decodePort_error_iff, groupBit_eq]
  exact h.symm.imp_right fun hp => ⟨hp, hg⟩

end Sys2Proof
end

section
/-! SUPPORT. The commands of one bus operation (40_register_port.md, 41_bit_view.md): what the operation leaves in the device
register, and what the state check (60_exceptions.md rule R203), the operation and its response (R205) are together. -/

namespace Sys2Proof.Machine

/-! ### The operations of the Register Port -/

/-- `port_read` leaves the byte that stands there when it is performed (R53 a, d). -/
theorem portRead_device (s : State) : (portRead s).2.device s.block.addr = s.seenDevReg := by
  cases h : (s.drawAt 0).fail with
  | none => simp [portRead_ok s h]
  | some e => simp [portRead_error s h]

/-- What `port_write` answers (R121). -/
theorem portWrite_answer (v : Byte) (s : State) :
    (portWrite v s).1 = match (s.drawAt 0).fail with | none => .ok () | some e => .error e := by
  cases h : (s.drawAt 0).fail with
  | none => rw [portWrite, memWrite_ok v s h]
  | some e => rw [portWrite, memWrite_error v s h]

/-- `port_write` answered Ok leaves its byte (R53 b). -/
theorem portWrite_device_ok (v : Byte) {s : State} (h : (s.drawAt 0).fail = none) :
    (portWrite v s).2.device s.block.addr = v := by
  simp [portWrite, memWrite_ok v s h]

/-- `port_write` answered Err leaves its byte, or the one that stood there when it was performed (R53 c). -/
theorem portWrite_device_error (v : Byte) {s : State} {e : Cause} (h : (s.drawAt 0).fail = some e) :
    (portWrite v s).2.device s.block.addr = if (s.drawAt 0).landed then v else s.seenDevReg := by
  rw [portWrite, memWrite_error v s h, State.device_emit]
  split
  · exact State.device_setDevice_same _ _ _
  · exact s.startTx_device_self

/-! ### The end of a command -/

/-- A byte in a response is its `DATA`, zero-extended (R99). -/
theorem byteRsp_eq_setWidth (v : Byte) : byteRsp v = v.setWidth 16 :=
  (BitVec.setWidth_eq_append (by decide)).symm

/-- In `Ready`, an operation answered Ok ends its command with its data. -/
theorem requireReady_finish_ok {α : Type} {s : State} {r : Except Cause α × State} {a : α}
    (hq : s.block.seq = .ready) (hr : r.1 = .ok a) (ch : Idx) (data : α → BitVec 16) :
    requireReady ch s (finish ch (withData r data)) = .next (respond ch (.ok (data a)) r.2) := by
  rw [requireReady_of_ready hq, finish, withData, hr]

/-- In `Ready`, an operation answered Err ends its command with `BusError` and the cause (R205). -/
theorem requireReady_finish_error {α : Type} {s : State} {r : Except Cause α × State} {e : Cause}
    (hq : s.block.seq = .ready) (hr : r.1 = .error e) (ch : Idx) (data : α → BitVec 16) :
    requireReady ch s (finish ch (withData r data)) = .next (respond ch (.err (.busError e)) r.2) := by
  rw [requireReady_of_ready hq, finish, withData, hr]

/-- What there is to see of a command that ends with a response after the traffic `new`. -/
theorem Traffic.answered {a : BusAddr} {n : Nat} {new : List Obs} {s u : State} (h : Traffic a n new s u)
    {o : Host.Outcome State Fault Refusal} {ch : Idx} {r : Result} (ho : o = .next (respond ch r u)) :
    ∃ t, o = .next t ∧ t.block = u.block ∧ t.trace = s.trace ++ (new ++ [.response (rspWord ch r)]) ∧
      t.device a = u.device a ∧ sameDevicesBut a s t ∧ sameInputs s t ∧ tookDraws n s t := by
  refine ⟨_, ho, rfl, ?_, rfl, h.devices, h.inputs, h.draws⟩
  rw [respond, State.emit_trace, h.trace, List.append_assoc]

/-! ### PORT_READ -/

/-- Settles O18: the one read is `port_read`'s, and its answer decides the latch and the response. -/
theorem portReadCompletes : Obligations.PortReadCompletes := by
  refine ⟨fun p w => decodePort_primitive_iff rfl, fun p w ho hw => ?_, fun s hq hf => ?_, fun s e hq hf => ?_,
    fun s hq => requireReady_of_ne hq _ _⟩
  · have operands : w ≠ 0x8000 → idxField w ≠ 0 ∨ dataField w ≠ 0 := by
      intro hne
      by_contra hz
      obtain ⟨hidx, hdata⟩ := not_or.1 hz
      exact hne (eq_cmdWord_iff.2 ⟨ho, Decidable.not_not.1 hidx, Decidable.not_not.1 hdata⟩)
    refine decodePort_primitive_error (by rw [ho]; rfl) (hw.imp_right fun hne => ?_)
    exact .inr (.inl ⟨by simp [ho], operands hne⟩)
  · have answer : (portRead s).1 = .ok s.seenDevReg := by rw [portRead_answer, hf]
    have traffic := portRead_traffic s
    rw [answer] at traffic
    have block : (portRead s).2.block = s.block.setLastRd s.seenDevReg := by rw [portRead_block, if_pos hf]
    have served := traffic.answered (o := exec .portRead s) (requireReady_finish_ok hq answer 0 byteRsp)
    rwa [block, portRead_device, byteRsp_eq_setWidth] at served
  · have answer : (portRead s).1 = .error e := by rw [portRead_answer, hf]
    have traffic := portRead_traffic s
    rw [answer] at traffic
    have block : (portRead s).2.block = s.block := by rw [portRead_block, if_neg (by simp [hf])]
    have served := traffic.answered (o := exec .portRead s) (requireReady_finish_error hq answer 0 byteRsp)
    rwa [block, portRead_device] at served

/-! ### PORT_WRITE and SET_ALL -/

/-- PORT_WRITE and SET_ALL are the same `port_write` behind the state check: SET_ALL's sequence of bits is composed to
the operand again (R124, R137). -/
theorem exec_portWrite_or_setAll {i : Instr} {v : Byte} (hi : i = .portWrite v ∨ i = .setAll v) (s : State) :
    exec i s = requireReady 0 s (finish 0 (withData (portWrite v s) fun _ => 0)) := by
  rcases hi with rfl | rfl
  · rfl
  · rw [exec, execSetAll, setAll, composeBits_extractBit]

/-- Settles O19: both commands are one `port_write` of the operand. -/
theorem portWriteAndSetAllComplete : Obligations.PortWriteAndSetAllComplete := by
  refine ⟨fun p w v => ⟨?_, ?_⟩, fun p w ho hw => ?_, fun s v i hi hq hf => ?_, fun s v i e hi hq hf => ?_,
    fun s v i hi hq => ?_⟩
  · rw [decodePort_primitive_iff rfl, encode, eq_cmdWord_iff]
  · rw [decodePort_primitive_iff rfl, encode, eq_cmdWord_iff]
  · have group : (opcField w).getLsbD 3 = true := by rcases ho with ho | ho <;> rw [ho] <;> rfl
    exact decodePort_primitive_error group (hw.imp_right fun hidx => .inr (.inr (.inr (.inr ⟨ho, hidx⟩))))
  · have answer : (portWrite v s).1 = .ok () := by rw [portWrite_answer, hf]
    have traffic := portWrite_traffic v s
    rw [hf] at traffic
    have served := traffic.answered (requireReady_finish_ok hq answer 0 fun _ => 0)
    rwa [← exec_portWrite_or_setAll hi, portWrite_block, portWrite_device_ok v hf] at served
  · have answer : (portWrite v s).1 = .error e := by rw [portWrite_answer, hf]
    have traffic := portWrite_traffic v s
    rw [hf] at traffic
    have served := traffic.answered (requireReady_finish_error hq answer 0 fun _ => 0)
    rwa [← exec_portWrite_or_setAll hi, portWrite_block, portWrite_device_error v hf] at served
  · rw [exec_portWrite_or_setAll hi, requireReady_of_ne hq]
    rfl

end Sys2Proof.Machine
end

section
/-! SUPPORT. The arithmetic of single bits (41_bit_view.md rule R138). -/

namespace Sys2Proof.Machine

/-- A composed byte, one bit at a time from the top. -/
theorem toNat_append_ofBool {n : Nat} (x : BitVec n) (b : Bool) :
    (x ++ BitVec.ofBool b).toNat = x.toNat * 2 + b.toNat := BitVec.toNat_concat x b

/-- The value of a composed byte is the sum of its bits, each shifted to its place. -/
theorem composeBits_toNat (t : Chan → Bool) : (composeBits t).toNat = ∑ j : Chan, (t j).toNat <<< j.val := by
  simp only [composeBits, toNat_append_ofBool, BitVec.toNat_ofBool, Fin.sum_univ_eight, Fin.coe_ofNat_eq_mod,
    Nat.reduceMod, Nat.shiftLeft_eq]
  omega

/-- One bit of a byte, shifted down and masked. -/
theorem extractBit_toNat (r : Byte) (i : Chan) : (extractBit r i).toNat = ((r >>> i.val) &&& 1).toNat := by
  rw [extractBit, BitVec.getLsbD, Nat.toNat_testBit, BitVec.toNat_and, BitVec.toNat_ushiftRight,
    Nat.shiftRight_eq_div_pow]
  exact (Nat.and_one_is_mod _).symm

/-- Replacing a bit by itself changes nothing. -/
theorem insertBit_extractBit (r : Byte) (i : Chan) : insertBit r i (extractBit r i) = r := by
  refine byte_ext fun j => ?_
  rw [extractBit_insertBit]
  split
  · next hj => rw [hj]
  · rfl

/-- Settles O10: the definitions read as the formulas of R138, and the laws hold bit by bit. -/
theorem bitArithmeticLaws : Obligations.BitArithmeticLaws := by
  refine ⟨extractBit_toNat, fun r i b => ?_, extractBit_insertBit, insertBit_extractBit, composeBits_toNat,
    extractBit_composeBits, composeBits_extractBit, fun i => ?_⟩
  · cases b <;> rfl
  · by_cases hi : i.toNat ≤ 7
    · rw [chan?_some hi]
      exact iff_of_true rfl hi
    · rw [chan?_none (Nat.lt_of_not_le hi)]
      exact iff_of_false Bool.false_ne_true hi

end Sys2Proof.Machine
end

section
/-! SUPPORT. GET_BIT and SET_BIT (41_bit_view.md rules R130 to R134): the operations behind their two checks, and the
device register over the read and the write of `set_bit`. -/

namespace Sys2Proof.Machine

/-! ### The commands past the index check -/

/-- GET_BIT with an index in range is `get_bit` behind the state check (R131). -/
theorem exec_getBit_of_chan {i : Idx} {c : Chan} (hi : chan? i = some c) (s : State) :
    exec (.getBit i) s = requireReady i s (finish i (withData (getBit c s) bitRsp)) := by
  rw [exec, execGetBit, requireChan, hi]

/-- SET_BIT of a channel is `set_bit` behind the state check (R134). -/
theorem exec_setBit_ofNat (c : Chan) (b : Bool) (s : State) :
    exec (.setBit (BitVec.ofNat 4 c.val) b) s =
      requireReady (BitVec.ofNat 4 c.val) s (finish (BitVec.ofNat 4 c.val) (withData (setBit c b s) fun _ => 0)) := by
  rw [exec, execSetBit, requireChan, chan?_ofNat]

/-! ### Commands that end after one read -/

/-- What there is to see of a command that ends with a response after a `port_read`. -/
theorem portRead_answered {s : State} {o : Host.Outcome State Fault Refusal} {ch : Idx} {r : Result}
    (ho : o = .next (respond ch r (portRead s).2)) :
    ∃ t, o = .next t ∧ t.block = (portRead s).2.block ∧
      t.trace = s.trace ++ [.bus (.read s.block.addr (portRead s).1), .response (rspWord ch r)] ∧
      t.device s.block.addr = s.seenDevReg ∧ sameDevicesBut s.block.addr s t ∧ sameInputs s t ∧ tookDraws 1 s t := by
  have served := (portRead_traffic s).answered ho
  rwa [portRead_device] at served

/-- `port_read` answered Ok latches the byte seen (R120). -/
theorem portRead_block_ok {s : State} (h : (s.drawAt 0).fail = none) :
    (portRead s).2.block = s.block.setLastRd s.seenDevReg := by
  rw [portRead_block, if_pos h]

/-- `port_read` answered Err leaves the block (R120). -/
theorem portRead_block_error {s : State} {e : Cause} (h : (s.drawAt 0).fail = some e) :
    (portRead s).2.block = s.block := by
  rw [portRead_block, if_neg (by simp [h])]

/-- What `get_bit` answers (R130): the physical bit of the byte seen. -/
theorem getBit_answer (c : Chan) (s : State) :
    (getBit c s).1 =
      match (s.drawAt 0).fail with | none => .ok (extractBit s.seenDevReg c) | some e => .error e := by
  cases h : (s.drawAt 0).fail with
  | none => rw [getBit, portRead_ok s h]
  | some e => rw [getBit, portRead_error s h]

/-- Settles O20: the one read is `port_read`'s, and a byte read has its addressed bit in the response. -/
theorem getBitCompletes : Obligations.GetBitCompletes := by
  refine ⟨fun p w i => ?_, fun p w ho hw => ?_, fun s i hq hi hf => ?_, fun s i e hq hi hf => ?_,
    fun s i hq hi => requireReady_requireChan_of_gt hq hi _, fun s i hq => requireReady_of_ne hq _ _⟩
  · rw [decodePort_primitive_iff rfl, encode, eq_cmdWord_iff]
  · refine decodePort_primitive_error (by rw [ho]; rfl) (hw.imp_right fun hdata => ?_)
    exact .inr (.inr (.inr (.inl ⟨.inr (.inr ho), hdata⟩)))
  · have answer : (getBit ⟨i.toNat, Nat.lt_succ_of_le hi⟩ s).1 = .ok (s.seenDevReg.getLsbD i.toNat) := by
      rw [getBit_answer, hf, extractBit]
    have done := requireReady_finish_ok hq answer i bitRsp
    rw [← exec_getBit_of_chan (chan?_some hi), getBit_state] at done
    have served := portRead_answered done
    rwa [portRead_block_ok hf, portRead_answer, hf] at served
  · have answer : (getBit ⟨i.toNat, Nat.lt_succ_of_le hi⟩ s).1 = .error e := by rw [getBit_answer, hf]
    have done := requireReady_finish_error hq answer i bitRsp
    rw [← exec_getBit_of_chan (chan?_some hi), getBit_state] at done
    have served := portRead_answered done
    rwa [portRead_block_error hf, portRead_answer, hf] at served

/-! ### The read and the write of `set_bit` -/

/-- The draw after a `port_read` is the second one. -/
theorem portRead_drawAt_zero (s : State) : (portRead s).2.drawAt 0 = s.drawAt 1 :=
  drawAt_of_tookDraws (portRead_traffic s).draws 0

/-- What the transaction after a `port_read` finds in the device register: the byte the read saw, unless another agent
writes in between (R66, R132). -/
theorem portRead_seenDevReg (s : State) :
    (portRead s).2.seenDevReg =
      if s.params.extAgents then (s.drawAt 1).foreign.getD s.seenDevReg else s.seenDevReg := by
  obtain ⟨hparams, -, -⟩ := (portRead_traffic s).inputs
  rw [State.seenDevReg, hparams, portRead_drawAt_zero, State.devReg, portRead_addr, portRead_device]

/-- What `set_bit` answers after a read answered Ok: what its write answers (R132). -/
theorem setBit_answer {c : Chan} {b : Bool} {s : State} (h : (s.drawAt 0).fail = none) :
    (setBit c b s).1 = match (s.drawAt 1).fail with | none => .ok () | some e => .error e := by
  rw [setBit_ok c b s h, ← portRead_drawAt_zero]
  exact portWrite_answer _ _

/-- The register after both transactions answered Ok is the byte written, whatever stood there in between (R53 b). -/
theorem setBit_device_ok {c : Chan} {b : Bool} {s : State} (h0 : (s.drawAt 0).fail = none)
    (h1 : (s.drawAt 1).fail = none) : (setBit c b s).2.device s.block.addr = insertBit s.seenDevReg c b := by
  rw [setBit_ok c b s h0, ← portRead_addr]
  exact portWrite_device_ok _ (by rwa [portRead_drawAt_zero])

/-- The register after a failed write is the byte written, or what stood there when the write was performed (R53 c). -/
theorem setBit_device_error {c : Chan} {b : Bool} {s : State} {e : Cause} (h0 : (s.drawAt 0).fail = none)
    (h1 : (s.drawAt 1).fail = some e) :
    (setBit c b s).2.device s.block.addr =
      if (s.drawAt 1).landed then insertBit s.seenDevReg c b
      else if s.params.extAgents then (s.drawAt 1).foreign.getD s.seenDevReg else s.seenDevReg := by
  rw [← portRead_seenDevReg, setBit_ok c b s h0, ← portRead_addr,
    portWrite_device_error (e := e) _ (by rwa [portRead_drawAt_zero]), portRead_drawAt_zero]

/-- What there is to see of a command that ends with a response after a `set_bit` whose read was answered Ok. -/
theorem setBit_answered {c : Chan} {b : Bool} {s : State} (h : (s.drawAt 0).fail = none)
    {o : Host.Outcome State Fault Refusal} {ch : Idx} {r : Result} (ho : o = .next (respond ch r (setBit c b s).2)) :
    ∃ t, o = .next t ∧ t.block = s.block.setLastRd s.seenDevReg ∧
      t.trace = s.trace ++ [.bus (.read s.block.addr (.ok s.seenDevReg)),
        .bus (.write s.block.addr (insertBit s.seenDevReg c b) (s.drawAt 1).fail), .response (rspWord ch r)] ∧
      t.device s.block.addr = (setBit c b s).2.device s.block.addr ∧
      sameDevicesBut s.block.addr s t ∧ sameInputs s t ∧ tookDraws 2 s t := by
  have write := portWrite_traffic (insertBit s.seenDevReg c b) (portRead s).2
  rw [portRead_addr, portRead_drawAt_zero, ← setBit_ok c b s h] at write
  have served := ((portRead_traffic s).trans write).answered ho
  rwa [setBit_block, portRead_block_ok h, portRead_answer, h] at served

/-- SET_BIT with both transactions answered Ok (R132, R134): the byte written is the byte seen by the read with the
addressed bit replaced. -/
theorem exec_setBit_ok (c : Chan) (b : Bool) {s : State} (hq : s.block.seq = .ready) (h0 : (s.drawAt 0).fail = none)
    (h1 : (s.drawAt 1).fail = none) :
    ∃ t, exec (.setBit (BitVec.ofNat 4 c.val) b) s = .next t ∧ t.block = s.block.setLastRd s.seenDevReg ∧
      t.trace = s.trace ++ [.bus (.read s.block.addr (.ok s.seenDevReg)),
        .bus (.write s.block.addr (insertBit s.seenDevReg c b) none),
        .response (rspWord (BitVec.ofNat 4 c.val) (.ok 0))] ∧
      t.device s.block.addr = insertBit s.seenDevReg c b ∧
      sameDevicesBut s.block.addr s t ∧ sameInputs s t ∧ tookDraws 2 s t := by
  have answer : (setBit c b s).1 = .ok () := by rw [setBit_answer h0, h1]
  have done := requireReady_finish_ok hq answer (BitVec.ofNat 4 c.val) fun _ => 0
  rw [← exec_setBit_ofNat] at done
  have served := setBit_answered h0 done
  rwa [h1, setBit_device_ok h0 h1] at served

/-- Settles O21: the byte written is the byte read with one bit replaced. -/
theorem setBitCompletes : Obligations.SetBitCompletes := by
  intro s c b hq h0 h1
  obtain ⟨t, ht, hblock, htrace, hdevice, hframe⟩ := exec_setBit_ok c b hq h0 h1
  exact ⟨t, _, insertBit s.seenDevReg c b, ht, rfl, fun j => extractBit_insertBit _ c j b, hblock, htrace, hdevice,
    hframe⟩

/-- A `DATA` field holds a one-bit operand: bits 7:1 are zero and bit 0 is the operand (R93 c). -/
theorem dataField_eq_bitData_iff {w : CmdWord} {b : Bool} :
    dataField w = bitData b ↔ w.extractLsb' 1 7 = 0 ∧ w.getLsbD 0 = b := by
  rw [levelBits_eq, levelBit_eq]
  constructor
  · intro hdata
    rw [hdata]
    exact bitData_bit b
  · rintro ⟨hzero, rfl⟩
    exact (bitData_of_zero _ hzero).symm

/-- Settles O22: a failed read is all that happens; after a failed write the read has happened too. -/
theorem setBitErrors : Obligations.SetBitErrors := by
  refine ⟨fun p w i b => ?_, fun s c b e hq h0 => ?_, fun s c b e hq h0 h1 => ?_,
    fun s i b hq hi => requireReady_requireChan_of_gt hq hi _, fun s i b hq => requireReady_of_ne hq _ _⟩
  · rw [decodePort_primitive_iff rfl, encode, eq_cmdWord_iff, dataField_eq_bitData_iff]
  · have answer : (setBit c b s).1 = .error e := by rw [setBit_error c b s h0]
    have done := requireReady_finish_error hq answer (BitVec.ofNat 4 c.val) fun _ => 0
    rw [← exec_setBit_ofNat, setBit_error c b s h0] at done
    have served := portRead_answered done
    rwa [portRead_block_error h0, portRead_answer, h0] at served
  · have answer : (setBit c b s).1 = .error e := by rw [setBit_answer h0, h1]
    have done := requireReady_finish_error hq answer (BitVec.ofNat 4 c.val) fun _ => 0
    rw [← exec_setBit_ofNat] at done
    have served := setBit_answered h0 done
    rwa [h1, setBit_device_error h0 h1] at served

/-- Settles O55: what is put out, latched and written depends on the byte the read saw, and the draw of the write comes
after it. -/
theorem setBitRaceIsSilent : Obligations.SetBitRaceIsSilent := by
  intro s c b x d _ hq hd
  obtain ⟨t, ht, htblock, httrace, htdevice, -⟩ :=
    exec_setBit_ok c b (s := { s with oracle := [d, ⟨none, none, false⟩] }) hq hd rfl
  obtain ⟨u, hu, hublock, hutrace, hudevice, -⟩ :=
    exec_setBit_ok c b (s := { s with oracle := [d, ⟨some x, none, false⟩] }) hq hd rfl
  refine ⟨t, u, ht, hu, hutrace.trans httrace.symm, hublock.trans htblock.symm, ?_⟩
  rw [State.devReg, State.devReg, hublock, htblock]
  exact hudevice.trans htdevice.symm

end Sys2Proof.Machine
end

section
/-! SUPPORT. The words of the base group (30_encoding.md rules R81, R93): every command port reads them alike. -/

namespace Sys2Proof

/-- The port reads as a command outside the primitive group its one word. -/
theorem decodePort_base_iff {p : PrimPort} {w : CmdWord} {i : Instr} (hi : i.primitive = false) :
    decodePort p w = .ok i ↔ w = encode i := by
  constructor
  · intro h
    exact (encode_of_decode (decode_of_decodePort h)).symm
  · rintro rfl
    exact decodePort_encode (by simp [Instr.wellFormed, hi])

/-- A word that R93 (a) to (e) lists is refused by every port. -/
theorem decodePort_illegal_error (p : PrimPort) {w : CmdWord} (h : IllegalWord w) : ∃ e, decodePort p w = .error e :=
  (decodePort_error_iff p w).2 (.inl h)

/-- A word other than the one without operands has an operand. -/
theorem operand_of_ne_cmdWord {w : CmdWord} {opc : BitVec 4} (ho : opcField w = opc) (hw : w ≠ cmdWord opc 0 0) :
    idxField w ≠ 0 ∨ dataField w ≠ 0 := by
  by_contra hz
  obtain ⟨hidx, hdata⟩ := not_or.1 hz
  exact hw (eq_cmdWord_iff.2 ⟨ho, Decidable.not_not.1 hidx, Decidable.not_not.1 hdata⟩)

end Sys2Proof
end

section
/-! SUPPORT. The polarity map (43_channel_controller.md rule R155) and the target of a switch (R156). -/

namespace Sys2Proof.Machine

/-- Reading backwards what the polarity map made gives the level (R155). -/
theorem logi_phys (b : Block) (c : Chan) (l : Bool) : logi b c (phys b c l) = l := by
  unfold logi phys
  cases extractBit b.onState c <;> cases l <;> rfl

/-- Mapping what was read backwards gives the physical bit (R155). -/
theorem phys_logi (b : Block) (c : Chan) (v : Bool) : phys b c (logi b c v) = v := logi_phys b c v

/-- Settles O11: each case computes once `ON_STATE[c]` is known. -/
theorem polarityMap : Obligations.PolarityMap := by
  refine fun b c => ⟨fun hon => ?_, fun hon => ?_, fun _ => rfl, logi_phys b c, phys_logi b c⟩
  all_goals
    rw [phys, phys, hon]
    exact ⟨rfl, rfl⟩

/-- The commanded channel's bit of the target. -/
theorem target_same (b : Block) (c : Chan) (l : Bool) : target b c l c = phys b c l := if_pos rfl

/-- Every other bit of the target is the shadow byte's. -/
theorem target_other (b : Block) (l : Bool) {c j : Chan} (hj : j ≠ c) :
    target b c l j = extractBit (shadowByte b) j := by
  rw [extractBit_shadowByte, target, if_neg hj]

/-- The byte a switch writes is the shadow byte with one bit replaced (R156). -/
theorem composeBits_target_eq_insertBit (b : Block) (c : Chan) (l : Bool) :
    composeBits (target b c l) = insertBit (shadowByte b) c (phys b c l) :=
  byte_ext fun j => by rw [composeBits_target, extractBit_insertBit, extractBit_shadowByte]

/-- Settles O13: off the commanded channel the cases are those of the shadow byte. -/
theorem switchTarget : Obligations.SwitchTarget := by
  refine fun b c l => ⟨target_same b c l, fun j hj hv => ?_, fun j hj hv hr => ?_, fun j hj hv hr => ?_,
    composeBits_target_eq_insertBit b c l⟩
  all_goals
    obtain ⟨valid, read, neverRead⟩ := shadowByteBits b j
    rw [target_other b l hj]
  · exact valid hv
  · exact read hv hr
  · exact neverRead hv hr

end Sys2Proof.Machine
end

section
/-! SUPPORT. The commands that answer from the cache (43_channel_controller.md rules R160 to R164): READ, READ_ALL, IS_ON. -/

namespace Sys2Proof.Machine

/-- What is made of the value of a cell: one case if the cell is not valid, and one for each level (R145). -/
theorem apply_cacheGet {α : Type} (f : CacheLevel → α) (b : Block) (c : Chan) :
    f (cacheGet b c) =
      if extractBit b.cv c then (if extractBit b.cl c then f .on else f .off) else f .undefined := by
  unfold cacheGet Block.known
  split
  · split <;> rfl
  · rfl

/-- IS_ON with an index in range answers the code of the cell's tri-state (R164). -/
theorem exec_isOn_of_le {i : Idx} (hi : i.toNat ≤ 7) (s : State) :
    exec (.isOn i) s = .next (s.emit (.response (rspWord i (.ok
      (if s.block.cv.getLsbD i.toNat then (if s.block.cl.getLsbD i.toNat then 1 else 0) else 2))))) := by
  rw [exec, execIsOn, requireChan, chan?_some hi]
  dsimp only
  rw [apply_cacheGet triRsp]
  rfl

/-- READ is IS_ON behind the state check (R160, R164). -/
theorem exec_read (i : Idx) (s : State) : exec (.read i) s = requireReady i s (exec (.isOn i) s) := rfl

/-- Settles O16: behind the index check there is only the cell's value. -/
theorem isOnCompletes : Obligations.IsOnCompletes := by
  refine ⟨fun p w i => ?_, fun p w ho hdata => ?_, fun s i hi => exec_isOn_of_le hi s,
    fun s i hi => requireChan_of_gt hi s _⟩
  · rw [decodePort_base_iff rfl, encode, eq_cmdWord_iff]
  · exact decodePort_illegal_error p (.inr (.inr (.inr (.inl ⟨.inr (.inl ho), hdata⟩))))

/-- Settles O15: in `Ready` it is IS_ON with the same index. -/
theorem readCompletes : Obligations.ReadCompletes := by
  refine ⟨fun p w i => ?_, fun p w ho hdata => ?_, fun s i hq hi => ?_,
    fun s i hq hi => requireReady_requireChan_of_gt hq hi _, fun s i hq => requireReady_of_ne hq _ _⟩
  · rw [decodePort_base_iff rfl, encode, eq_cmdWord_iff]
  · exact decodePort_illegal_error p (.inr (.inr (.inr (.inl ⟨.inl ho, hdata⟩))))
  · rw [exec_read, requireReady_of_ready hq, exec_isOn_of_le hi]

/-- Settles O17: lane `c` of the data is the code of cell `c`'s tri-state alone. -/
theorem readAllCompletes : Obligations.ReadAllCompletes := by
  refine ⟨fun p w => decodePort_base_iff rfl, fun p w ho hw => ?_, fun s hq => ?_, fun s hq => requireReady_of_ne hq _ _⟩
  · exact decodePort_illegal_error p (.inr (.inl ⟨by simp [ho], operand_of_ne_cmdWord ho hw⟩))
  · refine ⟨triAllRsp (cacheGet s.block), requireReady_of_ready hq _ _, fun c => ?_⟩
    rw [triAllRsp_lane, apply_cacheGet CacheLevel.code]
    rfl

end Sys2Proof.Machine
end

section
/-! SUPPORT. SWITCH (43_channel_controller.md rules R157, R158): `do_switch` behind its two checks, the cell it sets, and
what it does not look at. -/

namespace Sys2Proof.Machine

/-! ### SWITCH and its operation -/

/-- SWITCH of a channel is `do_switch` behind the state check (R158). -/
theorem exec_switch_ofNat (c : Chan) (l : Bool) (s : State) :
    exec (.switch (BitVec.ofNat 4 c.val) l) s =
      requireReady (BitVec.ofNat 4 c.val) s (finish (BitVec.ofNat 4 c.val) (withData (doSwitch c l s) fun _ => 0)) := by
  rw [exec, execSwitch, requireChan, chan?_ofNat]

/-- `do_switch` does to the devices what its write does (R157). -/
theorem doSwitch_device (c : Chan) (l : Bool) (s : State) (a : BusAddr) :
    (doSwitch c l s).2.device a = (portWrite (composeBits (target s.block c l)) s).2.device a := by
  unfold doSwitch setAll
  split <;> simp [*]

/-- SWITCH answered Ok (R157, R158): the target byte is written, and the cell is set. -/
theorem exec_switch_ok (c : Chan) (l : Bool) {s : State} (hq : s.block.seq = .ready) (hf : (s.drawAt 0).fail = none) :
    ∃ t, exec (.switch (BitVec.ofNat 4 c.val) l) s = .next t ∧ t.block = cacheSet c l s.block ∧
      t.trace = s.trace ++ [.bus (.write s.block.addr (composeBits (target s.block c l)) none),
        .response (rspWord (BitVec.ofNat 4 c.val) (.ok 0))] ∧
      t.device s.block.addr = composeBits (target s.block c l) ∧
      sameDevicesBut s.block.addr s t ∧ sameInputs s t ∧ tookDraws 1 s t := by
  have answer : (doSwitch c l s).1 = .ok () := by rw [doSwitch_answer, hf]
  have block : (doSwitch c l s).2.block = cacheSet c l s.block := by rw [doSwitch_block, if_pos hf]
  have done := requireReady_finish_ok hq answer (BitVec.ofNat 4 c.val) fun _ => 0
  rw [← exec_switch_ofNat] at done
  have served := (doSwitch_traffic c l s).answered done
  rwa [hf, block, doSwitch_device, portWrite_device_ok _ hf] at served

/-- Settles O23: the byte written is the target, and setting a cell leaves everything else of the block. -/
theorem switchCompletes : Obligations.SwitchCompletes := by
  intro s c l hq hf
  obtain ⟨t, ht, hblock, htrace, hdevice, hframe⟩ := exec_switch_ok c l hq hf
  refine ⟨t, composeBits (target s.block c l), ht, composeBits_target s.block c l, ?_, fun j => ?_, fun j => ?_, htrace,
    hdevice, hframe⟩
  · rw [hblock]
    rfl
  · rw [hblock, cacheSet_cv, extractBit_insertBit]
  · rw [hblock, cacheSet_cl, extractBit_insertBit]

/-- Settles O24: a failed write leaves the block, and a check that fails leaves everything. -/
theorem switchErrors : Obligations.SwitchErrors := by
  refine ⟨fun p w i l => ?_, fun s c l e hq hf => ?_, fun s i l hq hi => requireReady_requireChan_of_gt hq hi _,
    fun s i l hq => requireReady_of_ne hq _ _⟩
  · rw [decodePort_base_iff rfl, encode, eq_cmdWord_iff, dataField_eq_bitData_iff]
  · have answer : (doSwitch c l s).1 = .error e := by rw [doSwitch_answer, hf]
    have block : (doSwitch c l s).2.block = s.block := by rw [doSwitch_block, if_neg (by simp [hf])]
    have done := requireReady_finish_error hq answer (BitVec.ofNat 4 c.val) fun _ => 0
    rw [← exec_switch_ofNat] at done
    have served := (doSwitch_traffic c l s).answered done
    rwa [hf, block, doSwitch_device, portWrite_device_error _ hf, composeBits_target_eq_insertBit] at served

/-! ### A switch repeated -/

/-- Of two replacements of one bit the second counts. -/
theorem insertBit_insertBit (r : Byte) (i : Chan) (a b : Bool) : insertBit (insertBit r i a) i b = insertBit r i b := by
  refine byte_ext fun j => ?_
  simp only [extractBit_insertBit]
  split <;> rfl

/-- Setting a cell again changes nothing. -/
theorem cacheSet_cacheSet (c : Chan) (l : Bool) (b : Block) : cacheSet c l (cacheSet c l b) = cacheSet c l b := by
  rw [cacheSet, cacheSet_cv, cacheSet_cl, insertBit_insertBit, insertBit_insertBit]
  rfl

/-- With the cell set, the same switch has the same target: the shadow byte is already that byte. -/
theorem composeBits_target_cacheSet (b : Block) (c : Chan) (l : Bool) :
    composeBits (target (cacheSet c l b) c l) = composeBits (target b c l) := by
  rw [← shadowByte_cacheSet, cacheSet_cacheSet, shadowByte_cacheSet]

/-- Settles O25: the first switch sets the cell, and with it set neither the target nor the block changes. -/
theorem switchIsIdempotent : Obligations.SwitchIsIdempotent := by
  intro s t u c l hq h0 h1 ht hu
  obtain ⟨t', ht', htblock, httrace, -, -, -, hdraws⟩ := exec_switch_ok c l hq h0
  obtain rfl := Host.Outcome.next.inj (ht.symm.trans ht')
  have hqt : t.block.seq = .ready := by rw [htblock, cacheSet_seq, hq]
  have h0t : (t.drawAt 0).fail = none := by rw [drawAt_of_tookDraws hdraws, h1]
  obtain ⟨u', hu', hublock, hutrace, -⟩ := exec_switch_ok c l hqt h0t
  obtain rfl := Host.Outcome.next.inj (hu.symm.trans hu')
  rw [htblock, cacheSet_addr, composeBits_target_cacheSet] at hutrace
  refine ⟨?_, _, httrace, hutrace, rfl⟩
  rw [hublock, htblock, cacheSet_cacheSet]

/-! ### What the devices hold -/

/-- The same was put out, and the block is the same. -/
structure State.SameOutput (s t : State) : Prop where
  trace : t.trace = s.trace
  block : t.block = s.block

/-- Where both outcomes are next states, these have the same output. -/
def SameOutputs (o o' : Host.Outcome State Fault Refusal) : Prop :=
  ∀ t u, o = .next t → o' = .next u → t.SameOutput u

section
variable {s s' : State} (h : s.SameOutput s')
include h

/-- The same response after the same output. -/
theorem respond_sameOutputs (ch : Idx) (r : Result) :
    SameOutputs (.next (respond ch r s)) (.next (respond ch r s')) := by
  rintro _ _ ⟨⟩ ⟨⟩
  refine ⟨?_, h.block⟩
  rw [respond, respond, State.emit_trace, State.emit_trace, h.trace]

/-- The state check looks at the block only (R203). -/
theorem requireReady_sameOutputs (ch : Idx) {run run' : Host.Outcome State Fault Refusal} (hr : SameOutputs run run') :
    SameOutputs (requireReady ch s run) (requireReady ch s' run') := by
  unfold requireReady
  rw [h.block]
  split
  · exact hr
  · exact respond_sameOutputs h ch _

/-- The index check does not look at the state (R204). -/
theorem requireChan_sameOutputs (i : Idx) {run run' : Chan → Host.Outcome State Fault Refusal}
    (hr : ∀ c, SameOutputs (run c) (run' c)) : SameOutputs (requireChan i s run) (requireChan i s' run') := by
  unfold requireChan
  split
  · exact respond_sameOutputs h i _
  · exact hr _

end

/-- `do_switch` takes the byte it writes from the block, and the answer from the oracle (R157). -/
theorem doSwitch_setBus (c : Chan) (l : Bool) (s : State) (m : Memory) :
    (doSwitch c l (s.setBus m)).1 = (doSwitch c l s).1 ∧ (doSwitch c l s).2.SameOutput (doSwitch c l (s.setBus m)).2 := by
  have draw : (s.setBus m).drawAt 0 = s.drawAt 0 := rfl
  refine ⟨?_, ?_, ?_⟩
  · rw [doSwitch_answer, doSwitch_answer, draw]
  · rw [(doSwitch_traffic c l _).trace, (doSwitch_traffic c l s).trace, draw, State.setBus_block, State.setBus_trace]
  · rw [doSwitch_block, doSwitch_block, draw, State.setBus_block]

/-- Settles O54: the checks, the cells and the byte written are the block's, and the answer is the oracle's. -/
theorem switchNeverLooksAtTheDevice : Obligations.SwitchNeverLooksAtTheDevice := by
  intro s t u m i hi ht hu
  have same : s.SameOutput (s.setBus m) := ⟨rfl, rfl⟩
  suffices outputs : SameOutputs (exec i s) (exec i (s.setBus m)) by
    obtain ⟨htrace, hblock⟩ := outputs t u ht hu
    exact ⟨htrace, hblock⟩
  obtain ⟨c, l, rfl⟩ | ⟨c, rfl⟩ | rfl := hi
  · refine requireReady_sameOutputs same c (requireChan_sameOutputs same c fun d => ?_)
    obtain ⟨answer, output⟩ := doSwitch_setBus d l s m
    unfold finish withData
    rw [answer]
    exact respond_sameOutputs output c _
  · exact requireReady_sameOutputs same c (requireChan_sameOutputs same c fun d => respond_sameOutputs same c _)
  · exact requireReady_sameOutputs same 0 (respond_sameOutputs same 0 _)

end Sys2Proof.Machine
end

section
/-! SUPPORT. IS_READY (44_lifecycle_sequencer.md rule R192): it looks at `SEQ` and at nothing else. -/

namespace Sys2Proof.Machine

/-- IS_READY's data is 1 in `Ready` and 0 elsewhere (R192). -/
theorem bitRsp_isReady (b : Block) : bitRsp b.isReady = if b.seq = .ready then 1 else 0 := by
  simp only [bitRsp, Block.isReady, beq_iff_eq]

/-- Settles O14: there is no check before the answer. -/
theorem isReadyCompletes : Obligations.IsReadyCompletes := by
  refine ⟨fun p w => decodePort_base_iff rfl, fun p w ho hw => ?_, fun s => ?_⟩
  · exact decodePort_illegal_error p (.inr (.inl ⟨.inl ho, operand_of_ne_cmdWord ho hw⟩))
  · rw [← bitRsp_isReady]
    rfl

end Sys2Proof.Machine
end

section
/-! SUPPORT. What a sweep over all eight channels leaves in the cells (44_lifecycle_sequencer.md rules R184, R189), and
STOP (R188). -/

namespace Sys2Proof.Machine

/-! ### The cells after a sweep -/

/-- A configured tri-state asks for no level exactly when it is Unset (R87). -/
theorem TriCfg.level_eq_none_iff {x : TriCfg} : x.level = none ↔ x = .unset := by cases x <;> simp [TriCfg.level]

/-- The level a tri-state asks for, by its code (R87). -/
theorem TriCfg.level_eq_code (x : TriCfg) : x.level = if x.code = 2 then none else some (x.code == 1) := by
  cases x <;> rfl

/-- A channel's bit of the shadow byte after a sweep in which its switch did not fail: as its configured level asks, or
as before if it has none. -/
theorem Swept.shadowBit {ph : Phase} {tr : Bool} {v : Vector TriCfg 8} {f g : Byte} {s t : State} {new : List Obs}
    (h : Swept ph tr v channels f s new g t) {c : Chan} (hg : extractBit g c = false) :
    shadowBit t.block c = (v[c]).level.elim (shadowBit s.block c) (phys s.block c) := by
  have hon : t.block.onState = s.block.onState := by rw [h.block]
  have hvalid : t.block.lastRdValid = s.block.lastRdValid := by rw [h.block]
  have hlast : t.block.lastRd = s.block.lastRd := by rw [h.block]
  unfold Machine.shadowBit Block.known phys
  rw [hon, hvalid, hlast]
  cases hl : (v[c]).level with
  | none =>
    obtain ⟨hcv, hcl⟩ := h.kept c (.inr (.inl (TriCfg.level_eq_none_iff.1 hl)))
    rw [hcv, hcl, Option.elim_none]
  | some l =>
    obtain ⟨hcv, hcl⟩ := h.done c (mem_channels c) l hl hg
    rw [hcv, hcl, if_pos rfl, Option.elim_some]

/-! ### STOP -/

/-- What STOP in `Ready` does (R188, R189): it sweeps to `w`, marking `fail`, and then stops. -/
structure Stops (s : State) (new : List Obs) (fail : Byte) (w : State) : Prop where
  swept : Swept .shutdown false s.block.shutdown channels 0 s new fail w
  folded : channels.foldl (sweepOne .shutdown false s.block.shutdown) (0, s) = (fail, w)
  answer : exec .stop s = .next (respond 0 (.ok (fail.setWidth 16)) (w.setBlock (w.block.setSeq .stopped).invalidate))

/-- The shutdown sweep as the sweep both commands share. -/
theorem shutdownSweep_eq_foldl (s : State) :
    shutdownSweep s = channels.foldl (sweepOne .shutdown false s.block.shutdown) (0, s) :=
  shutdown_fold _ channels 0 s rfl

/-- STOP in `Ready` is never turned away (R188). -/
theorem stop_of_ready {s : State} (hq : s.block.seq = .ready) : ∃ new fail w, Stops s new fail w := by
  obtain ⟨new, swept⟩ := shutdownSweep_swept s
  have folded := shutdownSweep_eq_foldl s
  have answer := execStop_ready hq
  rw [byteRsp_eq_setWidth] at answer
  generalize shutdownSweep s = r at swept folded answer
  exact ⟨new, r.1, r.2, swept, folded.symm, answer⟩

section
variable {s w : State} {new : List Obs} {fail : Byte} (h : Stops s new fail w)
include h

/-- STOP's output: the sweep's, then the response. -/
theorem Stops.trace (b : Block) : (respond 0 (.ok (fail.setWidth 16)) (w.setBlock b)).trace =
    s.trace ++ new ++ [.response (rspWord 0 (.ok (fail.setWidth 16)))] := by
  rw [respond, State.emit_trace, State.setBlock_trace, h.swept.traffic.trace]

/-- With every write answered Ok and one configured channel, STOP leaves the device as the shadow byte has it. -/
theorem Stops.mirrors (hok : s.answersOk 8) (hpos : 0 < configured s.block.shutdown) :
    fail = 0 ∧ w.device s.block.addr = shadowByte w.block := by
  have hcount : configured s.block.shutdown ≤ 8 := List.length_filter_le _ channels
  have hm := sweep_mirrors .shutdown false s.block.shutdown channels 0 s (fun k hk => hok k (hk.trans_le hcount))
    (.inr hpos)
  rwa [h.folded] at hm

end

/-- Settles O31: the response and the block come from how STOP ends, all else from the sweep. -/
theorem stopCompletes : Obligations.StopCompletes := by
  refine ⟨fun p w => decodePort_base_iff rfl, fun s hq => requireReady_of_ne hq _ _, fun s hq => ?_⟩
  obtain ⟨new, fail, w, h⟩ := stop_of_ready hq
  have hs := h.swept
  refine ⟨_, new, fail, h.answer, h.trace _, rfl, rfl, rfl, hs.sameConfig.latches, hs.fired, hs.writes,
    hs.traffic.count, fun c => hs.onlySet c (mem_channels c), hs.ordered, fun pre post ph c k e => ?_, hs.traffic.devices,
    hs.traffic.inputs, hs.traffic.draws⟩
  obtain ⟨hph, pre', v, x, hk, hpre⟩ := hs.afterFail e
  exact ⟨hph, x, hk, pre', v, hpre⟩

/-- Settles O32: the device ends as the shadow byte after the sweep, which is known channel by channel. -/
theorem shutdownFinalByte : Obligations.ShutdownFinalByte := by
  intro s hq _ hok hpos
  obtain ⟨new, fail, w, h⟩ := stop_of_ready hq
  obtain ⟨hfail, hdevice⟩ := h.mirrors hok hpos
  refine ⟨_, h.answer, fun c => ?_⟩
  have hmark : extractBit fail c = false := by rw [hfail]; exact extractBit_zero c
  change extractBit (w.device s.block.addr) c = _
  rw [hdevice, extractBit_shadowByte, h.swept.shadowBit hmark]
  cases (s.block.shutdown[c]).level with
  | none => exact (extractBit_shadowByte s.block c).symm
  | some l => rfl

end Sys2Proof.Machine
end

section
/-! SUPPORT. ATTACH (44_lifecycle_sequencer.md rule R181): the record latched, the probe (R183), and what an accepted ATTACH
does as a whole. -/

namespace Sys2Proof.Machine

/-! ### The record latched -/

/-- `b` is the block of `s` with the record on `cfg_in` latched, field by field (30_encoding.md rule R90). -/
structure Latched (s : State) (b : Block) : Prop where
  kept : b = s.block.withLatches b
  addr : b.addr = cfgAddr s.cfgIn.cfgWord
  devId : b.devId = s.cfgIn.devId % 2 ^ s.params.devIdW
  name : b.name = s.cfgIn.name
  onState : ∀ c, extractBit b.onState c = cfgOnState s.cfgIn.cfgWord c
  startup : ∀ c : Chan, (b.startup[c]).code = cfgStartup s.cfgIn.cfgWord c
  shutdown : ∀ c : Chan, (b.shutdown[c]).code = cfgShutdown s.cfgIn.cfgWord c
  trig : ∀ c, extractBit b.trig c = cfgTrig s.cfgIn.cfgWord c

/-- ATTACH of a well-formed record in `Uninitialized`: the address decides (R181, R182). -/
theorem exec_attach_of_wellFormed {s : State} (hq : s.block.seq = .uninitialized)
    (hw : cfgWellFormed s.cfgIn.cfgWord = true) :
    ∃ b, Latched s b ∧ exec .attach s =
      if b.addr ∈ s.params.validAddrs then attachRun (s.setBlock b) else raise 0 .invalidChannel (s.setBlock b) := by
  obtain ⟨up, down, hl, hup, hdown⟩ := latchConfig_wellFormed s.params.devIdW s.cfgIn s.block hw
  rw [exec, execAttach, if_pos hq, hl]
  refine ⟨_, ?_, rfl⟩
  exact ⟨rfl, rfl, rfl, rfl, extractBit_composeBits _, hup, hdown, extractBit_composeBits _⟩

/-- ATTACH of an ill-formed record is refused (log 9). -/
theorem exec_attach_of_illFormed {s : State} (hq : s.block.seq = .uninitialized)
    (hw : cfgWellFormed s.cfgIn.cfgWord = false) : exec .attach s = .refused .illFormedConfig := by
  rw [exec, execAttach, if_pos hq, latchConfig_illFormed _ _ _ hw]

/-- Latching a record leaves `SEQ`, the cells and the last-read latch. -/
theorem Latched.rest {s : State} {b : Block} (h : Latched s b) :
    b.seq = s.block.seq ∧ b.cv = s.block.cv ∧ b.cl = s.block.cl ∧ b.lastRd = s.block.lastRd ∧
      b.lastRdValid = s.block.lastRdValid := by
  rw [h.kept]
  exact ⟨rfl, rfl, rfl, rfl, rfl⟩

/-- ATTACH past `Uninitialized` is turned away (R181). -/
theorem exec_attach_of_ne {s : State} (hq : s.block.seq ≠ .uninitialized) :
    exec .attach s = .next (s.emit (.response (rspWord 0 (.err .notReady)))) := if_neg hq

/-- The level a channel's startup state asks for, from the record. -/
theorem Latched.level {s : State} {b : Block} (h : Latched s b) (c : Chan) : (b.startup[c]).level =
    if cfgStartup s.cfgIn.cfgWord c = 2 then none else some (cfgStartup s.cfgIn.cfgWord c == 1) := by
  rw [TriCfg.level_eq_code, h.startup]

/-- A channel has a startup state exactly when its field in the record is not Unset. -/
theorem Latched.configured {s : State} {b : Block} (h : Latched s b) (c : Chan) :
    (b.startup[c] != .unset) = (cfgStartup s.cfgIn.cfgWord c != 2) := by
  rw [← h.startup, code_ne_two]

/-- Settles O27: each way to be turned away is one branch of ATTACH. -/
theorem attachTurnedAway : Obligations.AttachTurnedAway := by
  refine ⟨fun p w => decodePort_base_iff rfl, fun s => exec_attach_of_ne, fun s hq hw ha => ?_,
    fun s => exec_attach_of_illFormed⟩
  obtain ⟨b, hl, he⟩ := exec_attach_of_wellFormed hq hw
  rw [if_neg (hl.addr ▸ ha)] at he
  obtain ⟨hseq, hcv, hcl, hlast, hvalid⟩ := hl.rest
  exact ⟨_, he, rfl, hseq.trans hq, hcv, hcl, hlast, hvalid, rfl, ⟨rfl, rfl, rfl⟩, tookDraws_refl s⟩

/-! ### The probe -/

/-- What the probe puts out (R183): its one read with its answer, then the report if it was answered Err. -/
def probeEvents (a : BusAddr) (seen : Byte) : Option Cause → List Obs
  | none => [.bus (.read a (.ok seen))]
  | some e => [.bus (.read a (.error e)), .report .probe 0 (.busError e)]

/-- The traffic of the probe is its events. -/
theorem probe_events (s : State) :
    Traffic s.block.addr 1 (probeEvents s.block.addr s.seenDevReg (s.drawAt 0).fail) s (probe s).2 := by
  have h := probe_traffic s
  cases hf : (s.drawAt 0).fail with
  | none => rw [hf] at h; exact h
  | some e => rw [hf] at h; exact h

/-- `PROBE_FAIL` is set exactly when the probe was answered Err (R183). -/
theorem probe_failed (s : State) : (probe s).1 = (s.drawAt 0).fail.isSome := by
  rw [probe_spec]
  cases (s.drawAt 0).fail <;> rfl

/-- The draws after the probe's, whatever record was latched before it. -/
theorem probe_drawAt (s : State) (b : Block) (k : Nat) : (probe (s.setBlock b)).2.drawAt k = s.drawAt (1 + k) :=
  drawAt_of_tookDraws (probe_events (s.setBlock b)).draws k

/-- The probe triggers nothing. -/
@[simp] theorem triggers_probeEvents (a : BusAddr) (seen : Byte) (r : Option Cause) :
    triggers (probeEvents a seen r) = [] := by
  cases r <;> rfl

/-- The probe reports itself, if it failed. -/
theorem reports_probeEvents (a : BusAddr) (seen : Byte) (r : Option Cause) :
    (reports (probeEvents a seen r)).map (fun x => (x.1, x.2.1)) = if r.isSome then [(.probe, 0)] else [] := by
  cases r <;> rfl

/-- The probe's report stands right after its failed read. -/
theorem probeEvents_report {a : BusAddr} {seen : Byte} {r : Option Cause} {p q : List Obs} {ph : Phase} {c : Chan}
    {k : ErrKind} (h : probeEvents a seen r = p ++ .report ph c k :: q) :
    ph = .probe ∧ ∃ e, k = .busError e ∧ p = [.bus (.read a (.error e))] := by
  cases r with
  | none => rcases p with _ | ⟨_, _ | ⟨_, p⟩⟩ <;> simp [probeEvents] at h
  | some e =>
    rcases p with _ | ⟨_, _ | ⟨_, p⟩⟩ <;> simp [probeEvents] at h
    obtain ⟨rfl, ⟨rfl, -, rfl⟩, -⟩ := h
    exact ⟨rfl, e, rfl, rfl⟩

/-- No event of the probe is a trigger. -/
theorem probeEvents_ne_trig {a : BusAddr} {seen : Byte} {r : Option Cause} {p q : List Obs} {d : Nat} {c : Chan} :
    probeEvents a seen r ≠ p ++ .trig d c :: q := by
  intro h
  have none := congrArg triggers h
  simp at none

/-- A response is no trigger. -/
theorem response_ne_trig {w : RspWord} {p q : List Obs} {d : Nat} {c : Chan} :
    [.response w] ≠ p ++ .trig d c :: q := by
  intro h
  have none := congrArg triggers h
  simp at none

/-- The probe leaves the cells. -/
theorem probe_cells (s : State) : (probe s).2.block.cv = s.block.cv ∧ (probe s).2.block.cl = s.block.cl := by
  rw [probe_block, portRead_block]
  split
  · exact ⟨rfl, rfl⟩
  · exact ⟨rfl, rfl⟩

/-- With no other agent, a transaction finds the device as it is. -/
theorem State.seenDevReg_alone {s : State} (h : s.params.extAgents = false) : s.seenDevReg = s.devReg := by
  simp [State.seenDevReg, h]

/-- Where no cell is valid, the shadow byte is the byte last read (10_state.md rule R26). -/
theorem shadowByte_of_noCell {b : Block} (hcv : b.cv = 0) (hv : b.lastRdValid = true) : shadowByte b = b.lastRd := by
  refine byte_ext fun j => ?_
  simp [extractBit_shadowByte, shadowBit, Block.known, hcv, hv]

/-- A probe answered Ok, with no other agent and no valid cell: the shadow byte becomes the device's byte. -/
theorem probe_shadowByte {s : State} (hext : s.params.extAgents = false) (hcv : s.block.cv = 0)
    (hok : (s.drawAt 0).fail = none) :
    shadowByte (probe s).2.block = s.devReg ∧ (probe s).2.device s.block.addr = s.devReg := by
  have hp : probe s = (false, (portRead s).2) := by rw [probe_spec, hok]
  have hb : (portRead s).2.block = s.block.setLastRd s.devReg := by
    rw [portRead_block, if_pos hok, State.seenDevReg_alone hext]
  rw [hp, hb, portRead_device, State.seenDevReg_alone hext]
  exact ⟨shadowByte_of_noCell hcv rfl, rfl⟩

/-- An event of two traces, one after the other, lies in the first or in the second. -/
theorem split_append {l l' pre post : List Obs} {x : Obs} (h : l ++ l' = pre ++ x :: post) :
    (∃ q, l = pre ++ x :: q) ∨ ∃ p, pre = l ++ p ∧ l' = p ++ x :: post := by
  rcases List.append_eq_append_iff.1 h with ⟨p, hpre, hpost⟩ | ⟨p, hpre, hpost⟩
  · exact .inr ⟨p, hpre, hpost⟩
  · cases p with
    | nil => exact .inr ⟨[], by rw [hpre, List.append_nil, List.append_nil], hpost.symm⟩
    | cons y p =>
      obtain ⟨rfl, -⟩ := List.cons.inj hpost
      exact .inl ⟨p, hpre⟩

/-! ### An accepted ATTACH -/

/-- What an accepted ATTACH does (R181): the record is latched in `b`, the probe is made, the sweep ends in `w` with
`fail` marked, and then the block is `Ready`. -/
structure Attached (s : State) (b : Block) (new : List Obs) (fail : Byte) (w : State) : Prop where
  latched : Latched s b
  swept : Swept .startup true b.startup channels 0 (probe (s.setBlock b)).2 new fail w
  folded : channels.foldl (sweepOne .startup true b.startup) (0, (probe (s.setBlock b)).2) = (fail, w)
  answer : exec .attach s = .next (respond 0 (.ok (attachRsp fail (s.drawAt 0).fail.isSome))
    (w.setBlock (w.block.setSeq .ready)))

/-- Once the address is valid, ATTACH goes through (R181). -/
theorem attached_of_run {s : State} {b : Block} (hl : Latched s b) (he : exec .attach s = attachRun (s.setBlock b)) :
    ∃ new fail w, Attached s b new fail w := by
  obtain ⟨new, swept, answer⟩ := attachRun_spec (s.setBlock b)
  obtain ⟨-, -, -, hstartup, -⟩ := (probe_sameConfig (s.setBlock b)).latches
  have folded : startupSweep (probe (s.setBlock b)).2 = _ := startup_fold b.startup channels 0 _ hstartup
  rw [← he, probe_failed] at answer
  generalize startupSweep (probe (s.setBlock b)).2 = r at swept folded answer
  exact ⟨new, r.1, r.2, hl, swept, folded.symm, answer⟩

/-- A well-formed record with a legal address is accepted. -/
theorem attach_accepted {s : State} (hq : s.block.seq = .uninitialized) (hw : cfgWellFormed s.cfgIn.cfgWord = true)
    (ha : cfgAddr s.cfgIn.cfgWord ∈ s.params.validAddrs) : ∃ b new fail w, Attached s b new fail w := by
  obtain ⟨b, hl, he⟩ := exec_attach_of_wellFormed hq hw
  rw [if_pos (hl.addr ▸ ha)] at he
  exact ⟨b, attached_of_run hl he⟩

/-- Whatever ATTACH answers, it was accepted, or it left `SEQ` and put out a response only. -/
theorem attach_ends {s t : State} (h : exec .attach s = .next t) :
    (∃ b new fail w, Attached s b new fail w) ∨
      (t.block.seq = s.block.seq ∧ ∃ r, t.trace = s.trace ++ [.response r]) := by
  by_cases hq : s.block.seq = .uninitialized
  · cases hw : cfgWellFormed s.cfgIn.cfgWord with
    | false => rw [exec_attach_of_illFormed hq hw] at h; cases h
    | true =>
      obtain ⟨b, hl, he⟩ := exec_attach_of_wellFormed hq hw
      split at he
      · exact .inl ⟨b, attached_of_run hl he⟩
      · rw [he] at h
        cases h
        exact .inr ⟨hl.rest.1, _, rfl⟩
  · rw [exec_attach_of_ne hq] at h
    cases h
    exact .inr ⟨rfl, _, rfl⟩

/-- ATTACH that ends in `Ready` was accepted. -/
theorem attached_of_ready {s t : State} (h : exec .attach s = .next t) (ht : t.block.seq = .ready)
    (hq : s.block.seq = .uninitialized) : ∃ b new fail w, Attached s b new fail w := by
  refine (attach_ends h).resolve_right ?_
  rintro ⟨hseq, -⟩
  rw [ht, hq] at hseq
  cases hseq

section
variable {s w : State} {b : Block} {new : List Obs} {fail : Byte} (h : Attached s b new fail w)
include h

/-- The sweep ends with the latches of the record. -/
theorem Attached.latches : Machine.sameLatches b w.block :=
  ((probe_sameConfig (s.setBlock b)).trans h.swept.sameConfig).latches

/-- The traffic of an accepted ATTACH: the probe's, then the sweep's. -/
theorem Attached.traffic : Traffic b.addr (1 + cfgConfigured s.cfgIn.cfgWord)
    (probeEvents b.addr (s.setBlock b).seenDevReg (s.drawAt 0).fail ++ new) s w := by
  have sweep := h.swept.traffic
  rw [probe_block, portRead_addr] at sweep
  have both := (probe_events (s.setBlock b)).trans sweep
  rw [← configured_of_codes h.latched.startup]
  exact ⟨both.inputs, both.draws, both.devices, both.trace, both.count, both.addrs, both.silent⟩

/-- ATTACH's output: the probe's, the sweep's, then the response. -/
theorem Attached.trace (d : BitVec 16) (b' : Block) : (respond 0 (.ok d) (w.setBlock b')).trace =
    s.trace ++ (probeEvents b.addr (s.setBlock b).seenDevReg (s.drawAt 0).fail ++ new) ++
      [.response (rspWord 0 (.ok d))] := by
  rw [respond, State.emit_trace, State.setBlock_trace, h.traffic.trace]

/-- Before the sweep no cell is valid. -/
theorem Attached.noCell (hcv : s.block.cv = 0) : (probe (s.setBlock b)).2.block.cv = 0 := by
  rw [(probe_cells _).1]
  obtain ⟨-, hkept, -⟩ := h.latched.rest
  exact hkept.trans hcv

/-- A cell is valid after ATTACH exactly when its channel has a startup state and did not fail (R184). -/
theorem Attached.known (hcv : s.block.cv = 0) (c : Chan) :
    extractBit w.block.cv c = (cfgStartup s.cfgIn.cfgWord c != 2 && !extractBit fail c) := by
  have before : extractBit (probe (s.setBlock b)).2.block.cv c = false := by
    rw [h.noCell hcv]; exact extractBit_zero c
  rw [← h.latched.configured]
  cases hl : (b.startup[c]).level with
  | none =>
    have hu := TriCfg.level_eq_none_iff.1 hl
    rw [(h.swept.kept c (.inr (.inl hu))).1, before, hu]
    rfl
  | some l =>
    have hu : b.startup[c] ≠ .unset := fun hu => by rw [hu] at hl; cases hl
    rw [bne_iff_ne.2 hu, Bool.true_and]
    cases hg : extractBit fail c with
    | false => exact (h.swept.done c (mem_channels c) l hl hg).1
    | true => rw [(h.swept.kept c (.inr (.inr hg))).1, before]; rfl

/-- A valid cell holds its channel's startup level. -/
theorem Attached.level (hcv : s.block.cv = 0) {c : Chan} (hk : extractBit w.block.cv c = true) :
    extractBit w.block.cl c = (cfgStartup s.cfgIn.cfgWord c == 1) := by
  rw [h.known hcv, Bool.and_eq_true, bne_iff_ne, Bool.not_eq_true'] at hk
  obtain ⟨hset, hmark⟩ := hk
  have hl := h.latched.level c
  rw [if_neg hset] at hl
  exact (h.swept.done c (mem_channels c) _ hl hmark).2

/-- A report of ATTACH stands right after the failed transaction it is about. -/
theorem Attached.afterFail {pre post : List Obs} {ph : Phase} {c : Chan} {k : ErrKind}
    (e : probeEvents b.addr (s.setBlock b).seenDevReg (s.drawAt 0).fail ++ new = pre ++ .report ph c k :: post) :
    ∃ e, k = .busError e ∧ ((ph = .probe ∧ pre = [.bus (.read b.addr (.error e))]) ∨
      (ph = .startup ∧ ∃ pre' v, pre = pre' ++ [.bus (.write b.addr v (some e))])) := by
  rcases split_append e with ⟨q, hprobe⟩ | ⟨p, rfl, hnew⟩
  · obtain ⟨hph, x, hk, hpre⟩ := probeEvents_report hprobe
    exact ⟨x, hk, .inl ⟨hph, hpre⟩⟩
  · obtain ⟨hph, pre', v, x, hk, rfl⟩ := h.swept.afterFail hnew
    rw [probe_block, portRead_addr]
    exact ⟨x, hk, .inr ⟨hph, _, v, (List.append_assoc ..).symm⟩⟩

end

/-- Settles O26: the latches are the record's, the cells the sweep's, and the output the probe's and the sweep's. -/
theorem attachCompletes : Obligations.AttachCompletes := by
  intro s hq hcv hw ha
  obtain ⟨b, new, fail, w, h⟩ := attach_accepted hq hw ha
  have hlatched := h.latched
  have htraffic := h.traffic
  obtain ⟨haddr, hdevId, hon, hup, hdown, htrig, hname⟩ := h.latches
  refine ⟨_, _, fail, _, h.answer, rfl, h.trace _ _, ⟨haddr.trans hlatched.addr, hdevId.trans hlatched.devId,
    hname.trans hlatched.name, fun c => ⟨?_, ?_, ?_, ?_⟩⟩, h.known hcv, fun c => h.level hcv, fun c hmark => ?_, ?_,
    fun pre post ph c k e => ?_, ?_, ?_, htraffic.inputs, htraffic.draws⟩
  · exact (congrArg (extractBit · c) hon).trans (hlatched.onState c)
  · exact (congrArg (fun v => (v[c]).code) hup).trans (hlatched.startup c)
  · exact (congrArg (fun v => (v[c]).code) hdown).trans (hlatched.shutdown c)
  · exact (congrArg (extractBit · c) htrig).trans (hlatched.trig c)
  · exact bne_iff_ne.1 (hlatched.configured c ▸ bne_iff_ne.2 (h.swept.onlySet c (mem_channels c) hmark))
  · rw [reports_append, List.map_append, reports_probeEvents, h.swept.ordered]
  · have hafter := h.afterFail e
    rwa [← haddr] at hafter
  · rw [Option.isSome_iff_ne_none]
  · rw [← haddr] at htraffic
    exact htraffic.devices

end Sys2Proof.Machine
end

section
/-! SUPPORT. The startup sweep when every transaction is answered Ok and no other agent exists (44_lifecycle_sequencer.md
rules R183, R184, R187): the bytes it writes, and the device it leaves. -/

namespace Sys2Proof.Machine

/-! ### One channel at a time -/

/-- A sweep leaves channels without a configured state untouched. -/
theorem foldl_sweepOne_unset {ph : Phase} {tr : Bool} {v : Vector TriCfg 8} {cs : List Chan}
    (h : ∀ c ∈ cs, (v[c]).level = none) (acc : Byte × State) : cs.foldl (sweepOne ph tr v) acc = acc := by
  induction cs with
  | nil => rfl
  | cons c cs ih =>
    have skip : sweepOne ph tr v acc c = acc := by rw [sweepOne, h c List.mem_cons_self]
    rw [List.foldl_cons, skip]
    exact ih fun j hj => h j (List.mem_cons_of_mem _ hj)

/-- A configured channel whose switch is answered Ok: the write of the target byte, the trigger if there is one, and the
cell set. -/
theorem sweepOne_ok (ph : Phase) (tr : Bool) {v : Vector TriCfg 8} {c : Chan} {l : Bool} (f : Byte) {s : State}
    (hl : (v[c]).level = some l) (hok : (s.drawAt 0).fail = none) :
    ∃ t, sweepOne ph tr v (f, s) c = (f, t) ∧ t.block = cacheSet c l s.block ∧
      t.device s.block.addr = composeBits (target s.block c l) ∧ tookDraws 1 s t ∧
      t.trace = s.trace ++ switchEvents ph s.block.addr s.block.devId (tr && extractBit s.block.trig c)
        (composeBits (target s.block c l)) c none := by
  have hs : sweepOne ph tr v (f, s) c = sweepSwitch ph tr c l (f, s) := by rw [sweepOne, hl]
  rw [hs, sweepSwitch, doSwitch_ok c l s hok]
  dsimp only
  split
  · rename_i hflag
    have flag : (tr && extractBit s.block.trig c) = true := hflag
    exact ⟨_, rfl, rfl, by simp, by simp [tookDraws], by simp [switchEvents, flag]⟩
  · rename_i hflag
    have flag : ¬ (tr && extractBit s.block.trig c) = true := hflag
    exact ⟨_, rfl, rfl, by simp, by simp [tookDraws], by simp [switchEvents, flag]⟩

/-- The physical bit of a level is the level through the record's polarity (R155). -/
theorem Attached.phys {s w : State} {b : Block} {new : List Obs} {fail : Byte} (h : Attached s b new fail w) (c : Chan)
    (l : Bool) : phys (probe (s.setBlock b)).2.block c l = !(l ^^ cfgOnState s.cfgIn.cfgWord c) := by
  obtain ⟨-, -, hon, -⟩ := (probe_sameConfig (s.setBlock b)).latches
  rw [Machine.phys, hon, State.setBlock_block, h.latched.onState]

section
variable {s w : State} {b : Block} {new : List Obs} {fail : Byte} (h : Attached s b new fail w)
include h

/-- With no other agent and the probe answered Ok, the sweep begins with the device's byte as shadow byte (R183). -/
theorem Attached.probed (hcv : s.block.cv = 0) (hext : s.params.extAgents = false) (hok : (s.drawAt 0).fail = none) :
    shadowByte (probe (s.setBlock b)).2.block = s.device (cfgAddr s.cfgIn.cfgWord) ∧
      (probe (s.setBlock b)).2.device (probe (s.setBlock b)).2.block.addr = s.device (cfgAddr s.cfgIn.cfgWord) := by
  obtain ⟨-, hkept, -⟩ := h.latched.rest
  obtain ⟨hshadow, hdevice⟩ := probe_shadowByte (s := s.setBlock b) hext (hkept.trans hcv) hok
  have hreg : (s.setBlock b).devReg = s.device (cfgAddr s.cfgIn.cfgWord) := congrArg s.device h.latched.addr
  rw [← hreg]
  refine ⟨hshadow, ?_⟩
  rw [probe_block, portRead_addr]
  exact hdevice

/-- With every answer Ok and no other agent, ATTACH marks nothing and leaves the device as the shadow byte has it. -/
theorem Attached.mirrors (hcv : s.block.cv = 0) (hext : s.params.extAgents = false) (hok : s.answersOk 9) :
    fail = 0 ∧ w.device (cfgAddr s.cfgIn.cfgWord) = shadowByte w.block := by
  obtain ⟨hshadow, hdevice⟩ := h.probed hcv hext (hok 0 (by decide))
  have hcount : (channels.filter fun c => b.startup[c] != .unset).length ≤ 8 := List.length_filter_le _ channels
  have hm := sweep_mirrors .startup true b.startup channels 0 (probe (s.setBlock b)).2
    (fun k hk => by rw [probe_drawAt]; exact hok (1 + k) (by omega))
    (.inl (hdevice.trans hshadow.symm))
  rw [h.folded, probe_block, portRead_addr, State.setBlock_block, h.latched.addr] at hm
  exact hm

end

/-- Settles O29: the device ends as the shadow byte, which the probe made the device's and the sweep then changes channel
by channel. -/
theorem startupPreservesUnsetPins : Obligations.StartupPreservesUnsetPins := by
  intro s hq hcv hw ha hext hok
  obtain ⟨b, new, fail, w, h⟩ := attach_accepted hq hw ha
  obtain ⟨hfail, hdevice⟩ := h.mirrors hcv hext hok
  obtain ⟨hshadow, -⟩ := h.probed hcv hext (hok 0 (by decide))
  refine ⟨_, h.answer, fun c => ?_⟩
  have hmark : extractBit fail c = false := by rw [hfail]; exact extractBit_zero c
  change extractBit (w.device (cfgAddr s.cfgIn.cfgWord)) c = _
  rw [hdevice, extractBit_shadowByte, h.swept.shadowBit hmark, h.latched.level]
  split
  · rw [Option.elim_none, ← hshadow, extractBit_shadowByte]
  · rw [Option.elim_some, h.phys]

/-! ### The source's example -/

/-- The byte of a switch after one answered Ok: that one's byte with one more bit replaced (R156). -/
theorem composeBits_target_after (b : Block) (c j : Chan) (l m : Bool) :
    composeBits (target (cacheSet c l b) j m) = insertBit (composeBits (target b c l)) j (phys b j m) := by
  rw [composeBits_target_eq_insertBit, shadowByte_cacheSet]
  rfl

/-- The startup sweep where channel 0 is on, channel 1 off and no other channel configured, both answered Ok (R187). -/
theorem startup_onOff {v : Vector TriCfg 8} {s : State} (hon : (v[(0 : Chan)]).level = some true)
    (hoff : (v[(1 : Chan)]).level = some false) (hrest : ∀ c : Chan, 2 ≤ c.val → (v[c]).level = none)
    (hok : s.answersOk 2) (W0 W1 : Byte) (hW0 : W0 = insertBit (shadowByte s.block) 0 (phys s.block 0 true))
    (hW1 : W1 = insertBit W0 1 (phys s.block 1 false)) :
    ∃ t, channels.foldl (sweepOne .startup true v) (0, s) = (0, t) ∧ t.device s.block.addr = W1 ∧
      t.trace = s.trace ++
        switchEvents .startup s.block.addr s.block.devId (extractBit s.block.trig 0) W0 0 none ++
        switchEvents .startup s.block.addr s.block.devId (extractBit s.block.trig 1) W1 1 none := by
  obtain ⟨t, ht, htblock, -, httook, httrace⟩ := sweepOne_ok .startup true 0 hon (hok 0 (by decide))
  obtain ⟨u, hu, -, hudevice, -, hutrace⟩ := sweepOne_ok .startup true 0 hoff
    (by rw [drawAt_of_tookDraws httook]; exact hok 1 (by decide))
  rw [composeBits_target_eq_insertBit, ← hW0] at httrace
  rw [htblock, composeBits_target_after, composeBits_target_eq_insertBit, ← hW0, ← hW1] at hudevice hutrace
  refine ⟨u, ?_, hudevice, ?_⟩
  · rw [show channels = 0 :: 1 :: [2, 3, 4, 5, 6, 7] from rfl, List.foldl_cons, ht, List.foldl_cons, hu]
    exact foldl_sweepOne_unset (fun c hc => hrest c (by revert c; decide)) _
  · rw [hutrace, httrace]
    rfl

/-- ATTACH's data where nothing failed (30_encoding.md rule R99). -/
@[simp] theorem attachRsp_nothingFailed : attachRsp 0#8 false = 0#16 := by decide

/-- Settles O28: the probe makes the device's byte the shadow byte, and each of the two switches replaces one bit of it. -/
theorem startupExample : Obligations.StartupExample := by
  rintro s a P d w rfl rfl rfl rfl hq hcv hw ha hext hok hup0 htrig0 hup1 htrig1 hrest
  obtain ⟨b, new, fail, u, h⟩ := attach_accepted hq hw ha
  have hl := h.latched
  have level (c : Chan) := hl.level c
  obtain ⟨hshadow, -⟩ := h.probed hcv hext (hok 0 (by decide))
  have probed := probe_events (s.setBlock b)
  have draw (k : Nat) := probe_drawAt s b k
  have folded := h.folded
  have phys := h.phys
  obtain ⟨haddr, hdevId, -, -, -, htrig, -⟩ := (probe_sameConfig (s.setBlock b)).latches
  generalize (probe (s.setBlock b)).2 = p at hshadow probed draw folded phys haddr hdevId htrig
  obtain ⟨t, ht, hdevice, htrace⟩ := startup_onOff (v := b.startup) (s := p) (by rw [level, hup0]; rfl)
    (by rw [level, hup1]; rfl) (fun c hc => by rw [level, hrest c hc]; rfl)
    (fun k hk => by rw [draw]; exact hok (1 + k) (by omega))
    (insertBit (s.device (cfgAddr s.cfgIn.cfgWord)) 0 (cfgOnState s.cfgIn.cfgWord 0)) _
    (by rw [hshadow, phys, Bool.true_xor, Bool.not_not]) (by rw [phys, Bool.false_xor])
  obtain ⟨rfl, rfl⟩ := Prod.mk.inj (folded.symm.trans ht)
  rw [haddr, State.setBlock_block, hl.addr] at hdevice
  refine ⟨_, _, _, h.answer, rfl, rfl, ?_, hdevice, fun j hj => ?_⟩
  · have seen : (s.setBlock b).seenDevReg = s.device (cfgAddr s.cfgIn.cfgWord) :=
      (State.seenDevReg_alone (s := s.setBlock b) hext).trans (congrArg s.device hl.addr)
    have ok : ((s.setBlock b).drawAt 0).fail = none := hok 0 (by decide)
    rw [respond, State.emit_trace, State.setBlock_trace, htrace, probed.trace, hok 0 (by decide), ok, seen, haddr, hdevId,
      htrig, State.setBlock_block, hl.addr, hl.devId, hl.trig, hl.trig, htrig0, htrig1]
    simp [switchEvents, probeEvents]
  · have other : j ≠ 0 ∧ j ≠ 1 := by revert j; decide
    change extractBit (u.device _) j = _
    rw [hdevice, extractBit_insertBit, if_neg other.2, extractBit_insertBit, if_neg other.1]

end Sys2Proof.Machine
end

section
/-! SUPPORT. What the two sweeps put out (44_lifecycle_sequencer.md rules R184 to R186, R189), and where triggers come
from (R186). -/

namespace Sys2Proof.Machine

/-! ### The events of the sweeps -/

/-- A sweep over all channels marks exactly the configured ones whose draw fails. -/
theorem Swept.marked_iff {ph : Phase} {tr : Bool} {v : Vector TriCfg 8} {f g : Byte} {s t : State} {new : List Obs}
    (h : Swept ph tr v channels f s new g t) (c : Chan) : extractBit g c = true ↔
      c ∈ sweepChannels v ∧ (s.drawAt ((sweepChannels v).idxOf c)).fail ≠ none := by
  rw [h.marked (mem_channels c), Bool.and_eq_true, Option.isSome_iff_ne_none, sweepChannels, List.mem_filter,
    and_iff_right (mem_channels c)]

section
variable {s w : State} {b : Block} {new : List Obs} {fail : Byte} (h : Attached s b new fail w)
include h

/-- The state an accepted ATTACH ends in: `Ready`, with the latches of the record, and the response put out last. -/
theorem Attached.ends : ∃ t, exec .attach s = .next t ∧ t.block.seq = .ready ∧ Machine.sameLatches b t.block ∧
    t.trace = s.trace ++ (probeEvents b.addr (s.setBlock b).seenDevReg (s.drawAt 0).fail ++ new) ++
      [.response (rspWord 0 (.ok (attachRsp fail (s.drawAt 0).fail.isSome)))] :=
  ⟨_, h.answer, rfl, h.latches, h.trace _ _⟩

/-- The events of ATTACH's sweep, channel by channel. -/
theorem Attached.events : ∃ val : Chan → Byte, new = (sweepChannels b.startup).flatMap fun c =>
    switchEvents .startup b.addr b.devId (extractBit b.trig c) (val c) c
      (s.drawAt (1 + (sweepChannels b.startup).idxOf c)).fail := by
  obtain ⟨val, events⟩ := h.swept.events
  obtain ⟨haddr, hdevId, -, -, -, htrig, -⟩ := (probe_sameConfig (s.setBlock b)).latches
  simp only [haddr, hdevId, htrig, probe_drawAt, Bool.true_and] at events
  exact ⟨val, events⟩

/-- ATTACH's triggers: those of the channels with a startup state that are flagged and did not fail, in order (R186). -/
theorem Attached.fired : triggers (probeEvents b.addr (s.setBlock b).seenDevReg (s.drawAt 0).fail ++ new) =
    (channels.filter fun c => b.startup[c] != .unset && extractBit b.trig c && !extractBit fail c).map
      fun c => (b.devId, c) := by
  have fired := h.swept.fired
  obtain ⟨-, hdevId, -, -, -, htrig, -⟩ := (probe_sameConfig (s.setBlock b)).latches
  rw [if_pos rfl, hdevId, htrig] at fired
  rw [triggers_append, triggers_probeEvents, List.nil_append, fired]
  rfl

/-- A trigger stands right after a write to `ADDR` answered Ok. -/
theorem Attached.afterWrite {pre post : List Obs} {d : Nat} {c : Chan} {r : RspWord}
    (e : probeEvents b.addr (s.setBlock b).seenDevReg (s.drawAt 0).fail ++ new ++ [.response r] =
      pre ++ .trig d c :: post) : ∃ pre' v, pre = pre' ++ [.bus (.write b.addr v none)] := by
  obtain ⟨q, hq⟩ | ⟨p, -, hp⟩ := split_append e
  · obtain ⟨q', hprobe⟩ | ⟨p, rfl, hnew⟩ := split_append hq
    · exact absurd hprobe probeEvents_ne_trig
    · obtain ⟨pre', v, rfl⟩ := h.swept.afterWrite _ _ _ _ hnew
      rw [probe_block, portRead_addr]
      exact ⟨_, v, (List.append_assoc ..).symm⟩
  · exact absurd hp response_ne_trig

end

/-- Settles O59: the events are those of each sweep, and `FAIL` marks the configured channels whose draw fails. -/
theorem sweepEventsChannelByChannel : Obligations.SweepEventsChannelByChannel := by
  refine ⟨fun s hq => ?_, fun s hq hw ha => ?_⟩
  · obtain ⟨new, fail, w, h⟩ := stop_of_ready hq
    obtain ⟨val, events⟩ := h.swept.events
    refine ⟨_, fail, val, h.answer, ?_, h.swept.marked_iff⟩
    rw [h.trace, events]
    rfl
  · obtain ⟨b, new, fail, w, h⟩ := attach_accepted hq hw ha
    obtain ⟨val, events⟩ := h.events
    obtain ⟨t, ht, -, ⟨haddr, hdevId, -, hup, -, htrig, -⟩, htrace⟩ := h.ends
    have marked (c : Chan) := h.swept.marked_iff c
    simp only [probe_drawAt] at marked
    have seen : (s.setBlock t.block).seenDevReg = (s.setBlock b).seenDevReg :=
      (s.setBlock b).seenDevReg_setBlock (b := t.block) haddr
    refine ⟨t, fail, _, val, ht, ?_, Option.isSome_iff_ne_none, ?_⟩
    · rw [htrace, events, haddr, hdevId, hup, htrig, seen]
      cases (s.drawAt 0).fail <;> simp [probeEvents]
    · rw [hup]
      exact marked

/-! ### Triggers -/

/-- No effect but ATTACH's puts out a trigger. -/
theorem Effect.noTrigger {s u : State} {i : Instr} (h : Effect s i u) (hi : i ≠ .attach) :
    ∃ new, u.trace = s.trace ++ new ∧ triggers new = [] := by
  cases h with
  | unchanged => exact ⟨[], (List.append_nil _).symm, rfl⟩
  | read => exact ⟨_, (portRead_traffic s).trace, rfl⟩
  | write v => exact ⟨_, (portWrite_traffic v s).trace, rfl⟩
  | readWrite v =>
    exact ⟨_, by rw [(portWrite_traffic v _).trace, (portRead_traffic s).trace, List.append_assoc], rfl⟩
  | switch n c l => exact ⟨_, (doSwitch_traffic c l s).trace, rfl⟩
  | attachRefused => exact absurd rfl hi
  | attach => exact absurd rfl hi
  | stop =>
    obtain ⟨new, hs⟩ := shutdownSweep_swept s
    exact ⟨new, (State.setBlock_trace _ _).trans hs.traffic.trace, hs.fired⟩

/-- Settles O30: only ATTACH has an effect with triggers, and those are its sweep's. -/
theorem triggersOnlyAtStartup : Obligations.TriggersOnlyAtStartup := by
  refine ⟨fun i s t hi h => ?_, fun s t h ht hq => ?_, fun s t pre post d c h e => ?_⟩
  · obtain ⟨u, r, rfl, hu⟩ := exec_effect i s t h
    obtain ⟨new, htrace, hnone⟩ := hu.noTrigger hi
    refine ⟨new ++ [.response (rspWord i.idx r)], ?_, ?_⟩
    · rw [respond, State.emit_trace, htrace, List.append_assoc]
    · rw [triggers_append, hnone]
      rfl
  · obtain ⟨b, new, fail, w, ha⟩ := attached_of_ready h ht hq
    obtain ⟨t', ht', -, ⟨-, hdevId, -, hup, -, htrig, -⟩, htrace⟩ := ha.ends
    obtain rfl := Host.Outcome.next.inj (h.symm.trans ht')
    rw [hdevId, hup, htrig]
    exact ⟨_, fail, _, htrace, ha.fired⟩
  · obtain ⟨b, new, fail, w, ha⟩ | ⟨-, r, htrace⟩ := attach_ends h
    · obtain ⟨t', ht', -, ⟨haddr, -⟩, htrace⟩ := ha.ends
      obtain rfl := Host.Outcome.next.inj (h.symm.trans ht')
      rw [htrace, List.append_assoc] at e
      rw [haddr]
      exact ha.afterWrite (List.append_cancel_left e)
    · rw [htrace] at e
      exact absurd (List.append_cancel_left e) response_ne_trig

end Sys2Proof.Machine
end

section
/-! SUPPORT. The sweeps as SWITCH commands one after another (44_lifecycle_sequencer.md rules R181, R184, R189): a run of
commands in `Ready` that follows a sweep, transaction by transaction. -/

namespace Sys2Proof.Machine

/-! ### The same state in `Ready`, with another trace -/

/-- The state in `Ready` instead, having put out `l` instead. -/
def State.asReady (t : State) (l : List Obs) : State := { t with block := t.block.setSeq .ready, trace := l }

/-- Another agent's step is the same in `Ready`. -/
theorem State.foreignStep_asReady (t : State) (l : List Obs) (v : Option Byte) :
    (t.asReady l).foreignStep v = (t.foreignStep v).asReady l := by
  unfold State.foreignStep
  rw [show (t.asReady l).params = t.params from rfl]
  split <;> rfl

/-- A transaction starts the same in `Ready`. -/
theorem State.startTx_asReady (t : State) (l : List Obs) : (t.asReady l).startTx = t.startTx.asReady l := by
  change ((t.asReady l).foreignStep t.nextDraw.foreign).takeDraw = _
  rw [State.foreignStep_asReady]
  rfl

/-- `port_read` does the same in `Ready` (R120). -/
theorem portRead_asReady (t : State) (l : List Obs) :
    (portRead (t.asReady l)).2 =
      (portRead t).2.asReady (l ++ [.bus (.read t.block.addr (portRead t).1)]) := by
  have draw : (t.asReady l).drawAt 0 = t.drawAt 0 := rfl
  cases hf : (t.drawAt 0).fail with
  | none => rw [portRead_ok t hf, portRead_ok _ (draw ▸ hf), t.startTx_asReady]; rfl
  | some e => rw [portRead_error t hf, portRead_error _ (draw ▸ hf), t.startTx_asReady]; rfl

/-- `do_switch` does the same in `Ready` (R157). -/
theorem doSwitch_asReady (c : Chan) (v : Bool) (t : State) (l : List Obs) :
    (doSwitch c v (t.asReady l)).2 = (doSwitch c v t).2.asReady
      (l ++ [.bus (.write t.block.addr (composeBits (target t.block c v)) (t.drawAt 0).fail)]) := by
  have draw : (t.asReady l).drawAt 0 = t.drawAt 0 := rfl
  cases hf : (t.drawAt 0).fail with
  | none => rw [doSwitch_ok c v t hf, doSwitch_ok c v _ (draw ▸ hf), t.startTx_asReady]; rfl
  | some e =>
    rw [doSwitch_error c v t hf, doSwitch_error c v _ (draw ▸ hf), t.startTx_asReady, draw]
    split <;> rfl

/-! ### A run of commands that follows a sweep -/

/-- `u` is `t` in `Ready`, with the same transactions put out since `s`. -/
def Follows (s t u : State) : Prop :=
  ∃ new new', t.trace = s.trace ++ new ∧ u = t.asReady (s.trace ++ new') ∧ busTxs new = busTxs new'

/-- At the beginning, whatever block the sweep's command starts from. -/
theorem follows_setBlock (s : State) (b : Block) : Follows s (s.setBlock b) (s.setBlock (b.setSeq .ready)) :=
  ⟨[], [], (List.append_nil _).symm, by rw [List.append_nil]; rfl, rfl⟩

section
variable {s t u : State} (h : Follows s t u)
include h

/-- The one that follows is in `Ready`. -/
theorem Follows.ready : u.block.seq = .ready := by
  obtain ⟨_, _, -, rfl, -⟩ := h
  rfl

/-- Its block is the other's, in `Ready`. -/
theorem Follows.block : u.block = t.block.setSeq .ready := by
  obtain ⟨_, _, -, rfl, -⟩ := h
  rfl

/-- The sweep's own events are no transactions. -/
theorem Follows.emit {o : Obs} (ho : o.tx? = none) : Follows s (t.emit o) u := by
  obtain ⟨new, new', htrace, rfl, hbus⟩ := h
  refine ⟨new ++ [o], new', by rw [State.emit_trace, htrace, List.append_assoc], rfl, ?_⟩
  rw [busTxs_append, hbus]
  simp [busTxs, ho]

/-- A command's response is no transaction. -/
theorem Follows.respond (ch : Idx) (r : Result) : Follows s t (respond ch r u) := by
  obtain ⟨new, new', htrace, rfl, hbus⟩ := h
  refine ⟨new, new' ++ [.response (rspWord ch r)], htrace, ?_, by simp [hbus]⟩
  rw [← List.append_assoc]
  rfl

/-- The same read on both sides. -/
theorem Follows.portRead : Follows s (portRead t).2 (portRead u).2 := by
  obtain ⟨new, new', htrace, rfl, hbus⟩ := h
  refine ⟨_, _, by rw [(portRead_traffic t).trace, htrace, List.append_assoc],
    by rw [portRead_asReady, List.append_assoc], ?_⟩
  rw [busTxs_append, busTxs_append, hbus]

/-- The same switch on both sides. -/
theorem Follows.doSwitch (c : Chan) (v : Bool) : Follows s (doSwitch c v t).2 (doSwitch c v u).2 := by
  obtain ⟨new, new', htrace, rfl, hbus⟩ := h
  refine ⟨_, _, by rw [(doSwitch_traffic c v t).trace, htrace, List.append_assoc],
    by rw [doSwitch_asReady, List.append_assoc], ?_⟩
  rw [busTxs_append, busTxs_append, hbus]

/-- What the bus shows is the same, whatever block and response the sweep's command then ends with. -/
theorem Follows.sameBus (b : Block) (ch : Idx) (r : Result) :
    Machine.sameBus s (Machine.respond ch r (t.setBlock b)) u := by
  obtain ⟨new, new', htrace, rfl, hbus⟩ := h.emit (o := .response (rspWord ch r)) rfl
  exact ⟨rfl, rfl, rfl, new, new', htrace, rfl, hbus⟩

/-- The probe is followed by PORT_READ. -/
theorem Follows.probe : Follows s (probe t).2 (Machine.portRead u).2 := by
  obtain e | ⟨c, e⟩ := probe_eq t
  · rw [e]; exact h.portRead
  · rw [e]; exact h.portRead.emit rfl

/-- One switch of a sweep is followed by its `do_switch`. -/
theorem Follows.sweepSwitch (ph : Phase) (tr : Bool) (c : Chan) (v : Bool) (f : Byte) :
    Follows s (sweepSwitch ph tr c v (f, t)).2 (Machine.doSwitch c v u).2 := by
  have switched := h.doSwitch c v
  unfold Machine.sweepSwitch
  generalize Machine.doSwitch c v t = r at switched ⊢
  split
  · split
    · exact switched.emit rfl
    · exact switched
  · exact switched.emit rfl

end

/-- In `Ready`, SWITCH of a channel does `do_switch` and sends a response (R158). -/
theorem exec_switch_respond (c : Chan) (l : Bool) {u : State} (hq : u.block.seq = .ready) :
    ∃ r, exec (.switch (BitVec.ofNat 4 c.val) l) u = .next (respond (BitVec.ofNat 4 c.val) r (doSwitch c l u).2) := by
  rw [exec_switch_ofNat, requireReady_of_ready hq]
  exact ⟨_, rfl⟩

/-- In `Ready`, PORT_READ does `port_read` and sends a response (R122). -/
theorem exec_portRead_respond {u : State} (hq : u.block.seq = .ready) :
    ∃ r, exec .portRead u = .next (respond 0 r (portRead u).2) := by
  rw [exec, execPortRead, requireReady_of_ready hq]
  exact ⟨_, rfl⟩

/-- A command that answers is followed by the rest of the run. -/
theorem runCommands_cons {i : Instr} {l : List Instr} {s t : State} (h : exec i s = .next t) :
    runCommands (i :: l) s = runCommands l t := by
  rw [runCommands, h]

/-- A sweep over channels is followed by the SWITCH commands of the configured ones, in order. -/
theorem runCommands_follows (ph : Phase) (tr : Bool) (v : Vector TriCfg 8) {s : State} (cs : List Chan) :
    ∀ (f : Byte) (t u : State), Follows s t u → ∃ u',
      runCommands (cs.filterMap fun c => (v[c]).level.map (Instr.switch (BitVec.ofNat 4 c.val))) u = .next u' ∧
      Follows s (cs.foldl (sweepOne ph tr v) (f, t)).2 u' := by
  induction cs with
  | nil => exact fun f t u h => ⟨u, rfl, h⟩
  | cons c cs ih =>
    intro f t u h
    rw [List.foldl_cons, sweepOne]
    cases hl : (v[c]).level with
    | none =>
      rw [List.filterMap_cons_none (by rw [hl]; rfl)]
      exact ih f t u h
    | some l =>
      obtain ⟨r, hr⟩ := exec_switch_respond c l h.ready
      rw [List.filterMap_cons_some (b := .switch (BitVec.ofNat 4 c.val) l) (by rw [hl]; rfl), runCommands_cons hr]
      exact ih _ _ _ ((h.sweepSwitch ph tr c l f).respond _ r)

/-! ### STOP and ATTACH -/

/-- The block of an accepted ATTACH with its cells and last-read latch put back is the one the record was latched in, but
`Ready`. -/
theorem Attached.restored {s w : State} {b : Block} {new : List Obs} {fail : Byte} (h : Attached s b new fail w) :
    { w.block.setSeq .ready with cv := s.block.cv, cl := s.block.cl, lastRd := s.block.lastRd,
                                 lastRdValid := s.block.lastRdValid } = b.setSeq .ready := by
  obtain ⟨haddr, hdevId, hon, hup, hdown, htrig, hname⟩ := h.latches
  obtain ⟨-, hcv, hcl, hlast, hvalid⟩ := h.latched.rest
  simp only [Block.setSeq, haddr, hdevId, hon, hup, hdown, htrig, hname, ← hcv, ← hcl, ← hlast, ← hvalid]

/-- Settles O33: the run of commands follows the sweep, and the sweep's command then only sets the block and responds. -/
theorem sweepsAreSwitchesInOrder : Obligations.SweepsAreSwitchesInOrder := by
  refine ⟨fun s t hq h => ?_, fun s t hq h ht => ?_⟩
  · obtain ⟨new, fail, w, hs⟩ := stop_of_ready hq
    obtain rfl := Host.Outcome.next.inj (h.symm.trans hs.answer)
    have start : Follows s s s := by
      have same : s.block.setSeq .ready = s.block := by rw [← hq]; rfl
      simpa only [same, State.setBlock_self] using follows_setBlock s s.block
    obtain ⟨u, hu, follows⟩ := runCommands_follows .shutdown false s.block.shutdown channels 0 s s start
    rw [hs.folded] at follows
    refine ⟨u, hu, ?_, follows.sameBus _ _ _⟩
    rw [follows.block]
    rfl
  · obtain ⟨b, new, fail, w, ha⟩ := attached_of_ready h ht hq
    obtain rfl := Host.Outcome.next.inj (h.symm.trans ha.answer)
    have start := follows_setBlock s b
    obtain ⟨r, hr⟩ := exec_portRead_respond start.ready
    obtain ⟨u, hu, follows⟩ := runCommands_follows .startup true b.startup channels 0 _ _ (start.probe.respond 0 r)
    rw [ha.folded] at follows
    refine ⟨u, ?_, follows.block.symm, follows.sameBus _ _ _⟩
    obtain ⟨-, -, -, hup, -⟩ := ha.latches
    change runCommands (.portRead :: sweepCommands w.block.startup) (s.setBlock
      { w.block.setSeq .ready with cv := s.block.cv, cl := s.block.cl, lastRd := s.block.lastRd,
                                   lastRdValid := s.block.lastRdValid }) = _
    rw [ha.restored, hup, runCommands_cons hr]
    exact hu

end Sys2Proof.Machine
end

section
/-! SUPPORT. How commands end in an error (60_exceptions.md rules R203 to R206): the state check and the index check over
all commands, and what a command that answers an error has done. -/

namespace Sys2Proof.Machine

/-! ### The two checks -/

/-- Outside `Ready` the state check fails for every command but ATTACH and the two that have none (R203). -/
theorem stateOk_of_ne_ready {i : Instr} {s : State} (ha : i ≠ .attach) (hr : i ≠ .isReady) (ho : ∀ c, i ≠ .isOn c)
    (hq : s.block.seq ≠ .ready) : stateOk i s = false := by
  refine stateOk_eq_false_iff.2 ⟨.ready, ?_, hq⟩
  cases i with
  | isReady => exact absurd rfl hr
  | attach => exact absurd rfl ha
  | isOn c => exact absurd rfl (ho c)
  | stop | switch | read | readAll | portRead | portWrite | getBit | setBit | setAll => rfl

/-- Settles O34: the state check is the same for every command that has one; IS_ON ends with its index check or with the
cell's value. -/
theorem stateCheck : Obligations.StateCheck := by
  refine ⟨fun s => exec_attach_of_ne, fun i s ha hr ho hq => exec_of_stateOk_false (stateOk_of_ne_ready ha hr ho hq), ?_⟩
  rintro i s (rfl | ⟨c, rfl⟩)
  · exact ⟨_, rfl, nofun⟩
  · by_cases hc : c.toNat ≤ 7
    · exact ⟨_, exec_isOn_of_le hc s, nofun⟩
    · exact ⟨_, exec_of_idx_gt rfl (Nat.lt_of_not_le hc), nofun⟩

/-- Settles O35: IS_ON has no state check, and in `Ready` that of the other four is passed. -/
theorem indexCheck : Obligations.IndexCheck := by
  refine fun i s hi => ⟨exec_of_idx_gt rfl hi, ?_⟩
  rintro hq j (rfl | rfl | ⟨l, rfl⟩ | ⟨b, rfl⟩) <;> exact requireReady_requireChan_of_gt hq hi _

/-! ### What a failed bus operation does to the block -/

/-- The block is as it was, but that a read answered Ok may have set the last-read latch (R120). -/
def ReadAtMost (s u : State) : Prop := u.block = s.block ∨ ∃ v, u.block = s.block.setLastRd v

/-- `port_read` sets the last-read latch or nothing (R120). -/
theorem portRead_readAtMost (s : State) : ReadAtMost s (portRead s).2 := by
  unfold ReadAtMost
  rw [portRead_block]
  split
  · exact .inr ⟨_, rfl⟩
  · exact .inl rfl

/-- A switch that failed has set no cell (R157). -/
theorem doSwitch_block_of_error {c : Chan} {l : Bool} {s : State} {e : Cause} (h : (doSwitch c l s).1 = .error e) :
    (doSwitch c l s).2.block = s.block := by
  rw [doSwitch_answer] at h
  rw [doSwitch_block, if_neg fun hf => by rw [hf] at h; cases h]

/-! ### What a command that ends in an error has done -/

/-- The state in which a command sends the error response `k`. -/
inductive Failed (s : State) (i : Instr) (k : ErrKind) : State → Prop
  /-- Turned away by a check (R203, R204). -/
  | turnedAway : Failed s i k s
  /-- ATTACH that finds an illegal address in the record it latched (R181 b). -/
  | attachRefused (hi : i = .attach) (b : Block) (hl : latchConfig s.params.devIdW s.cfgIn s.block = some b) :
      Failed s i k (s.setBlock b)
  /-- The transport failed a transaction (R205). -/
  | transport (c : Cause) (hk : k = .busError c) {u : State} (hu : ReadAtMost s u) : Failed s i k u

/-- The outcome is a response of `i`, and an error response is sent in a state that `Failed` lists. -/
def Fails (i : Instr) (s : State) (o : Host.Outcome State Fault Refusal) : Prop :=
  ∀ t, o = .next t → ∃ u r, t = respond i.idx r u ∧ ∀ k, r = .err k → Failed s i k u

/-- An Ok response is no error. -/
theorem fails_ok (i : Instr) (s u : State) (d : BitVec 16) : Fails i s (returnOk i.idx d u) := by
  rintro t ⟨⟩
  exact ⟨u, .ok d, rfl, nofun⟩

/-- An error raised in a listed state. -/
theorem fails_raise {i : Instr} {s u : State} {k : ErrKind} (h : Failed s i k u) : Fails i s (raise i.idx k u) := by
  rintro t ⟨⟩
  exact ⟨u, .err k, rfl, fun _ e => by cases e; exact h⟩

/-- A command behind the state check (R203). -/
theorem fails_requireReady {i : Instr} {s : State} {run : Host.Outcome State Fault Refusal} (h : Fails i s run) :
    Fails i s (requireReady i.idx s run) := by
  unfold requireReady
  split
  · exact h
  · exact fails_raise .turnedAway

/-- A command behind the index check (R204). -/
theorem fails_requireChan {i : Instr} {s : State} {run : Chan → Host.Outcome State Fault Refusal}
    (h : ∀ c, Fails i s (run c)) : Fails i s (requireChan i.idx s run) := by
  unfold requireChan
  split
  · exact fails_raise .turnedAway
  · exact h _

/-- A command that ends as its bus operation does (R205). -/
theorem fails_finish {α : Type} {i : Instr} {s : State} {r : Except Cause α × State} {data : α → BitVec 16}
    (h : ∀ e, r.1 = .error e → ReadAtMost s r.2) : Fails i s (finish i.idx (withData r data)) := by
  obtain ⟨a, u⟩ := r
  cases a with
  | ok a => exact fails_ok i s u (data a)
  | error e => exact fails_raise (.transport e rfl (h e rfl))

/-- ATTACH fails in its own two checks only (R181). -/
theorem fails_attach (s : State) : Fails .attach s (execAttach s) := by
  unfold execAttach
  split
  · split
    · exact nofun
    · rename_i b hl
      split
      · exact fails_ok .attach s _ _
      · exact fails_raise (i := .attach) (.attachRefused rfl b hl)
  · exact fails_raise (i := .attach) .turnedAway

/-- Every command that ends in an error has done what `Failed` lists, and then sent its response. -/
theorem exec_fails (i : Instr) (s : State) : Fails i s (exec i s) := by
  cases i with
  | isReady => exact fails_ok .isReady s s _
  | attach => exact fails_attach s
  | stop => exact fails_requireReady (i := .stop) (fails_ok .stop s _ _)
  | switch c l =>
    exact fails_requireReady (i := .switch c l) (fails_requireChan (i := .switch c l) fun d =>
      fails_finish (i := .switch c l) fun _ he => .inl (doSwitch_block_of_error he))
  | read c =>
    exact fails_requireReady (i := .read c) (fails_requireChan (i := .read c) fun _ => fails_ok (.read c) s s _)
  | readAll => exact fails_requireReady (i := .readAll) (fails_ok .readAll s s _)
  | isOn c => exact fails_requireChan (i := .isOn c) fun _ => fails_ok (.isOn c) s s _
  | portRead =>
    exact fails_requireReady (i := .portRead) (fails_finish (i := .portRead) fun _ _ => portRead_readAtMost s)
  | portWrite v =>
    exact fails_requireReady (i := .portWrite v)
      (fails_finish (i := .portWrite v) fun _ _ => .inl (portWrite_block v s))
  | getBit n =>
    exact fails_requireReady (i := .getBit n) (fails_requireChan (i := .getBit n) fun c =>
      fails_finish (i := .getBit n) fun _ _ => (getBit_state c s).symm ▸ portRead_readAtMost s)
  | setBit n b =>
    refine fails_requireReady (i := .setBit n b) (fails_requireChan (i := .setBit n b) fun c =>
      fails_finish (i := .setBit n b) fun _ _ => ?_)
    rw [ReadAtMost, setBit_block]
    exact portRead_readAtMost s
  | setAll v =>
    exact fails_requireReady (i := .setAll v)
      (fails_finish (i := .setAll v) fun _ _ => .inl (portWrite_block (composeBits (extractBit v)) s))

/-! ### Errors are precise -/

/-- The transport's failures have different codes (R89). -/
theorem causeCode_injective : Function.Injective causeCode := by
  intro c d h
  cases c <;> cases d <;> simp [causeCode] at h ⊢

/-- An error kind is its `STATUS` and `CAUSE` (R88, R89). -/
theorem ErrKind.eq_of_fields {k l : ErrKind} (hs : k.status = l.status) (hc : k.causeField = l.causeField) : k = l := by
  cases k with
  | busError c =>
    cases l with
    | busError d => exact congrArg ErrKind.busError (causeCode_injective hc)
    | invalidChannel | notReady | illegalCommand => cases hs
  | invalidChannel | notReady | illegalCommand => cases l <;> simp [ErrKind.status] at hs ⊢

/-- `STATUS` and `CAUSE` of an error response tell its error kind (R88, R89). -/
theorem eq_err_of_rspWord_eq {ch ch' : Idx} {r : Result} {k : ErrKind} (h : rspWord ch r = rspWord ch' (.err k)) :
    r = .err k := by
  have hstatus : r.status = k.status := by
    rw [← rspWord_status ch r, h, rspWord_status]
    rfl
  have hcause : r.causeField = k.causeField := by
    rw [← rspWord_causeField ch r, h, rspWord_causeField]
    rfl
  cases r with
  | ok d => cases k <;> cases hstatus
  | err l => exact congrArg Result.err (ErrKind.eq_of_fields hstatus hcause)

/-- No error touches `SEQ` or a cell (R206). -/
theorem Failed.cells {s u : State} {i : Instr} {k : ErrKind} (h : Failed s i k u) :
    u.block.seq = s.block.seq ∧ u.block.cv = s.block.cv ∧ u.block.cl = s.block.cl := by
  cases h with
  | turnedAway => exact ⟨rfl, rfl, rfl⟩
  | attachRefused hi b hl =>
    rw [State.setBlock_block, (latchConfig_some hl).1]
    exact ⟨rfl, rfl, rfl⟩
  | transport c hk hu => obtain hb | ⟨v, hb⟩ := hu <;> rw [hb] <;> exact ⟨rfl, rfl, rfl⟩

/-- No error but ATTACH's touches a latch (R206). -/
theorem Failed.sameLatches {s u : State} {i : Instr} {k : ErrKind} (h : Failed s i k u) (hi : i ≠ .attach) :
    sameLatches s.block u.block := by
  cases h with
  | turnedAway => exact sameLatches_refl _
  | attachRefused ha => exact absurd ha hi
  | transport c hk hu => obtain hb | ⟨v, hb⟩ := hu <;> rw [hb] <;> exact sameLatches_refl s.block

/-- An error that is not the transport's leaves all but ATTACH's latches (R203, R204, R206). -/
theorem Failed.eq_setBlock {s u : State} {i : Instr} {k : ErrKind} (h : Failed s i k u) (hk : ∀ c, k ≠ .busError c) :
    ∃ b, u = s.setBlock b ∧ (i ≠ .attach → b = s.block) := by
  cases h with
  | turnedAway => exact ⟨s.block, rfl, fun _ => rfl⟩
  | attachRefused ha b => exact ⟨b, rfl, fun hi => absurd ha hi⟩
  | transport c hc => exact absurd hc (hk c)

/-- Settles O37: the last event tells the error kind, and `Failed` lists what can have happened before it. -/
theorem errorsArePrecise : Obligations.ErrorsArePrecise := by
  intro i s t new ch k h htrace
  obtain ⟨u, r, rfl, hfail⟩ := exec_fails i s t h
  rw [respond, State.emit_trace] at htrace
  obtain ⟨hnew, hrsp⟩ := List.append_inj' htrace (Eq.refl 1)
  have hu : Failed s i k u := hfail k (eq_err_of_rspWord_eq (Obs.response.inj (List.singleton_inj.1 hrsp)))
  obtain ⟨hseq, hcv, hcl⟩ := hu.cells
  refine ⟨hseq, hcv, hcl, hu.sameLatches, fun hk => ?_⟩
  obtain ⟨b, rfl, hb⟩ := hu.eq_setBlock hk
  exact ⟨List.self_eq_append_right.1 hnew, rfl, ⟨rfl, rfl, rfl⟩, tookDraws_refl s, hb⟩

end Sys2Proof.Machine
end

section
/-! SUPPORT. The steps that serve no command (70_reset_and_hazards.md rules R240, R241), and a stopped block along a whole
run (R253): what every step takes of the input, and the induction over a run. -/

namespace Sys2Proof.Machine

/-! ### Another agent's write -/

/-- With other agents allowed the write changes the device register (R66). -/
theorem step_foreign_of_agents {s : State} {a : BusAddr} {v : Byte} {rest : List HostEvent}
    (h : s.input = .foreign a v :: rest) (hext : s.params.extAgents = true) :
    step s = .next ((s.setInput rest).setDevice a v) := by
  rw [step_foreign h, applyForeign, State.setInput_params, if_pos hext]

/-- Without other agents the write is taken and changes nothing (R66). -/
theorem step_foreign_alone {s : State} {a : BusAddr} {v : Byte} {rest : List HostEvent}
    (h : s.input = .foreign a v :: rest) (hext : s.params.extAgents = false) :
    step s = .next (s.setInput rest) := by
  rw [step_foreign h, applyForeign, State.setInput_params, if_neg (by simp [hext])]

/-- Settles O39: each kind of input by the equation of its step; another agent's write with and without agents. -/
theorem stepsWithoutCommand : Obligations.StepsWithoutCommand := by
  refine ⟨fun s => step_nil, fun s rest h => ?_, fun s rest c => step_config, fun s rest a v h => ?_⟩
  · exact ⟨_, step_rst h, rfl, rfl, rfl, rfl, rfl, rfl, rfl, rfl, tookDraws_refl s⟩
  · cases hext : s.params.extAgents with
    | true =>
      exact ⟨_, step_foreign_of_agents h hext, rfl, rfl, rfl, rfl, rfl, tookDraws_refl s,
        fun x hx => State.device_setDevice_other (s.setInput rest) a x v hx,
        State.device_setDevice_same (s.setInput rest) a v⟩
    | false =>
      exact ⟨_, step_foreign_alone h hext, rfl, rfl, rfl, rfl, rfl, tookDraws_refl s, fun _ _ => rfl, rfl⟩

/-! ### Runs -/

/-- Every step takes what the host presents first, and no more (R57). -/
theorem step_input {s t : State} (h : step s = .next t) : t.input = s.input.tail := by
  cases hin : s.input with
  | nil =>
    cases (step_nil hin).symm.trans h
    exact hin
  | cons e rest =>
    cases e with
    | command w =>
      cases hd : decodePort s.params.primPort w with
      | error e =>
        cases (step_of_illegal hin hd).symm.trans h
        rfl
      | ok i =>
        rw [step_of_legal hin hd] at h
        obtain ⟨-, ⟨-, -, hinput⟩, -⟩ := onlyTheAttachedDevice i _ t h
        exact hinput
    | config c =>
      cases (step_config hin).symm.trans h
      rfl
    | rst =>
      cases (step_rst hin).symm.trans h
      rfl
    | foreign a v =>
      cases hext : s.params.extAgents with
      | true =>
        cases (step_foreign_of_agents hin hext).symm.trans h
        rfl
      | false =>
        cases (step_foreign_alone hin hext).symm.trans h
        rfl

/-- What every step keeps holds at the end of every run. -/
theorem runSteps_invariant {P : State → Prop} (hstep : ∀ s t, P s → step s = .next t → P t) :
    ∀ (n : Nat) (s t : State), P s → runSteps n s = .next t → P t := by
  intro n
  induction n with
  | zero =>
    rintro s t hs ⟨⟩
    exact hs
  | succ n ih =>
    intro s t hs h
    rw [runSteps] at h
    split at h
    · rename_i u hu
      exact ih u t (hstep s u hs hu) h
    · cases h
    · cases h

/-! ### A stopped block -/

/-- The block is stopped and the host presents no `rst`: what a run from such a state keeps. -/
def State.StoppedUnreset (s : State) : Prop := s.block.seq = .stopped ∧ ∀ e ∈ s.input, e ≠ .rst

/-- Where the host presents no `rst`, the next step is none. -/
theorem State.nextIsReset_of_no_rst {s : State} (h : ∀ e ∈ s.input, e ≠ .rst) : s.nextIsReset = false := by
  unfold State.nextIsReset
  split
  · rename_i hin
    exact absurd rfl (h .rst (by simp [hin]))
  · rfl

/-- `Stopped` has no edge but by reset (R180), and a step only shortens the input. -/
theorem State.StoppedUnreset.step {s t : State} (hs : s.StoppedUnreset) (h : step s = .next t) : t.StoppedUnreset := by
  obtain ⟨hq, hrst⟩ := hs
  refine ⟨?_, fun e he => hrst e (List.mem_of_mem_tail (step_input h ▸ he))⟩
  rw [sequencerEdges s t h, State.nextIsReset_of_no_rst hrst, hq]
  cases s.nextCommand? with
  | none => rfl
  | some i => cases i <;> rfl

/-- Settles O47, by induction on the number of steps. -/
theorem stoppedIsForGood : Obligations.StoppedIsForGood := by
  intro n s t hq hrst h
  have stopped : t.StoppedUnreset := runSteps_invariant (fun _ _ => State.StoppedUnreset.step) n s t ⟨hq, hrst⟩ h
  exact stopped.1

end Sys2Proof.Machine
end

section
/-! SUPPORT. A primitive write against the confirmed-state invariant (70_reset_and_hazards.md rule R252). -/

namespace Sys2Proof.Machine

/-- In `Ready`, PORT_WRITE answered Ok of a byte that disagrees with a valid cell breaks the invariant: the byte is the
last confirmed one, and the cell keeps its level (R124, R252). -/
theorem exec_portWrite_not_confirmed {s : State} {v : Byte} {c : Chan} (hq : s.block.seq = .ready)
    (hf : (s.drawAt 0).fail = none) (hk : s.block.known c = true)
    (hv : extractBit v c ≠ phys s.block c (extractBit s.block.cl c)) :
    ∃ t, exec (.portWrite v) s = .next t ∧ ¬ t.Confirmed := by
  obtain ⟨-, -, hok, -⟩ := portWriteAndSetAllComplete
  obtain ⟨t, he, hb, htrace, -⟩ := hok s v (.portWrite v) (.inl rfl) hq hf
  refine ⟨t, he, fun hc => hv ?_⟩
  have hlast : lastOkWrite t.trace = some v := by
    rw [htrace, lastOkWrite_append]
    rfl
  have hcell := hc c (by rw [hb]; exact hk)
  rw [hlast, hb] at hcell
  exact Option.some.inj hcell

/-- Channel 0 confirmed on: its cell is valid, a 1 stands for on, and the last write answered Ok put a 1 on pin 0. The
next transaction is answered Ok. -/
def confirmedOn : State :=
  { params := { primPort := .exposed, extAgents := false, validAddrs := [0x20], devIdW := 32, devRegInit := 0 }
    block := { Block.reset with seq := .ready, addr := 0x20, onState := 1, cv := 1, cl := 1 }
    cfgIn := CfgIn.initial
    bus := [(0x20, 1)]
    oracle := [{ foreign := none, fail := none, landed := false }]
    drawn := 0
    input := []
    trace := [.bus (.write 0x20 1 none)] }

/-- Both invariants hold there. -/
theorem confirmedOn_inv_and_confirmed : confirmedOn.Inv ∧ confirmedOn.Confirmed :=
  ⟨⟨by decide, by decide, by decide, Nat.two_pow_pos 32⟩, by decide⟩

/-- Settles O52: PORT_WRITE of 0 clears the pin of a channel whose cell says on. -/
theorem primitiveWriteCanBreakConfirmedState : Obligations.PrimitiveWriteCanBreakConfirmedState := by
  obtain ⟨hinv, hconf⟩ := confirmedOn_inv_and_confirmed
  obtain ⟨t, he, hbroken⟩ :=
    exec_portWrite_not_confirmed (s := confirmedOn) (v := 0) (c := 0) rfl rfl (by decide) (by decide)
  exact ⟨confirmedOn, t, 0, hinv, hconf, he, hbroken⟩

end Sys2Proof.Machine
end
